-- ==== Sys2Proof/Word.lean ====
section
/-! DEFINITION. The word types of the vm_tbd core (spec/00_scope.md, R4): bytes, 16-bit embedded values, 32-bit words. -/

namespace Sys2Proof

/-- A byte, the unit of addressing (R4, R40). -/
abbrev Byte := BitVec 8

/-- An embedded immediate, address, offset or target (R3, R82). -/
abbrev Half := BitVec 16

/-- A register value or an address (R4, R10). -/
abbrev Word := BitVec 32

end Sys2Proof
end

