-- ==== Sys2Proof/Config.lean ====
section
/-! DEFINITION. The implementation parameters of spec/00_scope.md, R1 and R2: the zone sizes of one machine and the
bounds of the encoder block. They are arguments of a run (R31), so a machine carries its own `Config` in its state;
no instruction writes it. -/

namespace Sys2Proof

/-- The free parameters of R1. `XLEN`, `NGPR`, `SLOT` and `DDT_SLOT` are fixed by the source and are not fields. -/
structure Config where
  /-- `PROG_SIZE`, bytes of the program region -/
  progSize : Nat
  /-- `DEV_COUNT`, number of device descriptor slots -/
  devCount : Nat
  /-- `RAM_SIZE`, bytes of the RAM region -/
  ramSize : Nat
  /-- `DEVMAP_SIZE`, bytes of the device-mapped window -/
  devmapSize : Nat
deriving DecidableEq, Repr

namespace Config

/-- `PROG_END` (R2): the end-of-program sentinel; the program region starts at 0. -/
def progEnd (c : Config) : Nat := c.progSize

/-- `DDT_BASE` (R2). -/
def ddtBase (c : Config) : Nat := c.progEnd

/-- `DDT_SIZE` (R2): 8 bytes a descriptor slot. -/
def ddtSize (c : Config) : Nat := c.devCount * 8

/-- `DDT_END` (R2). -/
def ddtEnd (c : Config) : Nat := c.ddtBase + c.ddtSize

/-- `RAM_BASE` (R2). -/
def ramBase (c : Config) : Nat := c.ddtEnd

/-- `RAM_END` (R2). -/
def ramEnd (c : Config) : Nat := c.ramBase + c.ramSize

/-- `DEVMAP_BASE` (R2). -/
def devmapBase (c : Config) : Nat := c.ramEnd

/-- `DEVMAP_END` (R2). -/
def devmapEnd (c : Config) : Nat := c.devmapBase + c.devmapSize

/-- `MEM_SIZE` (R2): addresses 0 to `memSize - 1` exist and no others (R40). -/
def memSize (c : Config) : Nat := c.devmapEnd

/-- `SP_RESET` (R2): the last byte of RAM. -/
def spReset (c : Config) : Word := BitVec.ofNat 32 (c.ramEnd - 1)

/-- The constraints of R1 and R2 on a configuration. -/
abbrev Legal (c : Config) : Prop :=
  c.progSize % 4 = 0 ∧ 4 ≤ c.progSize ∧ 1 ≤ c.devCount ∧ 16 ≤ c.ramSize ∧ c.memSize ≤ 2 ^ 32

/-- The reference configuration of R1 (decision D1). -/
def reference : Config :=
  { progSize := 0x1000, devCount := 8, ramSize := 0x2FC0, devmapSize := 0x4000 }

end Config

/-- The parameters of the encoder block (R1): `MAX_LABEL_LEN`, `MAX_INCLUDE_DEPTH`, and `SRC_EXT`, which the spec
leaves to the host (D43). -/
structure AsmConfig where
  maxLabelLen : Nat
  maxIncludeDepth : Nat
  srcExt : List Char
deriving DecidableEq, Repr

namespace AsmConfig

/-- The constraint of R1 on the encoder block's parameters. -/
abbrev Legal (c : AsmConfig) : Prop := 1 ≤ c.maxLabelLen

/-- The reference values of R1; the extension stays an argument (OPEN in R1). -/
def reference (srcExt : List Char) : AsmConfig :=
  { maxLabelLen := 32, maxIncludeDepth := 8, srcExt := srcExt }

end AsmConfig

end Sys2Proof
end

