-- ==== Sys2Proof/Machine/State.lean ====
section
/-! DEFINITION. The state of the vm_tbd core (spec/10_state.md): registers, memory, run status, output stream, the
keyboard request counter, the configuration of the machine and the device collaborator's pending writes, all plain
data; the reasons a step can have no next state; and the state after reset (R32). -/

namespace Sys2Proof.Machine

/-- The fault causes of R203. A machine fault is a value of the run status, so raising one is a next state. -/
inductive FaultCause where
  /-- fetch with `pc > PROG_END` (R205) -/
  | fetchOutOfProgram
  /-- fetch with `pc < PROG_END` and `pc` not a multiple of 4 (R206) -/
  | fetchMisaligned
  /-- decode of an unassigned opcode (R207) -/
  | illegalOpcode
  /-- decode of a reserved mode or metric (R208) -/
  | reservedMode
  /-- decode of `PSH` naming no pushable register (R209) -/
  | illegalRegister
  /-- `DIV` with second operand 0 (R210) -/
  | divideByZero
  /-- `DIV` of `-2^31` by `-1` (R211) -/
  | divideOverflow
  /-- `SHL`, `SHR` with an amount of at least 32 (R212) -/
  | shiftRange
  /-- an access at or above `MEM_SIZE` (R204) -/
  | outOfBounds
  /-- a write into the descriptor table (R213) -/
  | descriptorWrite
deriving DecidableEq, Repr

/-- What an instruction raises: the cause and its extra value (R200, R203). The extra value is a number, since the
first offending address may be `2^32` when `MEM_SIZE` is. -/
structure Raised where
  cause : FaultCause
  info : Nat
deriving DecidableEq, Repr

/-- The fault record `Faulted(cause, slot, info)` (R200). -/
structure FaultRecord where
  cause : FaultCause
  slot : Word
  info : Nat
deriving DecidableEq, Repr

/-- The run status (R25). -/
inductive RunStatus where
  | running
  /-- the normal end, with the exit code if the halt interrupt gave one -/
  | halted (code : Option Word)
  | faulted (r : FaultRecord)
deriving DecidableEq, Repr

/-- Memory as (address, byte) pairs, addresses strictly rising and no byte equal to `unlistedByte`. -/
abbrev Memory := List Host.Cell

/-- What an address that no pair lists reads as. The spec leaves the initial bytes open (R232, D6).
DESIGN CHOICE, unsafe: notes/assumptions/2.md. -/
def unlistedByte : Byte := 0

/-- Everything the spec gives the machine. -/
structure State where
  /-- the configuration, an argument of the run (R1, R31); no step writes it -/
  cfg : Config
  /-- `R0` to `R7` (R10) -/
  x : Vector Word 8
  /-- the stack pointer: the next free stack byte (R17) -/
  sp : Word
  /-- the frame pointer (R18) -/
  fp : Word
  /-- the program counter: the slot of the instruction to execute (R14) -/
  pc : Word
  /-- the status register (R19) -/
  sr : Word
  /-- the memory image (R27) -/
  mem : Memory
  /-- the run status (R25) -/
  status : RunStatus
  /-- the output byte stream (R26) -/
  out : List Byte
  /-- the number of keyboard requests (R28) -/
  kbdRequests : Nat
  /-- THE MODEL'S OWN FIELD: the device collaborator's free input (R58). Each entry is what the device writes at one of
  its action points, the next one first; when none is left the device changes nothing. -/
  deviceInputs : List (List Host.Cell)
deriving DecidableEq, Repr

/-- Why a state has no next step (R25: only `Running` has one). Safe: the spec gives no step there. -/
inductive Fault where
  /-- raised by `step` in a state whose run has ended normally (R25, R237); safe -/
  | runHalted (code : Option Word)
  /-- raised by `step` in a state whose run has ended in a machine fault (R200); safe -/
  | runFaulted (r : FaultRecord)
deriving DecidableEq, Repr

/-- Instructions without a meaning. -/
inductive Refusal where
  /-- raised only by an arm of `exec` that has no meaning yet; safe. No arm of this model is one. -/
  | notModelled (mnemonic : String)
deriving DecidableEq, Repr

/-- The machine right after reset (R32) in the reference configuration, before an image is loaded. The general
registers, the memory bytes and the device's input are open in the spec; their values here are DESIGN CHOICES, unsafe:
notes/assumptions/1.md, 2.md, 3.md, 4.md. -/
def State.reset : State :=
  { cfg := Config.reference
    x := Vector.replicate 8 0
    sp := Config.reference.spReset
    fp := Config.reference.spReset
    pc := 0
    sr := 0
    mem := []
    status := .running
    out := []
    kbdRequests := 0
    deviceInputs := [] }

end Sys2Proof.Machine
end

