-- ==== Sys2Proof/Syntax.lean ====
section
/-! DEFINITION. The instructions of the vm_tbd core (spec/30_encoding.md, R72 to R85): one constructor per row of
spec/opcode_table.json. -/

namespace Sys2Proof

/-- A general register `R0` to `R7`, named by a 3-bit index (R10, R11, R83). -/
abbrev Gpr := Fin 8

/-- A register of the 12-entry file (R12): `R0` to `R7` are indices 0 to 7, then `SP`, `FP`, `PC`, `SR`. Only `PSH`
has a field that can name one (R13, R77). -/
inductive FileReg where
  | gpr (i : Gpr)
  | sp
  | fp
  | pc
  | sr
deriving DecidableEq, Repr

/-- The four addressing modes of format M (R73). -/
inductive MemOperand where
  /-- REG: the address is in `Rb` -/
  | reg (b : Gpr)
  /-- REGREG: `Rb + Ro` -/
  | regReg (b o : Gpr)
  /-- REGIMM: `Rb` plus the zero-extended offset -/
  | regImm (b : Gpr) (imm : Half)
  /-- ABS: the zero-extended address -/
  | abs (addr : Half)
deriving DecidableEq, Repr

/-- The second operand of format A (R75): a register or a zero-extended literal. -/
inductive AluOperand where
  | reg (s : Gpr)
  | imm (v : Half)
deriving DecidableEq, Repr

/-- The seven comparison metrics (R79, R140). Code 7 is reserved and has no constructor. -/
inductive Metric where
  | al
  | eq
  | ne
  | lt
  | gt
  | le
  | ge
deriving DecidableEq, Repr

/-- The instructions (R85), `PSH` in its two forms (R77) as the opcode table has them. -/
inductive Instr where
  | lod (d : Gpr) (m : MemOperand)
  | ldi (d : Gpr) (imm : Half)
  | sto (r : Gpr) (m : MemOperand)
  | pshLit (imm : Half)
  | pshReg (k : FileReg)
  | pop (d : Gpr)
  | add (d : Gpr) (o : AluOperand)
  | sub (d : Gpr) (o : AluOperand)
  | mul (d : Gpr) (o : AluOperand)
  | div (d : Gpr) (o : AluOperand)
  | and (d : Gpr) (o : AluOperand)
  | orr (d : Gpr) (o : AluOperand)
  | xor (d : Gpr) (o : AluOperand)
  | shl (d : Gpr) (o : AluOperand)
  | shr (d : Gpr) (o : AluOperand)
  | cmp (a b : Gpr)
  | jmp (c : Metric) (target : Half)
  | cal (c : Metric) (target : Half)
  | ret
  | int (n : Byte)
deriving DecidableEq, Repr

end Sys2Proof
end

