-- ==== Sys2Proof/Machine/Ops.lean ====
section
/-! DEFINITION. The shared operations over registers and memory: the zones (spec/20_memory.md R41), the access
primitives (R44, R45), the stack primitives (R47, R48), the device collaborator's action (R58), and raising a fault
(spec/60_exceptions.md R200, R202). -/

namespace Sys2Proof.Machine

/-! ## Memory as a canonical list -/

/-- The byte at an address. -/
def Memory.read : Memory → Nat → Byte
  | [], _ => unlistedByte
  | (k, b) :: m, a => if k = a then b else Memory.read m a

/-- Put a cell before the first cell of a higher address. -/
def Memory.insert (a : Nat) (b : Byte) : Memory → Memory
  | [] => [(a, b)]
  | (k, c) :: m => if a < k then (a, b) :: (k, c) :: m else (k, c) :: Memory.insert a b m

/-- Drop every cell of an address. -/
def Memory.erase (a : Nat) (m : Memory) : Memory := m.filter (fun c => c.1 != a)

/-- Write a byte, keeping the canonical form: the byte an unlisted address reads as is not listed. -/
def Memory.write (m : Memory) (a : Nat) (b : Byte) : Memory :=
  if b = unlistedByte then m.erase a else (m.erase a).insert a b

/-- Write consecutive bytes from an address upward. -/
def Memory.writeList (m : Memory) (a : Nat) : List Byte → Memory
  | [] => m
  | b :: bs => (m.write a b).writeList (a + 1) bs

/-- The canonical form: addresses strictly rising, no entry equal to what an unlisted address reads as. -/
abbrev Memory.wf (m : Memory) : Prop :=
  m.Pairwise (fun c d => c.1 < d.1) ∧ ∀ c ∈ m, c.2 ≠ unlistedByte

/-! ## Zones (R41) -/

/-- The address lies in the device descriptor table (R41). -/
abbrev State.inDdt (s : State) (a : Nat) : Prop := s.cfg.ddtBase ≤ a ∧ a < s.cfg.ddtEnd

/-- The address lies in the device-mapped window (R41). -/
abbrev State.inWindow (s : State) (a : Nat) : Prop := s.cfg.devmapBase ≤ a ∧ a < s.cfg.devmapEnd

/-! ## Registers (R10, R12) -/

/-- Read a general register. -/
def State.getX (s : State) (i : Gpr) : Word := s.x[i]

/-- Write a general register. -/
def State.setX (s : State) (i : Gpr) (v : Word) : State := { s with x := s.x.set i v }

/-- The end of an instruction that transfers no control (R14). -/
def State.advance (s : State) : State := { s with pc := s.pc + 4 }

/-! ## Bytes of the memory image -/

/-- `mem[a]` (R5). -/
def State.byteAt (s : State) (a : Nat) : Byte := s.mem.read a

/-- The little-endian word at `a` (R44): the byte at the lowest address is bits 7 to 0. -/
def State.wordAt (s : State) (a : Nat) : Word :=
  s.byteAt (a + 3) ++ s.byteAt (a + 2) ++ s.byteAt (a + 1) ++ s.byteAt a

/-- The `n` bytes from `a` upward. -/
def State.bytesAt (s : State) (a : Nat) : Nat → List Byte
  | 0 => []
  | n + 1 => s.byteAt a :: s.bytesAt (a + 1) n

/-- Byte `i` of a word, byte 0 being bits 7 to 0. -/
def byteOf (v : Word) (i : Nat) : Byte := v.extractLsb' (8 * i) 8

/-- The bytes of a word by ascending address (R45): low byte first. -/
def wordBytes (v : Word) : List Byte := [byteOf v 0, byteOf v 1, byteOf v 2, byteOf v 3]

/-- Store bytes from `a` upward, with no check. -/
def State.putBytes (s : State) (a : Nat) (bs : List Byte) : State := { s with mem := s.mem.writeList a bs }

/-! ## The access primitives -/

/-- The bound of R44 and R45, in natural numbers: it reports the first address at or above `MEM_SIZE`. -/
def checkBounds (s : State) (a n : Nat) : Except Raised Unit :=
  if s.cfg.memSize < a + n then .error ⟨.outOfBounds, max a s.cfg.memSize⟩ else .ok ()

/-- The first address of the `n` from `a` upward that lies in the descriptor table (R45). -/
def firstInDdt (s : State) (a : Nat) : Nat → Option Nat
  | 0 => none
  | n + 1 => if s.inDdt a then some a else firstInDdt s (a + 1) n

/-- The descriptor-table test of R45. -/
def checkDescriptor (s : State) (a n : Nat) : Except Raised Unit :=
  match firstInDdt s a n with
  | some d => .error ⟨.descriptorWrite, d⟩
  | none => .ok ()

/-- `MemRead(addr, 1)` (R44). -/
def memRead1 (s : State) (addr : Word) : Except Raised Byte := do
  checkBounds s addr.toNat 1
  .ok (s.byteAt addr.toNat)

/-- `MemRead(addr, 4)` (R44). -/
def memRead4 (s : State) (addr : Word) : Except Raised Word := do
  checkBounds s addr.toNat 4
  .ok (s.wordAt addr.toNat)

/-- `MemWrite` of R45 for the given bytes by ascending address: `OutOfBounds` before `DescriptorWrite`, and no byte is
written unless both tests pass. -/
def memWrite (s : State) (addr : Word) (bs : List Byte) : Except Raised State := do
  checkBounds s addr.toNat bs.length
  checkDescriptor s addr.toNat bs.length
  .ok (s.putBytes addr.toNat bs)

/-- `MemWrite(addr, 1, v)` (R45). -/
def memWrite1 (s : State) (addr : Word) (b : Byte) : Except Raised State := memWrite s addr [b]

/-- `MemWrite(addr, 4, v)` (R45). -/
def memWrite4 (s : State) (addr : Word) (v : Word) : Except Raised State := memWrite s addr (wordBytes v)

/-! ## The stack primitives -/

/-- One byte of a push (R47): write at `sp`, then lower `sp`. -/
def pushByte (s : State) (b : Byte) : Except Raised State := do
  let t ← memWrite1 s s.sp b
  .ok { t with sp := t.sp - 1 }

/-- `Push32` (R47): high byte first, at descending addresses. -/
def push32 (s : State) (v : Word) : Except Raised State := do
  let s3 ← pushByte s (byteOf v 3)
  let s2 ← pushByte s3 (byteOf v 2)
  let s1 ← pushByte s2 (byteOf v 1)
  pushByte s1 (byteOf v 0)

/-- One byte of a pop (R48): raise `sp`, then read there. -/
def popByte (s : State) : Except Raised (Byte × State) := do
  let t := { s with sp := s.sp + 1 }
  let b ← memRead1 t t.sp
  .ok (b, t)

/-- `Pop32` (R48): the first byte read is the low byte. -/
def pop32 (s : State) : Except Raised (Word × State) := do
  let (t0, s0) ← popByte s
  let (t1, s1) ← popByte s0
  let (t2, s2) ← popByte s1
  let (t3, s3) ← popByte s2
  .ok (t3 ++ t2 ++ t1 ++ t0, s3)

/-! ## The device collaborator (R58) -/

/-- What the device's writes leave of a memory: each write lands only inside the device-mapped window. -/
def deviceWrite (c : Config) (m : Memory) : List Host.Cell → Memory
  | [] => m
  | (a, b) :: ws => deviceWrite c (if c.devmapBase ≤ a ∧ a < c.devmapEnd then m.write a b else m) ws

/-- One action point of the device collaborator: it takes the next pending input and touches nothing but the
device-mapped window. -/
def State.deviceAct (s : State) : State :=
  match s.deviceInputs with
  | [] => s
  | ws :: rest => { s with mem := deviceWrite s.cfg s.mem ws, deviceInputs := rest }

/-! ## Raising a fault -/

/-- The number of a fault cause (R203). -/
def FaultCause.code : FaultCause → Nat
  | .fetchOutOfProgram => 1
  | .fetchMisaligned => 2
  | .illegalOpcode => 3
  | .reservedMode => 4
  | .illegalRegister => 5
  | .divideByZero => 6
  | .divideOverflow => 7
  | .shiftRange => 8
  | .outOfBounds => 9
  | .descriptorWrite => 10

/-- `raise Fault(cause, info)` (R200, R202): the run status records the cause, the slot of the instruction and the
extra value; everything else is as it was before the instruction's fetch. `s` is the state at the fetch. -/
def raiseFault (r : Raised) (s : State) : Host.Outcome State Fault Refusal :=
  .next { s with status := .faulted ⟨r.cause, s.pc, r.info⟩ }

/-- The end of an instruction that ran on a copy of the state (R202): its writes are committed only if nothing was
raised. -/
def finish (s : State) (r : Except Raised State) : Host.Outcome State Fault Refusal :=
  match r with
  | .ok t => .next t
  | .error e => raiseFault e s

end Sys2Proof.Machine
end

