-- ==== Sys2Proof/Machine/Flags.lean ====
section
/-! DEFINITION. The flags of the status register and the comparison metrics (spec/10_state.md R19 to R21;
spec/43_control.md R140). -/

namespace Sys2Proof.Machine

/-- The zero flag `Z`, bit 0 (R19). -/
def flagZ (sr : Word) : Bool := sr.getLsbD 0

/-- The greater-than flag `GT`, bit 1 (R19). -/
def flagGT (sr : Word) : Bool := sr.getLsbD 1

/-- The status register with its two flag bits replaced and bits 31 to 2 unchanged (R20). -/
def withFlags (sr : Word) (z gt : Bool) : Word :=
  (sr &&& 0xFFFFFFFC#32) ||| (if z then 1#32 else 0#32) ||| (if gt then 2#32 else 0#32)

/-- `SetFlags(r)` (R20): zero, and strictly positive as a signed number. -/
def setFlags (s : State) (r : Word) : State :=
  { s with sr := withFlags s.sr (r == 0) (decide (0 < r.toInt)) }

/-- `SetFlagsCmp(a, b)` (R21): equal, and greater as signed integers. -/
def setFlagsCmp (s : State) (a b : Word) : State :=
  { s with sr := withFlags s.sr (a == b) (decide (b.toInt < a.toInt)) }

/-- `Metric(c, sr)` (R140), kept literally: `LT` tests only `GT`, and `GE` is the truthiness of the whole register. -/
def metricHolds (c : Metric) (sr : Word) : Bool :=
  match c with
  | .al => true
  | .eq => flagZ sr
  | .ne => !flagZ sr
  | .lt => !flagGT sr
  | .gt => flagGT sr
  | .le => !flagGT sr || flagZ sr
  | .ge => sr != 0

end Sys2Proof.Machine
end

