-- ==== Sys2Proof/Machine/Operands.lean ====
section
/-! DEFINITION. The operand forms (spec/30_encoding.md R73, R75, R77, R82; spec/20_memory.md R53). -/

namespace Sys2Proof.Machine

/-- `zext_32(imm16)` (R82): every embedded value is widened by zero extension. -/
def zext32 (v : Half) : Word := v.zeroExtend 32

/-- The effective address of a memory operand (R73), modulo `2^32` (R53). -/
def effAddr (s : State) : MemOperand → Word
  | .reg b => s.getX b
  | .regReg b o => s.getX b + s.getX o
  | .regImm b v => s.getX b + zext32 v
  | .abs v => zext32 v

/-- The second operand of format A (R75, R110). -/
def aluOperand (s : State) : AluOperand → Word
  | .reg r => s.getX r
  | .imm v => zext32 v

/-- `reg[k]` (R5, R12). -/
def fileReg (s : State) : FileReg → Word
  | .gpr i => s.getX i
  | .sp => s.sp
  | .fp => s.fp
  | .pc => s.pc
  | .sr => s.sr

end Sys2Proof.Machine
end

