-- ==== Sys2Proof/Machine/Alu.lean ====
section
/-! DEFINITION. Arithmetic, logical, shift and compare instructions (spec/41_alu.md R110 to R122). -/

namespace Sys2Proof.Machine

/-- The shape of the nine format A instructions (R110): both operands are read, the result is written to `Rd`, the
flags describe the result, and the instruction that raises writes nothing. -/
def execAlu (op : Word → Word → Except Raised Word) (d : Gpr) (o : AluOperand) (s : State) :
    Host.Outcome State Fault Refusal :=
  finish s (do
    let r ← op (s.getX d) (aluOperand s o)
    .ok (setFlags (s.setX d r) r).advance)

/-- The signed truncating quotient (R115). `slot` is the extra value of both division faults (R203). -/
def divide (slot : Word) (a b : Word) : Except Raised Word :=
  if b = 0 then .error ⟨.divideByZero, slot.toNat⟩
  else if a = 0x80000000#32 ∧ b = 0xFFFFFFFF#32 then .error ⟨.divideOverflow, slot.toNat⟩
  else .ok (BitVec.ofInt 32 (Int.tdiv a.toInt b.toInt))

/-- The left shift (R119): the amount is the whole second operand. -/
def shiftLeft (a n : Word) : Except Raised Word :=
  if 32 ≤ n.toNat then .error ⟨.shiftRange, n.toNat⟩ else .ok (a <<< n.toNat)

/-- The logical right shift (R120). -/
def shiftRight (a n : Word) : Except Raised Word :=
  if 32 ≤ n.toNat then .error ⟨.shiftRange, n.toNat⟩ else .ok (a >>> n.toNat)

/-- `ADD` (R112). -/
def execAdd (d : Gpr) (o : AluOperand) (s : State) : Host.Outcome State Fault Refusal :=
  execAlu (fun a b => .ok (a + b)) d o s

/-- `SUB` (R113). -/
def execSub (d : Gpr) (o : AluOperand) (s : State) : Host.Outcome State Fault Refusal :=
  execAlu (fun a b => .ok (a - b)) d o s

/-- `MUL` (R114): the low 32 bits of the product. -/
def execMul (d : Gpr) (o : AluOperand) (s : State) : Host.Outcome State Fault Refusal :=
  execAlu (fun a b => .ok (a * b)) d o s

/-- `DIV` (R115). -/
def execDiv (d : Gpr) (o : AluOperand) (s : State) : Host.Outcome State Fault Refusal :=
  execAlu (divide s.pc) d o s

/-- `AND` (R116). -/
def execAnd (d : Gpr) (o : AluOperand) (s : State) : Host.Outcome State Fault Refusal :=
  execAlu (fun a b => .ok (a &&& b)) d o s

/-- `ORR` (R117). -/
def execOrr (d : Gpr) (o : AluOperand) (s : State) : Host.Outcome State Fault Refusal :=
  execAlu (fun a b => .ok (a ||| b)) d o s

/-- `XOR` (R118). -/
def execXor (d : Gpr) (o : AluOperand) (s : State) : Host.Outcome State Fault Refusal :=
  execAlu (fun a b => .ok (a ^^^ b)) d o s

/-- `SHL` (R119). -/
def execShl (d : Gpr) (o : AluOperand) (s : State) : Host.Outcome State Fault Refusal :=
  execAlu shiftLeft d o s

/-- `SHR` (R120). -/
def execShr (d : Gpr) (o : AluOperand) (s : State) : Host.Outcome State Fault Refusal :=
  execAlu shiftRight d o s

/-- `CMP` (R121): only the flags are written. -/
def execCmp (a b : Gpr) (s : State) : Host.Outcome State Fault Refusal :=
  .next (setFlagsCmp s (s.getX a) (s.getX b)).advance

end Sys2Proof.Machine
end

