-- ==== Sys2Proof/Machine/Control.lean ====
section
/-! DEFINITION. Control transfer (spec/43_control.md R142 to R144). -/

namespace Sys2Proof.Machine

/-- `JMP` (R142): the target is not checked here; the next fetch checks it. -/
def execJmp (c : Metric) (target : Half) (s : State) : Host.Outcome State Fault Refusal :=
  .next (if metricHolds c s.sr then { s with pc := zext32 target } else s.advance)

/-- The taken call (R143): save `fp`, save the return address, `fp` becomes the new `sp`. -/
def takeCall (target : Half) (s : State) : Except Raised State := do
  let s1 ← push32 s s.fp
  let s2 ← push32 s1 (s.pc + 4)
  .ok { s2 with fp := s2.sp, pc := zext32 target }

/-- `CAL` (R143). -/
def execCal (c : Metric) (target : Half) (s : State) : Host.Outcome State Fault Refusal :=
  finish s (if metricHolds c s.sr then takeCall target s else .ok s.advance)

/-- The return (R144): take the result, drop the frame, restore `pc` and `fp`, hand the result to the caller. -/
def takeReturn (s : State) : Except Raised State := do
  let (res, s1) ← pop32 s
  let (ra, s2) ← pop32 { s1 with sp := s1.fp }
  let (oldFp, s3) ← pop32 { s2 with pc := ra }
  push32 { s3 with fp := oldFp } res

/-- `RET` (R144). -/
def execRet (s : State) : Host.Outcome State Fault Refusal := finish s (takeReturn s)

end Sys2Proof.Machine
end

