-- ==== Sys2Proof/Machine/Interrupt.lean ====
section
/-! DEFINITION. The software interrupt (spec/44_interrupt.md R150 to R156): entry, action and exit inside one
instruction. -/

namespace Sys2Proof.Machine

/-- Entry (R151): `PC` as the byte-wise engine has it here, `slot + 2`, then `SR`. -/
def interruptEntry (s : State) : Except Raised State := do
  let s1 ← push32 s (s.pc + 2)
  push32 s1 s1.sr

/-- Exit (R156) of a state `s` that an action left: `SR`, then `PC`, then the two padding bytes are skipped. The words
popped are those that entry saved, read in `saved`, the state entry left: the registers come back exactly (R22, R24,
R217), whatever the device wrote over the saved bytes meanwhile. DEDUCED, unsafe: notes/assumptions/8.md. -/
def interruptExit (saved s : State) : Except Raised State := do
  let (oldSr, s1) ← pop32 saved
  let (oldPc, s2) ← pop32 s1
  .ok { s with sp := s2.sp, sr := oldSr, pc := oldPc + 2 }

/-- The action of halt (R153): no exit sequence. -/
def haltAction (s : State) : Except Raised State := do
  let t ← push32 { s with pc := BitVec.ofNat 32 s.cfg.progEnd } (s.getX 0)
  .ok { t with status := .halted (some (s.getX 0)) }

/-- The action of keyboard (R154): the request is counted and the device collaborator acts once. -/
def keyboardAction (s : State) : State := { s with kbdRequests := s.kbdRequests + 1 }.deviceAct

/-- The action of character output (R155): `R1` bytes from address `R0`, the whole range checked first; a length of 0
outputs nothing and cannot fault. -/
def outputAction (s : State) : Except Raised State :=
  if (s.getX 1).toNat = 0 then .ok s
  else do
    checkBounds s (s.getX 0).toNat (s.getX 1).toNat
    .ok { s with out := s.out ++ s.bytesAt (s.getX 0).toNat (s.getX 1).toNat }

/-- `INT` on a copy of the state (R150): numbers 3 to 255 do entry and exit with no action between (R152). -/
def interrupt (n : Byte) (s : State) : Except Raised State := do
  let s1 ← interruptEntry s
  match n.toNat with
  | 0 => haltAction s1
  | 1 => interruptExit s1 (keyboardAction s1)
  | 2 => do
    let s2 ← outputAction s1
    interruptExit s1 s2
  | _ => interruptExit s1 s1

/-- `INT` (R150). -/
def execInt (n : Byte) (s : State) : Host.Outcome State Fault Refusal := finish s (interrupt n s)

end Sys2Proof.Machine
end

