-- ==== Sys2Proof/Machine/LoadStore.lean ====
section
/-! DEFINITION. Load and store (spec/40_load_store.md R100 to R103). -/

namespace Sys2Proof.Machine

/-- `LOD` (R101). -/
def execLod (d : Gpr) (m : MemOperand) (s : State) : Host.Outcome State Fault Refusal :=
  finish s (do
    let v ← memRead4 s (effAddr s m)
    .ok (s.setX d v).advance)

/-- `LDI` (R102). -/
def execLdi (d : Gpr) (imm : Half) (s : State) : Host.Outcome State Fault Refusal :=
  .next (s.setX d (zext32 imm)).advance

/-- `STO` (R103). -/
def execSto (r : Gpr) (m : MemOperand) (s : State) : Host.Outcome State Fault Refusal :=
  finish s (do
    let t ← memWrite4 s (effAddr s m) (s.getX r)
    .ok t.advance)

end Sys2Proof.Machine
end

