-- ==== Sys2Proof/WellFormed.lean ====
section
/-! DEFINITION. Which terms of `Instr` stand for an instruction of the machine. The types of the fields already bound
register numbers, modes and metrics; the one check left is that `PSH` may not name `PC` (spec/30_encoding.md R77,
spec/42_stack.md R131). -/

namespace Sys2Proof

/-- A register that `PSH` accepts: file index 0 to 9 or 11 (R77). -/
def FileReg.pushable : FileReg → Bool
  | .gpr _ => true
  | .sp => true
  | .fp => true
  | .pc => false
  | .sr => true

/-- A well-formed instruction: one that some slot decodes to. -/
def Instr.wellFormed : Instr → Bool
  | .lod _ _ => true
  | .ldi _ _ => true
  | .sto _ _ => true
  | .pshLit _ => true
  | .pshReg k => k.pushable
  | .pop _ => true
  | .add _ _ => true
  | .sub _ _ => true
  | .mul _ _ => true
  | .div _ _ => true
  | .and _ _ => true
  | .orr _ _ => true
  | .xor _ _ => true
  | .shl _ _ => true
  | .shr _ _ => true
  | .cmp _ _ => true
  | .jmp _ _ => true
  | .cal _ _ => true
  | .ret => true
  | .int _ => true

end Sys2Proof
end

