-- ==== Sys2Proof/Machine/Stack.lean ====
section
/-! DEFINITION. The stack instructions (spec/42_stack.md R130 to R132). -/

namespace Sys2Proof.Machine

/-- `PSH` in both forms, once the value is known (R131). -/
def pushValue (v : Word) (s : State) : Host.Outcome State Fault Refusal :=
  finish s (do
    let t ← push32 s v
    .ok t.advance)

/-- `PSH #imm` (R131). -/
def execPshLit (imm : Half) (s : State) : Host.Outcome State Fault Refusal := pushValue (zext32 imm) s

/-- `PSH Rk` (R131): the register is read before `sp` changes; `PC` is refused with `IllegalRegister`. No slot decodes
to `PSH PC` (R86), so that last case is the rule's own test and reports the canonical `b1`, 10. -/
def execPshReg (k : FileReg) (s : State) : Host.Outcome State Fault Refusal :=
  if k.pushable then pushValue (fileReg s k) s else raiseFault ⟨.illegalRegister, 10⟩ s

/-- `POP` (R132). -/
def execPop (d : Gpr) (s : State) : Host.Outcome State Fault Refusal :=
  finish s (do
    let (v, t) ← pop32 s
    .ok (t.setX d v).advance)

end Sys2Proof.Machine
end

