-- ==== Sys2Proof/Machine/Dispatch.lean ====
section
/-! DEFINITION. One arm per constructor of Instr, each one call of that instruction's meaning. -/

namespace Sys2Proof.Machine

/-- Execute one instruction whose slot is at `pc` (spec/70_reset_and_hazards.md R236, "execute instr by its rule"). -/
def exec (i : Instr) (s : State) : Host.Outcome State Fault Refusal :=
  match i with
  | .lod d m => Sys2Proof.Machine.execLod d m s
  | .ldi d imm => Sys2Proof.Machine.execLdi d imm s
  | .sto r m => Sys2Proof.Machine.execSto r m s
  | .pshLit imm => Sys2Proof.Machine.execPshLit imm s
  | .pshReg k => Sys2Proof.Machine.execPshReg k s
  | .pop d => Sys2Proof.Machine.execPop d s
  | .add d o => Sys2Proof.Machine.execAdd d o s
  | .sub d o => Sys2Proof.Machine.execSub d o s
  | .mul d o => Sys2Proof.Machine.execMul d o s
  | .div d o => Sys2Proof.Machine.execDiv d o s
  | .and d o => Sys2Proof.Machine.execAnd d o s
  | .orr d o => Sys2Proof.Machine.execOrr d o s
  | .xor d o => Sys2Proof.Machine.execXor d o s
  | .shl d o => Sys2Proof.Machine.execShl d o s
  | .shr d o => Sys2Proof.Machine.execShr d o s
  | .cmp a b => Sys2Proof.Machine.execCmp a b s
  | .jmp c target => Sys2Proof.Machine.execJmp c target s
  | .cal c target => Sys2Proof.Machine.execCal c target s
  | .ret => Sys2Proof.Machine.execRet s
  | .int n => Sys2Proof.Machine.execInt n s

end Sys2Proof.Machine
end

