-- ==== Sys2Proof/Decode.lean ====
section
/-! DEFINITION. Decoding and encoding (spec/30_encoding.md, R70 to R93): a total decoder from the four bytes of a slot
to an instruction or a named decode fault, and the encoder of the canonical form. -/

namespace Sys2Proof

/-- The four bytes of an instruction slot by ascending address (R70). -/
structure Slot where
  b0 : Byte
  b1 : Byte
  b2 : Byte
  b3 : Byte
deriving DecidableEq, Repr

namespace Slot

/-- The slot written as one 32-bit number with `b0` in the top byte (R71). -/
def word (w : Slot) : Word := w.b0 ++ w.b1 ++ w.b2 ++ w.b3

/-- The slot whose big-endian view is `w` (R71). -/
def ofWord (w : Word) : Slot :=
  { b0 := w.extractLsb' 24 8, b1 := w.extractLsb' 16 8, b2 := w.extractLsb' 8 8, b3 := w.extractLsb' 0 8 }

/-- The four bytes by ascending address (R70). -/
def bytes (w : Slot) : List Byte := [w.b0, w.b1, w.b2, w.b3]

/-- The embedded big-endian value (R82). -/
def imm16 (w : Slot) : Half := w.b2 ++ w.b3

end Slot

/-- The nineteen opcodes of R85. -/
inductive Opcode where
  | lod | ldi | sto | psh | pop | add | sub | mul | div | and | orr | xor | shl | shr | cmp | jmp | cal | ret | int
deriving DecidableEq, Repr

/-- The opcode map of R85; every other byte is unassigned. -/
def Opcode.ofByte (b : Byte) : Option Opcode :=
  match b.toNat with
  | 0x01 => some .lod
  | 0x02 => some .ldi
  | 0x03 => some .sto
  | 0x04 => some .psh
  | 0x05 => some .pop
  | 0x06 => some .add
  | 0x07 => some .sub
  | 0x08 => some .mul
  | 0x09 => some .div
  | 0x0A => some .and
  | 0x0B => some .orr
  | 0x0C => some .xor
  | 0x0D => some .shl
  | 0x0E => some .shr
  | 0x0F => some .cmp
  | 0x10 => some .jmp
  | 0x11 => some .cal
  | 0x12 => some .ret
  | 0x13 => some .int
  | _ => none

/-- The byte `b0` of an opcode (R85). -/
def Opcode.toByte : Opcode → Byte
  | .lod => 0x01
  | .ldi => 0x02
  | .sto => 0x03
  | .psh => 0x04
  | .pop => 0x05
  | .add => 0x06
  | .sub => 0x07
  | .mul => 0x08
  | .div => 0x09
  | .and => 0x0A
  | .orr => 0x0B
  | .xor => 0x0C
  | .shl => 0x0D
  | .shr => 0x0E
  | .cmp => 0x0F
  | .jmp => 0x10
  | .cal => 0x11
  | .ret => 0x12
  | .int => 0x13

/-- The three decode faults (R86), each with the byte it reports. -/
inductive DecodeFault where
  /-- `b0` is unassigned -/
  | illegalOpcode (b0 : Byte)
  /-- a reserved mode of format A or the reserved metric of format J -/
  | reservedMode (b1 : Byte)
  /-- the register form of `PSH` with an index that names no pushable register -/
  | illegalRegister (b1 : Byte)
deriving DecidableEq, Repr

/-! ## Fields of the operand bytes -/

/-- Bits 7:6 of `b1`: the mode of formats M and A. -/
def modeField (b : Byte) : BitVec 2 := b.extractLsb' 6 2

/-- Bits 5:3 of `b1`: the data, destination or left register. -/
def midField (b : Byte) : Gpr := (b.extractLsb' 3 3).toFin

/-- Bits 2:0 of an operand byte: the base, source, right or offset register, or the metric code. -/
def lowField (b : Byte) : Gpr := (b.extractLsb' 0 3).toFin

/-- Bits 3:0 of `b1`: the wide register index of format P (R77). -/
def wideField (b : Byte) : Fin 16 := (b.extractLsb' 0 4).toFin

/-- The byte with the given mode and register fields. -/
def packFields (mode : BitVec 2) (mid low : Gpr) : Byte :=
  mode ++ BitVec.ofNat 3 mid.val ++ BitVec.ofNat 3 low.val

/-- The literal constant `PSH_LIT` of R77, compared with the whole byte. -/
def pshLit : Byte := 0x80

/-- The metric of a 3-bit code (R79); code 7 is reserved. -/
def Metric.ofCode (c : Gpr) : Option Metric :=
  match c.val with
  | 0 => some .al
  | 1 => some .eq
  | 2 => some .ne
  | 3 => some .lt
  | 4 => some .gt
  | 5 => some .le
  | 6 => some .ge
  | _ => none

/-- The 3-bit code of a metric (R79). -/
def Metric.code : Metric → Gpr
  | .al => 0
  | .eq => 1
  | .ne => 2
  | .lt => 3
  | .gt => 4
  | .le => 5
  | .ge => 6

/-- The pushable register of a file index (R77): 0 to 9 and 11. -/
def FileReg.ofIndex (k : Fin 16) : Option FileReg :=
  if h : k.val < 8 then some (.gpr ⟨k.val, h⟩)
  else if k.val = 8 then some .sp
  else if k.val = 9 then some .fp
  else if k.val = 11 then some .sr
  else none

/-- The file index of a register (R12). -/
def FileReg.index : FileReg → Fin 16
  | .gpr i => ⟨i.val, by omega⟩
  | .sp => 8
  | .fp => 9
  | .pc => 10
  | .sr => 11

/-! ## The decoder, format by format -/

/-- The memory operand of format M (R73). -/
def decodeMem (w : Slot) : MemOperand :=
  match (modeField w.b1).toNat with
  | 0 => .reg (lowField w.b1)
  | 1 => .regReg (lowField w.b1) (lowField w.b2)
  | 2 => .regImm (lowField w.b1) w.imm16
  | _ => .abs w.imm16

/-- Format A (R75): modes `10` and `11` are reserved. -/
def decodeAlu (mk : Gpr → AluOperand → Instr) (w : Slot) : Except DecodeFault Instr :=
  match (modeField w.b1).toNat with
  | 0 => .ok (mk (midField w.b1) (.reg (lowField w.b1)))
  | 1 => .ok (mk (midField w.b1) (.imm w.imm16))
  | _ => .error (.reservedMode w.b1)

/-- Format J (R79): metric code 7 is reserved, whether or not the transfer would be taken. -/
def decodeJump (mk : Metric → Half → Instr) (w : Slot) : Except DecodeFault Instr :=
  match Metric.ofCode (lowField w.b1) with
  | some c => .ok (mk c w.imm16)
  | none => .error (.reservedMode w.b1)

/-- Format P (R77): the literal test is an equality on the whole byte, not a mask (R93). -/
def decodePush (w : Slot) : Except DecodeFault Instr :=
  if w.b1 = pshLit then .ok (.pshLit w.imm16)
  else
    match FileReg.ofIndex (wideField w.b1) with
    | some k => .ok (.pshReg k)
    | none => .error (.illegalRegister w.b1)

/-- `Decode` of R90: opcode first, then the mode, metric or register test, then field extraction. -/
def decode (w : Slot) : Except DecodeFault Instr :=
  match Opcode.ofByte w.b0 with
  | none => .error (.illegalOpcode w.b0)
  | some .lod => .ok (.lod (midField w.b1) (decodeMem w))
  | some .ldi => .ok (.ldi (midField w.b1) w.imm16)
  | some .sto => .ok (.sto (midField w.b1) (decodeMem w))
  | some .psh => decodePush w
  | some .pop => .ok (.pop (lowField w.b1))
  | some .add => decodeAlu .add w
  | some .sub => decodeAlu .sub w
  | some .mul => decodeAlu .mul w
  | some .div => decodeAlu .div w
  | some .and => decodeAlu .and w
  | some .orr => decodeAlu .orr w
  | some .xor => decodeAlu .xor w
  | some .shl => decodeAlu .shl w
  | some .shr => decodeAlu .shr w
  | some .cmp => .ok (.cmp (midField w.b1) (lowField w.b1))
  | some .jmp => decodeJump .jmp w
  | some .cal => decodeJump .cal w
  | some .ret => .ok .ret
  | some .int => .ok (.int w.b1)

/-! ## The encoder -/

/-- The slot with the given opcode, first operand byte and embedded value, high byte first (R82). -/
def slotOf (op : Opcode) (b1 : Byte) (v : Half) : Slot :=
  { b0 := op.toByte, b1 := b1, b2 := v.extractLsb' 8 8, b3 := v.extractLsb' 0 8 }

/-- Format M (R73), zero in every ignored bit. -/
def encodeMem (op : Opcode) (d : Gpr) : MemOperand → Slot
  | .reg b => slotOf op (packFields 0 d b) 0
  | .regReg b o => { b0 := op.toByte, b1 := packFields 1 d b, b2 := packFields 0 0 o, b3 := 0 }
  | .regImm b v => slotOf op (packFields 2 d b) v
  | .abs v => slotOf op (packFields 3 d 0) v

/-- Format A (R75). -/
def encodeAlu (op : Opcode) (d : Gpr) : AluOperand → Slot
  | .reg s => slotOf op (packFields 0 d s) 0
  | .imm v => slotOf op (packFields 1 d 0) v

/-- `Encode` of R91: the canonical four bytes. -/
def encode : Instr → Slot
  | .lod d m => encodeMem .lod d m
  | .ldi d v => slotOf .ldi (packFields 0 d 0) v
  | .sto r m => encodeMem .sto r m
  | .pshLit v => slotOf .psh pshLit v
  | .pshReg k => slotOf .psh (BitVec.ofNat 8 k.index.val) 0
  | .pop d => slotOf .pop (packFields 0 0 d) 0
  | .add d o => encodeAlu .add d o
  | .sub d o => encodeAlu .sub d o
  | .mul d o => encodeAlu .mul d o
  | .div d o => encodeAlu .div d o
  | .and d o => encodeAlu .and d o
  | .orr d o => encodeAlu .orr d o
  | .xor d o => encodeAlu .xor d o
  | .shl d o => encodeAlu .shl d o
  | .shr d o => encodeAlu .shr d o
  | .cmp a b => slotOf .cmp (packFields 0 a b) 0
  | .jmp c t => slotOf .jmp (packFields 0 0 c.code) t
  | .cal c t => slotOf .cal (packFields 0 0 c.code) t
  | .ret => slotOf .ret 0 0
  | .int n => slotOf .int n 0

/-! ## The ignored bits -/

/-- The bits of `b1`, `b2`, `b3` that the format of `w` gives a meaning (R72 to R81); every other bit is ignored (R87).
In formats M and A the meaning of `b1[2:0]`, `b2` and `b3` depends on the mode, in format P on the literal test. -/
def usedBits (op : Opcode) (w : Slot) : Byte × Byte × Byte :=
  match op with
  | .lod | .sto =>
    match (modeField w.b1).toNat with
    | 0 => (0xFF, 0x00, 0x00)
    | 1 => (0xFF, 0x07, 0x00)
    | 2 => (0xFF, 0xFF, 0xFF)
    | _ => (0xF8, 0xFF, 0xFF)
  | .ldi => (0x38, 0xFF, 0xFF)
  | .psh => if w.b1 = pshLit then (0xFF, 0xFF, 0xFF) else (0x0F, 0x00, 0x00)
  | .pop => (0x07, 0x00, 0x00)
  | .add | .sub | .mul | .div | .and | .orr | .xor | .shl | .shr =>
    match (modeField w.b1).toNat with
    | 0 => (0xFF, 0x00, 0x00)
    | _ => (0xF8, 0xFF, 0xFF)
  | .cmp => (0x3F, 0x00, 0x00)
  | .jmp | .cal => (0x07, 0xFF, 0xFF)
  | .ret => (0x00, 0x00, 0x00)
  | .int => (0xFF, 0x00, 0x00)

/-- The slot with all its ignored bits cleared (R91). -/
def Slot.cleared (w : Slot) : Slot :=
  match Opcode.ofByte w.b0 with
  | none => w
  | some op =>
    { b0 := w.b0, b1 := w.b1 &&& (usedBits op w).1, b2 := w.b2 &&& (usedBits op w).2.1
      b3 := w.b3 &&& (usedBits op w).2.2 }

/-! ## The opcode table's words -/

/-- The slot of a word of spec/opcode_table.json: the table numbers the 32-bit word `b0 ++ b1 ++ b2 ++ b3` (R71), `b0`
in bits 31 to 24; bits at or above `nbits` are zero. -/
def tableSlot (nbits w : Nat) : Slot := Slot.ofWord (BitVec.ofNat 32 (w % 2 ^ nbits))

/-- The instruction the decoder reads from a word of the opcode table. -/
def decodeTableWord (nbits w : Nat) : Option Instr :=
  match decode (tableSlot nbits w) with
  | .ok i => some i
  | .error _ => none

end Sys2Proof
end

