-- ==== Sys2Proof/Machine/Fetch.lean ====
section
/-! DEFINITION. Fetching (spec/10_state.md R16; spec/70_reset_and_hazards.md R236): the tests on `pc`, the four bytes of
the slot, the decode faults as raised faults, the device's action point after a step, and a word stored where the next
fetch finds it. -/

namespace Sys2Proof.Machine

/-- What a step of a running core does with `pc` (R16, R236). -/
inductive FetchResult where
  /-- `pc = PROG_END`: the run ends normally (R238) -/
  | atEnd
  /-- `pc` is past the end or misaligned (R205, R206) -/
  | bad (r : Raised)
  /-- the slot at `pc` -/
  | slot (w : Slot)
deriving DecidableEq, Repr

/-- The four bytes at `pc` (R70, R236); fetch reads memory directly, so it sees every earlier store (R60). -/
def fetchSlot (s : State) : Slot :=
  { b0 := s.byteAt s.pc.toNat, b1 := s.byteAt (s.pc.toNat + 1)
    b2 := s.byteAt (s.pc.toNat + 2), b3 := s.byteAt (s.pc.toNat + 3) }

/-- The tests of R236 in their order, then the four bytes. -/
def fetch (s : State) : FetchResult :=
  if s.pc.toNat = s.cfg.progEnd then .atEnd
  else if s.cfg.progEnd < s.pc.toNat then .bad ⟨.fetchOutOfProgram, s.pc.toNat⟩
  else if s.pc.toNat % 4 ≠ 0 then .bad ⟨.fetchMisaligned, s.pc.toNat⟩
  else .slot (fetchSlot s)

/-- A decode fault as the machine raises it (R203, R207 to R209). -/
def decodeRaised : DecodeFault → Raised
  | .illegalOpcode b0 => ⟨.illegalOpcode, b0.toNat⟩
  | .reservedMode b1 => ⟨.reservedMode, b1.toNat⟩
  | .illegalRegister b1 => ⟨.illegalRegister, b1.toNat⟩

/-- The normal end without an exit code (R238). -/
def runOff (s : State) : Host.Outcome State Fault Refusal := .next { s with status := .halted none }

/-- The device collaborator acts between a step and the next one (R58); after the last step of a run there is no next
one. -/
def betweenSteps (r : Host.Outcome State Fault Refusal) : Host.Outcome State Fault Refusal :=
  match r with
  | .next t => .next (if t.status = .running then t.deviceAct else t)
  | .fault f => .fault f
  | .refused f => .refused f

/-- A step of this state fetches a slot (R16, R25). -/
def State.fetches (s : State) : Bool :=
  decide (s.status = .running ∧ s.pc.toNat < s.cfg.progEnd ∧ s.pc.toNat % 4 = 0)

/-- The state whose next fetch is possible: this one if its own is, else with `pc` at the start of the program and the
status running. -/
def State.readyToFetch (s : State) : State :=
  if s.fetches then s else { s with pc := 0, status := .running }

end Sys2Proof.Machine
end

