-- ==== Sys2Proof/Machine/Step.lean ====
section
/-! DEFINITION. One step of the core (spec/70_reset_and_hazards.md R236). -/

namespace Sys2Proof.Machine

/-- The step of a running core, before the device's action point (R236). -/
def runningStep (s : State) : Host.Outcome State Fault Refusal :=
  match fetch s with
  | .atEnd => runOff s
  | .bad r => raiseFault r s
  | .slot w =>
    match decode w with
    | .error f => raiseFault (decodeRaised f) s
    | .ok i => exec i s

/-- One step (R236), taken only while the status is `Running` (R25), and the device collaborator's action before the
next one (R58). A run that has ended has no next step. -/
def step (s : State) : Host.Outcome State Fault Refusal :=
  match s.status with
  | .running => betweenSteps (runningStep s)
  | .halted code => .fault (.runHalted code)
  | .faulted r => .fault (.runFaulted r)

/-- `s` with the instruction of an opcode-table word stored where the next step fetches. Where `s` would fetch nothing
(its run has ended, or `pc` is no slot of the program region), the fetch is moved to address 0. -/
def State.withFetchWord (s : State) (nbits w : Nat) : State :=
  s.readyToFetch.putBytes s.readyToFetch.pc.toNat (tableSlot nbits w).bytes

end Sys2Proof.Machine
end

