-- ==== Sys2Proof/Machine/Assembler.lean ====
section
/-! DEFINITION. The encoder block (spec/45_assembler.md R160 to R192): from source text to an image or an error. It
shares with the core only the encoding tables and the image it produces (spec/00_scope.md R6). -/

namespace Sys2Proof.Asm

/-- A token of the source text (R164); label names and file names are tokens too. -/
abbrev Token := List Char

/-- The error codes of R191. The detail carried with a code is not specified there and is left out, but for the label
that R186 has the error name. -/
inductive AsmError where
  | malformedToken
  | unknownRegister
  | prematureEnd
  | duplicateLabel
  | unterminatedLabel
  | programTooLarge
  | badLiteral
  | addressRange
  /-- a label that is referenced and never defined (R186) -/
  | undefinedLabel (name : Token)
  | includeFailed
  | includeDepth
deriving DecidableEq, Repr

/-- An entry of the label table (R181). A reference site is the offset of the high byte of an address field. -/
inductive LabelEntry where
  | resolved (addr : Half)
  | unresolved (sites : List Nat)
deriving DecidableEq, Repr

/-- The state of one assembly (R160). The running offset is the length of the buffer; the input position and the stack
of including files are the token list and the nesting of calls below. -/
structure AsmState where
  buf : List Byte
  labels : List (Token × LabelEntry)
deriving DecidableEq, Repr

/-- The empty buffer and the empty label table (R160). -/
def AsmState.init : AsmState := { buf := [], labels := [] }

/-- The running output offset (R160). -/
def AsmState.off (st : AsmState) : Nat := st.buf.length

/-! ## Lexical rules -/

/-- Space, tab, line feed, carriage return (R162). -/
def isWhite (c : Char) : Bool := c == ' ' || c == '\t' || c == '\n' || c == '\r'

/-- The token collected so far, given backwards, if there is one. -/
def flushToken (cur : Token) : List Token := if cur.isEmpty then [] else [cur.reverse]

/-- The tokens of a text (R162 to R164), given whether a comment is being skipped and the token being collected. -/
def tokensFrom : Bool → Token → List Char → List Token
  | _, cur, [] => flushToken cur
  | true, cur, c :: cs => tokensFrom (c != '\n') cur cs
  | false, cur, c :: cs =>
    if isWhite c then flushToken cur ++ tokensFrom false [] cs
    else if c == ';' then flushToken cur ++ tokensFrom true [] cs
    else if c == '+' && cur.isEmpty then ['+'] :: tokensFrom false [] cs
    else tokensFrom false (c :: cur) cs

/-- The tokens of a source text (R164). -/
def tokenize (text : List Char) : List Token := tokensFrom false [] text

/-- `A`-`Z`, `a`-`z` or `_` (R165). -/
def isNameStart (c : Char) : Bool :=
  (65 ≤ c.toNat && c.toNat ≤ 90) || (97 ≤ c.toNat && c.toNat ≤ 122) || c == '_'

/-- `0`-`9`. -/
def isDigit (c : Char) : Bool := 48 ≤ c.toNat && c.toNat ≤ 57

/-- The shape of an identifier (R165), apart from its length bound. -/
def identifierShape : Token → Bool
  | [] => false
  | c :: cs => isNameStart c && cs.all (fun d => isNameStart d || isDigit d)

/-- An identifier (R165). -/
def isIdentifier (cfg : AsmConfig) (t : Token) : Bool := identifierShape t && t.length ≤ cfg.maxLabelLen

/-- The value of a digit character in bases up to 16 (R166). -/
def digitValue (c : Char) : Option Nat :=
  if 48 ≤ c.toNat && c.toNat ≤ 57 then some (c.toNat - 48)
  else if 65 ≤ c.toNat && c.toNat ≤ 70 then some (c.toNat - 55)
  else if 97 ≤ c.toNat && c.toNat ≤ 102 then some (c.toNat - 87)
  else none

/-- The number a list of digits stands for, continuing from `acc`; a character that is no digit of the base has none. -/
def digitsValue (base : Nat) : Nat → List Char → Option Nat
  | acc, [] => some acc
  | acc, c :: cs =>
    match digitValue c with
    | some v => if v < base then digitsValue base (acc * base + v) cs else none
    | none => none

/-- Digits of a base, at least one, with a value of at most `limit` (R166). -/
def boundedDigits (base limit : Nat) (cs : List Char) : Except AsmError Nat :=
  if cs.isEmpty then .error .badLiteral
  else
    match digitsValue base 0 cs with
    | some v => if v ≤ limit then .ok v else .error .badLiteral
    | none => .error .badLiteral

/-- A numeric literal (R166): `$` hexadecimal, `%` binary, else decimal. -/
def numericLiteral (limit : Nat) : List Char → Except AsmError Nat
  | '$' :: cs => boundedDigits 16 limit cs
  | '%' :: cs => boundedDigits 2 limit cs
  | cs => boundedDigits 10 limit cs

/-- The token starts with the marker. -/
def hasMarker (marker : Char) (t : Token) : Bool := t.head? == some marker

/-- A marker followed immediately by a numeric literal (R173 to R180). -/
def markedLiteral (marker : Char) (limit : Nat) (t : Token) : Except AsmError Nat :=
  match t with
  | [] => .error .malformedToken
  | c :: cs => if c == marker && !cs.isEmpty then numericLiteral limit cs else .error .malformedToken

/-- A marked literal for a 16-bit field. -/
def halfLiteral (marker : Char) (t : Token) : Except AsmError Half := do
  let v ← markedLiteral marker 65535 t
  .ok (BitVec.ofNat 16 v)

/-- The general register names (R167). -/
def gprNames : List (Token × Gpr) :=
  [("R0".toList, 0), ("R1".toList, 1), ("R2".toList, 2), ("R3".toList, 3),
   ("R4".toList, 4), ("R5".toList, 5), ("R6".toList, 6), ("R7".toList, 7)]

/-- A general register by its whole-token name (R167). -/
def gprOf (t : Token) : Option Gpr := gprNames.lookup t

/-- The auxiliary names that `PSH` accepts (R167, R178): not `PC`. -/
def auxNames : List (Token × FileReg) := [("SP".toList, .sp), ("FP".toList, .fp), ("SR".toList, .sr)]

/-- A register that the operand of `PSH` may name (R178). -/
def pushRegOf (t : Token) : Option FileReg :=
  match gprOf t with
  | some i => some (.gpr i)
  | none => auxNames.lookup t

/-- The metric names (R168). -/
def metricNames : List (Token × Metric) :=
  [("AL".toList, .al), ("EQ".toList, .eq), ("NE".toList, .ne), ("LT".toList, .lt),
   ("GT".toList, .gt), ("LE".toList, .le), ("GE".toList, .ge)]

/-- A metric by its whole-token name (R168). -/
def metricOf (t : Token) : Option Metric := metricNames.lookup t

/-- The fixed table of mnemonics (R169). -/
def mnemonicNames : List (Token × Opcode) :=
  [("LOD".toList, .lod), ("LDI".toList, .ldi), ("STO".toList, .sto), ("PSH".toList, .psh), ("POP".toList, .pop),
   ("ADD".toList, .add), ("SUB".toList, .sub), ("MUL".toList, .mul), ("DIV".toList, .div), ("AND".toList, .and),
   ("ORR".toList, .orr), ("XOR".toList, .xor), ("SHL".toList, .shl), ("SHR".toList, .shr), ("CMP".toList, .cmp),
   ("JMP".toList, .jmp), ("CAL".toList, .cal), ("RET".toList, .ret), ("INT".toList, .int)]

/-- A mnemonic, matched case-sensitively as a whole token (R169). -/
def mnemonicOf (t : Token) : Option Opcode := mnemonicNames.lookup t

/-! ## Instruction statements -/

/-- What an instruction statement assembles to: an instruction, or a jump or call whose target is a label (R179). -/
inductive AsmInstr where
  | plain (i : Instr)
  | jmpLabel (c : Metric) (name : Token)
  | calLabel (c : Metric) (name : Token)
deriving DecidableEq, Repr

/-- The next operand token; a missing one is `PrematureEnd` (R172). -/
def needToken : List Token → Except AsmError (Token × List Token)
  | [] => .error .prematureEnd
  | t :: ts => .ok (t, ts)

/-- The next operand, a general register (R167, R173 to R178). -/
def needGpr (ts : List Token) : Except AsmError (Gpr × List Token) := do
  let (t, ts') ← needToken ts
  match gprOf t with
  | some i => .ok (i, ts')
  | none => .error .unknownRegister

/-- The memory operand that starts at token `t` (R173): after a base register the next token is looked at, and taken
only if it is a general register or starts with `#`. -/
def memOperand (t : Token) (ts : List Token) : Except AsmError (MemOperand × List Token) :=
  if hasMarker '&' t then do
    let v ← halfLiteral '&' t
    .ok (.abs v, ts)
  else
    match gprOf t with
    | none => .error .unknownRegister
    | some b =>
      match ts with
      | [] => .ok (.reg b, [])
      | u :: us =>
        match gprOf u with
        | some o => .ok (.regReg b o, us)
        | none =>
          if hasMarker '#' u then do
            let v ← halfLiteral '#' u
            .ok (.regImm b v, us)
          else .ok (.reg b, u :: us)

/-- The operands of `LOD` (R173), with the alias `LOD Rd #imm` of `LDI` (R176). -/
def parseLod (ts : List Token) : Except AsmError (Instr × List Token) := do
  let (d, ts1) ← needGpr ts
  let (t, ts2) ← needToken ts1
  if hasMarker '#' t then do
    let v ← halfLiteral '#' t
    .ok (.ldi d v, ts2)
  else do
    let (m, ts3) ← memOperand t ts2
    .ok (.lod d m, ts3)

/-- The operands of `STO` (R173). -/
def parseSto (ts : List Token) : Except AsmError (Instr × List Token) := do
  let (r, ts1) ← needGpr ts
  let (t, ts2) ← needToken ts1
  let (m, ts3) ← memOperand t ts2
  .ok (.sto r m, ts3)

/-- The operands of `LDI` (R174). -/
def parseLdi (ts : List Token) : Except AsmError (Instr × List Token) := do
  let (d, ts1) ← needGpr ts
  let (t, ts2) ← needToken ts1
  let v ← halfLiteral '#' t
  .ok (.ldi d v, ts2)

/-- The operands of the format A instructions (R175). -/
def parseAlu (mk : Gpr → AluOperand → Instr) (ts : List Token) : Except AsmError (Instr × List Token) := do
  let (d, ts1) ← needGpr ts
  let (t, ts2) ← needToken ts1
  if hasMarker '#' t then do
    let v ← halfLiteral '#' t
    .ok (mk d (.imm v), ts2)
  else
    match gprOf t with
    | some r => .ok (mk d (.reg r), ts2)
    | none => .error .unknownRegister

/-- The operands of `CMP` (R177), left then right. -/
def parseCmp (ts : List Token) : Except AsmError (Instr × List Token) := do
  let (a, ts1) ← needGpr ts
  let (b, ts2) ← needGpr ts1
  .ok (.cmp a b, ts2)

/-- The operand of `PSH` (R178). -/
def parsePsh (ts : List Token) : Except AsmError (Instr × List Token) := do
  let (t, ts1) ← needToken ts
  if hasMarker '#' t then do
    let v ← halfLiteral '#' t
    .ok (.pshLit v, ts1)
  else
    match pushRegOf t with
    | some k => .ok (.pshReg k, ts1)
    | none => .error .unknownRegister

/-- The operand of `POP` (R178). -/
def parsePop (ts : List Token) : Except AsmError (Instr × List Token) := do
  let (d, ts1) ← needGpr ts
  .ok (.pop d, ts1)

/-- The operand of `INT` (R180). -/
def parseInt (ts : List Token) : Except AsmError (Instr × List Token) := do
  let (t, ts1) ← needToken ts
  let v ← markedLiteral '#' 255 t
  .ok (.int (BitVec.ofNat 8 v), ts1)

/-- The operands of `JMP` and `CAL` (R179): a metric, then an address or a label. -/
def parseJump (cfg : AsmConfig) (plain : Metric → Half → Instr) (named : Metric → Token → AsmInstr)
    (ts : List Token) : Except AsmError (AsmInstr × List Token) := do
  let (t, ts1) ← needToken ts
  match metricOf t with
  | none => .error .malformedToken
  | some c => do
    let (u, ts2) ← needToken ts1
    if hasMarker '&' u then do
      let v ← halfLiteral '&' u
      .ok (.plain (plain c v), ts2)
    else if isIdentifier cfg u then .ok (named c u, ts2)
    else .error .malformedToken

/-- A parsed instruction that refers to no label. -/
def asPlain (r : Except AsmError (Instr × List Token)) : Except AsmError (AsmInstr × List Token) := do
  let (i, ts) ← r
  .ok (.plain i, ts)

/-- The operands a mnemonic's grammar requires (R172 to R180), and the tokens left. -/
def parseInstr (cfg : AsmConfig) (op : Opcode) (ts : List Token) : Except AsmError (AsmInstr × List Token) :=
  match op with
  | .lod => asPlain (parseLod ts)
  | .ldi => asPlain (parseLdi ts)
  | .sto => asPlain (parseSto ts)
  | .psh => asPlain (parsePsh ts)
  | .pop => asPlain (parsePop ts)
  | .add => asPlain (parseAlu .add ts)
  | .sub => asPlain (parseAlu .sub ts)
  | .mul => asPlain (parseAlu .mul ts)
  | .div => asPlain (parseAlu .div ts)
  | .and => asPlain (parseAlu .and ts)
  | .orr => asPlain (parseAlu .orr ts)
  | .xor => asPlain (parseAlu .xor ts)
  | .shl => asPlain (parseAlu .shl ts)
  | .shr => asPlain (parseAlu .shr ts)
  | .cmp => asPlain (parseCmp ts)
  | .jmp => parseJump cfg .jmp .jmpLabel ts
  | .cal => parseJump cfg .cal .calLabel ts
  | .ret => .ok (.plain .ret, ts)
  | .int => asPlain (parseInt ts)

/-! ## The label table -/

/-- The entry of a name (R160). -/
def AsmState.entry (st : AsmState) (name : Token) : Option LabelEntry := st.labels.lookup name

/-- Set the entry of a name. -/
def setEntry (name : Token) (e : LabelEntry) : List (Token × LabelEntry) → List (Token × LabelEntry)
  | [] => [(name, e)]
  | (n, f) :: ls => if n = name then (n, e) :: ls else (n, f) :: setEntry name e ls

/-- Write an address field, high byte first, at a site (R182). -/
def patchSite (a : Half) (buf : List Byte) (site : Nat) : List Byte :=
  (buf.set site (a.extractLsb' 8 8)).set (site + 1) (a.extractLsb' 0 8)

/-- Definition of a label at the running offset (R182): every pending site is patched once. -/
def defineLabel (name : Token) (st : AsmState) : Except AsmError AsmState :=
  if 0xFFFF < st.off then .error .addressRange
  else
    match st.entry name with
    | none => .ok { st with labels := setEntry name (.resolved (BitVec.ofNat 16 st.off)) st.labels }
    | some (.unresolved sites) =>
      .ok
        { buf := sites.foldl (patchSite (BitVec.ofNat 16 st.off)) st.buf
          labels := setEntry name (.resolved (BitVec.ofNat 16 st.off)) st.labels }
    | some (.resolved _) => .error .duplicateLabel

/-- The address field of a reference, and the label table after it (R183), for a jump or call emitted at the running
offset. -/
def referLabel (name : Token) (st : AsmState) : Half × List (Token × LabelEntry) :=
  match st.entry name with
  | some (.resolved a) => (a, st.labels)
  | some (.unresolved sites) => (0, setEntry name (.unresolved (sites ++ [st.off + 2])) st.labels)
  | none => (0, setEntry name (.unresolved [st.off + 2]) st.labels)

/-- Append the four bytes of one instruction (R172). -/
def emit (i : AsmInstr) (st : AsmState) : AsmState :=
  match i with
  | .plain i => { st with buf := st.buf ++ (encode i).bytes }
  | .jmpLabel c name =>
    { buf := st.buf ++ (encode (.jmp c (referLabel name st).1)).bytes, labels := (referLabel name st).2 }
  | .calLabel c name =>
    { buf := st.buf ++ (encode (.cal c (referLabel name st).1)).bytes, labels := (referLabel name st).2 }

/-- The name a label-definition token defines (R171): the tests in the rule's order. -/
def labelName (cfg : AsmConfig) (t : Token) : Except AsmError Token :=
  let name := t.takeWhile (fun c => c != ':')
  let rest := t.dropWhile (fun c => c != ':')
  if rest.isEmpty || cfg.maxLabelLen < name.length then .error .unterminatedLabel
  else if rest != [':'] || !identifierShape name then .error .malformedToken
  else if (mnemonicOf (name.take 3)).isSome then .error .malformedToken
  else .ok name

/-! ## The assembly loop -/

/-- One statement that starts at token `t` (R170): an inclusion, an instruction or a label definition. `inc` assembles
the text of an included file into the state. -/
def statement (cfg : AsmConfig) (inc : Token → AsmState → Except AsmError AsmState) (t : Token) (ts : List Token)
    (st : AsmState) : Except AsmError (AsmState × List Token) :=
  if t = ['+'] then do
    let (name, ts1) ← needToken ts
    if isIdentifier cfg name then do
      let st1 ← inc name st
      .ok (st1, ts1)
    else .error .malformedToken
  else
    match mnemonicOf t with
    | some op => do
      let (i, ts1) ← parseInstr cfg op ts
      .ok (emit i st, ts1)
    | none => do
      let name ← labelName cfg t
      let st1 ← defineLabel name st
      .ok (st1, ts)

/-- The loop of R170 over the tokens of one text. Every statement takes at least one token, so as many rounds as tokens
are enough, and the case with no round left is not reached. -/
def loop (cfg : AsmConfig) (inc : Token → AsmState → Except AsmError AsmState) :
    Nat → List Token → AsmState → Except AsmError AsmState
  | _, [], st => .ok st
  | 0, _ :: _, _ => .error .prematureEnd
  | n + 1, t :: ts, st => do
    let (st1, ts1) ← statement cfg inc t ts st
    loop cfg inc n ts1 st1

/-- Assemble a text to its end (R170, R188). -/
def assembleText (cfg : AsmConfig) (inc : Token → AsmState → Except AsmError AsmState) (text : List Char)
    (st : AsmState) : Except AsmError AsmState :=
  loop cfg inc (tokenize text).length (tokenize text) st

/-- The inclusion directive (R188) with a number of nesting levels left. `files` is the host's file reading: the text of
a file by its whole name. -/
def includeFile (cfg : AsmConfig) (files : List Char → Option (List Char)) :
    Nat → Token → AsmState → Except AsmError AsmState
  | 0, name, _ =>
    match files (name ++ cfg.srcExt) with
    | none => .error .includeFailed
    | some _ => .error .includeDepth
  | d + 1, name, st =>
    match files (name ++ cfg.srcExt) with
    | none => .error .includeFailed
    | some text => assembleText cfg (includeFile cfg files d) text st

/-- The entry is still waiting for its definition (R181). -/
def LabelEntry.pending : LabelEntry → Bool
  | .resolved _ => false
  | .unresolved _ => true

/-- The first label of the table that still waits for its definition. -/
def AsmState.firstPending (st : AsmState) : Option Token := (st.labels.find? fun l => l.2.pending).map Prod.fst

/-- The end of the input (R186, R190): every label defined, then the capacity of the program region. Of several
undefined labels the error names the first of the table. DESIGN CHOICE, unsafe: notes/assumptions/21.md. -/
def finishAssembly (progSize : Nat) (st : AsmState) : Except AsmError (List Byte) :=
  match st.firstPending with
  | some name => .error (.undefinedLabel name)
  | none => if progSize < st.buf.length then .error .programTooLarge else .ok st.buf

/-- The encoder block (R161): the image, or the first error and nothing else (R192). -/
def assemble (cfg : AsmConfig) (progSize : Nat) (files : List Char → Option (List Char)) (text : List Char) :
    Except AsmError (List Byte) := do
  let st ← assembleText cfg (includeFile cfg files cfg.maxIncludeDepth) text .init
  finishAssembly progSize st

end Sys2Proof.Asm
end

