-- ==== Sys2Proof/Machine/Boot.lean ====
section
/-! DEFINITION. Reset and boot by the host (spec/70_reset_and_hazards.md R230 to R235, R245): from the launch arguments
of a run to the state before its first step, or a load-time error. -/

namespace Sys2Proof.Machine

/-- A descriptor slot (spec/20_memory.md R42): a size field, then a type-tagged base field, four bytes each. The layout
inside a field is the host's (D35), so the bytes are opaque. -/
structure Descriptor where
  size : Vector Byte 4
  taggedBase : Vector Byte 4
deriving DecidableEq, Repr

/-- The eight bytes of a slot by ascending address (R42). -/
def Descriptor.bytes (d : Descriptor) : List Byte := d.size.toList ++ d.taggedBase.toList

/-- The address of descriptor slot `i` (R42). -/
def descriptorAddr (c : Config) (i : Nat) : Nat := c.ddtBase + 8 * i

/-- The bytes of the descriptor table in slot order. -/
def descriptorBytes (ds : List Descriptor) : List Byte := ds.flatMap Descriptor.bytes

/-- The launch arguments of a run (R31, R245). -/
structure Launch where
  cfg : Config
  /-- the raw byte stream loaded at address 0 (R231) -/
  image : List Byte
  /-- what the general registers hold (R32) -/
  x : Vector Word 8
  /-- what memory holds before the image and the descriptor table are written (R232) -/
  mem : Memory
  /-- the descriptor table, one slot per device index (R233) -/
  descriptors : List Descriptor
  /-- the device collaborator's input during the run (R58) -/
  deviceInputs : List (List Host.Cell)
deriving DecidableEq, Repr

/-- The launch premises of R245 on the arguments (the image's length is the loader's test). -/
abbrev Launch.Legal (l : Launch) : Prop :=
  l.cfg.Legal ∧ l.mem.wf ∧ (∀ c ∈ l.mem, c.1 < l.cfg.memSize) ∧ l.descriptors.length = l.cfg.devCount

/-- The load-time error (R214): it is no fault of the core; the run never starts. -/
inductive LoadError where
  | imageTooLarge
deriving DecidableEq, Repr

/-- The state before the first step (R230): the image, the descriptor table, then the reset values of R32. -/
def boot (l : Launch) : Except LoadError State :=
  if l.cfg.progSize < l.image.length then .error .imageTooLarge
  else
    .ok
      { cfg := l.cfg
        x := l.x
        sp := l.cfg.spReset
        fp := l.cfg.spReset
        pc := 0
        sr := 0
        mem := (l.mem.writeList 0 l.image).writeList l.cfg.ddtBase
          (descriptorBytes (l.descriptors.take l.cfg.devCount))
        status := .running
        out := []
        kbdRequests := 0
        deviceInputs := l.deviceInputs }

end Sys2Proof.Machine
end

