-- ==== Sys2Proof/Safety.lean ====
section
/-! DEFINITION. What claims about the vm_tbd core are stated in: the end of a run (spec/70_reset_and_hazards.md R237),
the addresses a push or a pop touches and the fault it meets first (spec/20_memory.md R47, R48;
spec/60_exceptions.md R203), what an arithmetic instruction leaves, and the invariants of a step and of the encoder
block. -/

namespace Sys2Proof.Machine

/-! ## Runs -/

/-- A run ended successfully only with `Halted` (R237). -/
def State.endedWell (s : State) : Bool :=
  match s.status with
  | .halted _ => true
  | _ => false

/-- The run has faulted (R200). -/
def State.hasFaulted (s : State) : Bool :=
  match s.status with
  | .faulted _ => true
  | _ => false

/-- The states a run passes through from a state. -/
inductive Reachable (s : State) : State → Prop where
  | start : Reachable s s
  | next {t u : State} : Reachable s t → step t = .next u → Reachable s u

/-- A state from which no fault is reached. -/
def SafeFrom (s : State) : Prop := ∀ t, Reachable s t → t.hasFaulted = false

/-! ## Invariants -/

/-- The memory list is canonical and lists only addresses that exist (R40). -/
abbrev State.memOk (s : State) : Prop := s.mem.wf ∧ ∀ c ∈ s.mem, c.1 < s.cfg.memSize

/-- The values `SR` takes in a run from reset (spec/10_state.md R24). -/
abbrev State.srLegal (s : State) : Prop := s.sr = 0 ∨ s.sr = 1 ∨ s.sr = 2

/-! ## The addresses of the stack primitives -/

/-- The address of byte `i` of the bytes pushed from `sp` downward, byte 0 first (R47), modulo `2^32`. -/
def pushAddr (sp : Word) (i : Nat) : Nat := (sp - BitVec.ofNat 32 i).toNat

/-- The address of byte `i` of the bytes popped from above `sp`, byte 0 first (R48), modulo `2^32`. -/
def popAddr (sp : Word) (i : Nat) : Nat := (sp + BitVec.ofNat 32 (i + 1)).toNat

/-- The address exists and lies outside the descriptor table: a one-byte write there succeeds (R45). -/
abbrev State.writable (s : State) (a : Nat) : Prop := a < s.cfg.memSize ∧ ¬s.inDdt a

/-- `n` bytes can be pushed. -/
abbrev State.canPush (s : State) (n : Nat) : Prop := ∀ i < n, s.writable (pushAddr s.sp i)

/-- `n` bytes can be popped from above the stack position `sp`. -/
abbrev State.canPopFrom (s : State) (sp : Word) (n : Nat) : Prop := ∀ i < n, popAddr sp i < s.cfg.memSize

/-- What a one-byte write to an address raises (R45). -/
def writeFault (s : State) (a : Nat) : Option Raised :=
  if s.cfg.memSize ≤ a then some ⟨.outOfBounds, a⟩
  else if s.inDdt a then some ⟨.descriptorWrite, a⟩
  else none

/-- What a one-byte read of an address raises (R44). -/
def readFault (s : State) (a : Nat) : Option Raised :=
  if s.cfg.memSize ≤ a then some ⟨.outOfBounds, a⟩ else none

/-- The fault of the first byte that cannot be pushed, in the order R47 touches them. -/
def firstPushFault (s : State) (n : Nat) : Option Raised :=
  (List.range n).findSome? fun i => writeFault s (pushAddr s.sp i)

/-- The fault of the first byte that cannot be popped from above `sp`, in the order R48 touches them. -/
def firstPopFault (s : State) (sp : Word) (n : Nat) : Option Raised :=
  (List.range n).findSome? fun i => readFault s (popAddr sp i)

/-- The word popped from above the stack position `sp` (R48). -/
def popWord (s : State) (sp : Word) : Word :=
  s.byteAt (popAddr sp 3) ++ s.byteAt (popAddr sp 2) ++ s.byteAt (popAddr sp 1) ++ s.byteAt (popAddr sp 0)

/-- `mem` reads as the memory of `s` with these bytes pushed from `sp` downward, byte 0 first: those addresses hold the
bytes and every other address is unchanged. -/
def HoldsPushed (s : State) (bs : List Byte) (mem : Memory) : Prop :=
  (∀ i, (h : i < bs.length) → mem.read (pushAddr s.sp i) = bs[i]) ∧
  ∀ a, (∀ i < bs.length, a ≠ pushAddr s.sp i) → mem.read a = s.byteAt a

/-- The bytes of a word in the order a push writes them: high byte first (R47). -/
def pushOrder (v : Word) : List Byte := [byteOf v 3, byteOf v 2, byteOf v 1, byteOf v 0]

/-! ## What an instruction leaves -/

/-- The state after the fault `r` of the instruction at `s.pc` (R200, R202): only the run status differs. -/
def State.afterFault (s : State) (r : Raised) : State := { s with status := .faulted ⟨r.cause, s.pc, r.info⟩ }

/-- What a format A instruction with result `r` leaves (R110, R111): `Rd`, the two flags and `pc`; everything else,
the other 30 bits of `SR` included, is unchanged. -/
def AluLeaves (s t : State) (d : Gpr) (r : Word) : Prop :=
  t = { s with x := s.x.set d r, sr := t.sr, pc := s.pc + 4 } ∧
  (t.sr.getLsbD 0 = true ↔ r = 0) ∧
  (t.sr.getLsbD 1 = true ↔ 0 < r.toInt) ∧
  ∀ k, 2 ≤ k → t.sr.getLsbD k = s.sr.getLsbD k

/-- `PSH` of the value `v` (R131): with room, the four bytes lie below `sp`, `sp` is 4 lower and `pc` is advanced;
else the first byte that cannot be written decides the fault. -/
def PushesWord (i : Instr) (s : State) (v : Word) : Prop :=
  (s.canPush 4 → ∃ mem, exec i s = .next { s with mem := mem, sp := s.sp - 4, pc := s.pc + 4 } ∧
    HoldsPushed s (pushOrder v) mem) ∧
  ∀ e, firstPushFault s 4 = some e → exec i s = .next (s.afterFault e)

/-- The four bytes a running core fetches at `pc` (R236). -/
def slotAtPc (s : State) : Slot :=
  { b0 := s.byteAt s.pc.toNat, b1 := s.byteAt (s.pc.toNat + 1)
    b2 := s.byteAt (s.pc.toNat + 2), b3 := s.byteAt (s.pc.toNat + 3) }

/-- `pc` names a slot of the program region (R16). -/
abbrev State.pcLegal (s : State) : Prop := s.pc.toNat < s.cfg.progEnd ∧ s.pc.toNat % 4 = 0

end Sys2Proof.Machine

namespace Sys2Proof.Asm

/-- The invariant of the label table (spec/45_assembler.md R160, R184): the output is a whole number of slots, no name
has two entries, every pending reference site is the address field of a slot already in the buffer, and no site waits
for two names. -/
def AsmState.Ok (st : AsmState) : Prop :=
  st.buf.length % 4 = 0 ∧ (st.labels.map Prod.fst).Nodup ∧
  (∀ name sites, st.entry name = some (.unresolved sites) →
    sites ≠ [] ∧ ∀ k ∈ sites, k % 4 = 2 ∧ k + 1 < st.buf.length) ∧
  ∀ name other sites others k, st.entry name = some (.unresolved sites) → st.entry other = some (.unresolved others) →
    k ∈ sites → k ∈ others → name = other

/-- Byte `k` of the buffer is no byte of a pending reference site. -/
def AsmState.Settled (st : AsmState) (k : Nat) : Prop :=
  ∀ name sites, st.entry name = some (.unresolved sites) → k ∉ sites ∧ ∀ m ∈ sites, k ≠ m + 1

/-- Slot `k` of an image. -/
def slotAt (image : List Byte) (k : Nat) : Slot :=
  { b0 := image.getD (4 * k) 0, b1 := image.getD (4 * k + 1) 0
    b2 := image.getD (4 * k + 2) 0, b3 := image.getD (4 * k + 3) 0 }

end Sys2Proof.Asm
end

