-- ==== Sys2Proof/Certificates/Slice0/Obligations.lean ====
section
/-! DEFINITION. The statements for the provers. Each docstring names the rule or the section of spec/ it formalises. -/

open Sys2Proof Sys2Proof.Machine Sys2Proof.Asm

/-! ## Encoding -/

/-- spec/30_encoding.md R91, whole: both laws of `Encode` and `Decode`, zero in every ignored bit, and `b1` of the two
forms of `PSH`. -/
def Obligations.EncodeDecodeLaws : Prop :=
  (∀ i : Instr, i.wellFormed = true → decode (encode i) = .ok i) ∧
  (∀ (w : Slot) (i : Instr), decode w = .ok i → encode i = w.cleared) ∧
  (∀ i : Instr, (encode i).cleared = encode i) ∧
  (∀ v : Half, (encode (.pshLit v)).b1 = 0x80) ∧
  ∀ k : FileReg, (encode (.pshReg k)).b1.toNat = k.index.val

/-- R86, whole: exactly these slots do not decode, with the byte each fault reports. -/
def Obligations.SlotsThatDoNotDecode : Prop :=
  ∀ (w : Slot) (f : DecodeFault), decode w = .error f ↔
    (f = .illegalOpcode w.b0 ∧ (w.b0 = 0 ∨ 0x14 ≤ w.b0.toNat)) ∨
    (f = .reservedMode w.b1 ∧ 0x06 ≤ w.b0.toNat ∧ w.b0.toNat ≤ 0x0E ∧ 2 ≤ w.b1.toNat / 64) ∨
    (f = .reservedMode w.b1 ∧ (w.b0 = 0x10 ∨ w.b0 = 0x11) ∧ w.b1.toNat % 8 = 7) ∨
    (f = .illegalRegister w.b1 ∧ w.b0 = 0x04 ∧ w.b1 ≠ 0x80 ∧ (w.b1.toNat % 16 = 10 ∨ 12 ≤ w.b1.toNat % 16))

/-- R87: slots that differ only in ignored bits decode to the same instruction, and the encoder emits 0 there. -/
def Obligations.IgnoredBitsChangeNothing : Prop :=
  (∀ (w v : Slot) (i : Instr), w.cleared = v.cleared → decode w = .ok i → decode v = .ok i) ∧
  ∀ i : Instr, (encode i).cleared = encode i

/-- R77: the literal test of `PSH` is an equality on the whole byte; otherwise `b1[3:0]` is the file index, and
`b1[7:4]`, `b2`, `b3` are ignored. -/
def Obligations.PushTestsTheWholeByte : Prop :=
  ∀ w : Slot, w.b0 = 0x04 →
    (w.b1 = 0x80 → ∃ v : Half, decode w = .ok (.pshLit v) ∧ v.toNat = w.b2.toNat * 256 + w.b3.toNat) ∧
    (w.b1 ≠ 0x80 →
      (∀ k : Gpr, k.val = w.b1.toNat % 16 → decode w = .ok (.pshReg (.gpr k))) ∧
      (w.b1.toNat % 16 = 8 → decode w = .ok (.pshReg .sp)) ∧
      (w.b1.toNat % 16 = 9 → decode w = .ok (.pshReg .fp)) ∧
      (w.b1.toNat % 16 = 11 → decode w = .ok (.pshReg .sr)) ∧
      (w.b1.toNat % 16 = 10 ∨ 12 ≤ w.b1.toNat % 16 → decode w = .error (.illegalRegister w.b1)))

/-- R92 (an inference the spec marks as its own, from R73 to R85), its example encodings; that the bytes decode back is
the second half of R91. -/
def Obligations.EncodingExamples : Prop :=
  ∀ p ∈ [(Instr.ldi 0 5, Slot.mk 0x02 0x00 0x00 0x05), (.lod 3 (.regImm 2 9), ⟨0x01, 0x9A, 0x00, 0x09⟩),
      (.sto 1 (.abs 0x2000), ⟨0x03, 0xC8, 0x20, 0x00⟩), (.add 0 (.reg 1), ⟨0x06, 0x01, 0x00, 0x00⟩),
      (.sub 1 (.imm 1), ⟨0x07, 0x48, 0x00, 0x01⟩), (.cmp 2 3, ⟨0x0F, 0x13, 0x00, 0x00⟩),
      (.pshLit 7, ⟨0x04, 0x80, 0x00, 0x07⟩), (.pshReg .fp, ⟨0x04, 0x09, 0x00, 0x00⟩),
      (.pop 2, ⟨0x05, 0x02, 0x00, 0x00⟩), (.jmp .gt 8, ⟨0x10, 0x04, 0x00, 0x08⟩),
      (.cal .al 0x14, ⟨0x11, 0x00, 0x00, 0x14⟩), (.ret, ⟨0x12, 0x00, 0x00, 0x00⟩),
      (.int 2, ⟨0x13, 0x02, 0x00, 0x00⟩)],
    encode p.1 = p.2 ∧ decode p.2 = .ok p.1

/-- R73 and R53: the fields of `LOD` and `STO` by their bit positions, and the effective address of each mode, modulo
`2^32`. -/
def Obligations.MemoryOperandForms : Prop :=
  ∀ (mk : Gpr → MemOperand → Instr) (op : Byte), (op = 0x01 ∧ mk = Instr.lod) ∨ (op = 0x03 ∧ mk = Instr.sto) →
    ∀ (w : Slot) (s : State) (d b o : Gpr) (imm : Nat), w.b0 = op →
      d.val = w.b1.toNat / 8 % 8 → b.val = w.b1.toNat % 8 → o.val = w.b2.toNat % 8 →
      imm = w.b2.toNat * 256 + w.b3.toNat →
      ∃ m : MemOperand, decode w = .ok (mk d m) ∧
        (w.b1.toNat / 64 = 0 → effAddr s m = s.getX b) ∧
        (w.b1.toNat / 64 = 1 → (effAddr s m).toNat = ((s.getX b).toNat + (s.getX o).toNat) % 2 ^ 32) ∧
        (w.b1.toNat / 64 = 2 → (effAddr s m).toNat = ((s.getX b).toNat + imm) % 2 ^ 32) ∧
        (w.b1.toNat / 64 = 3 → (effAddr s m).toNat = imm)

/-- R75: the fields of the nine format A instructions by their bit positions and the second operand of each mode. -/
def Obligations.AluOperandForms : Prop :=
  ∀ p ∈ ([(0x06, Instr.add), (0x07, Instr.sub), (0x08, Instr.mul), (0x09, Instr.div), (0x0A, Instr.and),
      (0x0B, Instr.orr), (0x0C, Instr.xor), (0x0D, Instr.shl), (0x0E, Instr.shr)] :
      List (Byte × (Gpr → AluOperand → Instr))),
    ∀ (w : Slot) (s : State) (d r : Gpr), w.b0 = p.1 → d.val = w.b1.toNat / 8 % 8 → r.val = w.b1.toNat % 8 →
      (w.b1.toNat / 64 = 0 → ∃ o, decode w = .ok (p.2 d o) ∧ aluOperand s o = s.getX r) ∧
      (w.b1.toNat / 64 = 1 → ∃ o, decode w = .ok (p.2 d o) ∧
        (aluOperand s o).toNat = w.b2.toNat * 256 + w.b3.toNat) ∧
      (2 ≤ w.b1.toNat / 64 → decode w = .error (.reservedMode w.b1))

/-- R74, R76, R78, R79, R80, R81 and the opcode bytes of R85: the fields of the formats `L`, `C`, `Q`, `J`, `R` and `I`
by their bit positions, with every other bit ignored. `J` with metric code 7 is `Obligations.MetricRule`'s. -/
def Obligations.OtherFormatsByBitPosition : Prop :=
  ∀ (w : Slot) (d b : Gpr) (v : Half), v.toNat = w.b2.toNat * 256 + w.b3.toNat →
    (w.b0 = 0x02 → d.val = w.b1.toNat / 8 % 8 → decode w = .ok (.ldi d v)) ∧
    (w.b0 = 0x0F → d.val = w.b1.toNat / 8 % 8 → b.val = w.b1.toNat % 8 → decode w = .ok (.cmp d b)) ∧
    (w.b0 = 0x05 → d.val = w.b1.toNat % 8 → decode w = .ok (.pop d)) ∧
    (w.b0 = 0x12 → decode w = .ok .ret) ∧
    (w.b0 = 0x13 → decode w = .ok (.int w.b1)) ∧
    ∀ p ∈ [(0, Metric.al), (1, Metric.eq), (2, Metric.ne), (3, Metric.lt), (4, Metric.gt), (5, Metric.le), (6, Metric.ge)],
      w.b1.toNat % 8 = p.1 →
        (w.b0 = 0x10 → decode w = .ok (.jmp p.2 v)) ∧ (w.b0 = 0x11 → decode w = .ok (.cal p.2 v))

/-! ## The access and stack primitives -/

/-- spec/20_memory.md R44, whole. A read changes no state (its answer is only the value); the bound is in natural
numbers, and the fault reports the first address at or above `MEM_SIZE`. -/
def Obligations.MemReadByWidth : Prop :=
  ∀ (s : State) (addr : Word),
    (addr.toNat + 1 ≤ s.cfg.memSize → memRead1 s addr = .ok (s.byteAt addr.toNat)) ∧
    (s.cfg.memSize < addr.toNat + 1 → memRead1 s addr = .error ⟨.outOfBounds, addr.toNat⟩) ∧
    (addr.toNat + 4 ≤ s.cfg.memSize → ∃ v, memRead4 s addr = .ok v ∧
      ∀ i < 4, v.extractLsb' (8 * i) 8 = s.byteAt (addr.toNat + i)) ∧
    (s.cfg.memSize < addr.toNat + 4 → ∃ a, memRead4 s addr = .error ⟨.outOfBounds, a⟩ ∧
      addr.toNat ≤ a ∧ a < addr.toNat + 4 ∧ s.cfg.memSize ≤ a ∧
      ∀ b, addr.toNat ≤ b → b < a → b < s.cfg.memSize)

/-- R45, whole: the bytes by ascending address, `OutOfBounds` before `DescriptorWrite`, the first offending address,
and no byte written unless both tests pass. -/
def Obligations.MemWriteByWidth : Prop :=
  ∀ (s : State) (addr v : Word) (n : Nat) (write : Except Raised State),
    (n = 1 ∧ write = memWrite1 s addr (v.extractLsb' 0 8)) ∨ (n = 4 ∧ write = memWrite4 s addr v) →
    (s.cfg.memSize < addr.toNat + n → ∃ a, write = .error ⟨.outOfBounds, a⟩ ∧
      addr.toNat ≤ a ∧ a < addr.toNat + n ∧ s.cfg.memSize ≤ a ∧
      ∀ b, addr.toNat ≤ b → b < a → b < s.cfg.memSize) ∧
    (addr.toNat + n ≤ s.cfg.memSize → ∀ d, addr.toNat ≤ d → d < addr.toNat + n → s.inDdt d →
      (∀ e, addr.toNat ≤ e → e < d → ¬s.inDdt e) → write = .error ⟨.descriptorWrite, d⟩) ∧
    (addr.toNat + n ≤ s.cfg.memSize → (∀ d, addr.toNat ≤ d → d < addr.toNat + n → ¬s.inDdt d) →
      ∃ mem, write = .ok { s with mem := mem } ∧
        (∀ i < n, mem.read (addr.toNat + i) = v.extractLsb' (8 * i) 8) ∧
        ∀ a, a < addr.toNat ∨ addr.toNat + n ≤ a → mem.read a = s.byteAt a)

/-- R47: the four bytes by descending address, high byte first, and the first byte that cannot be written decides the
fault. -/
def Obligations.PushWritesDownward : Prop :=
  ∀ (s : State) (v : Word),
    (s.canPush 4 → ∃ mem, push32 s v = .ok { s with mem := mem, sp := s.sp - 4 } ∧
      (∀ i < 4, mem.read (pushAddr s.sp i) = v.extractLsb' (24 - 8 * i) 8) ∧
      ∀ a, (∀ i < 4, a ≠ pushAddr s.sp i) → mem.read a = s.byteAt a) ∧
    (∀ i < 4, (∀ j < i, s.writable (pushAddr s.sp j)) →
      (s.cfg.memSize ≤ pushAddr s.sp i → push32 s v = .error ⟨.outOfBounds, pushAddr s.sp i⟩) ∧
      (pushAddr s.sp i < s.cfg.memSize → s.inDdt (pushAddr s.sp i) →
        push32 s v = .error ⟨.descriptorWrite, pushAddr s.sp i⟩))

/-- R48: the four bytes by ascending address, low byte first, with no empty-stack check. -/
def Obligations.PopReadsUpward : Prop :=
  ∀ s : State,
    (s.canPopFrom s.sp 4 → ∃ v, pop32 s = .ok (v, { s with sp := s.sp + 4 }) ∧
      ∀ i < 4, v.extractLsb' (8 * i) 8 = s.byteAt (popAddr s.sp i)) ∧
    ∀ i < 4, (∀ j < i, popAddr s.sp j < s.cfg.memSize) → s.cfg.memSize ≤ popAddr s.sp i →
      pop32 s = .error ⟨.outOfBounds, popAddr s.sp i⟩

/-- R49: a pop after a push gives the value back and the stack pointer returns to its value before the push, whatever
address `sp` holds. -/
def Obligations.PopAfterPush : Prop :=
  ∀ (s t : State) (v : Word), push32 s v = .ok t → pop32 t = .ok (v, { t with sp := s.sp })

/-! ## Flags and metrics -/

/-- spec/10_state.md R20, whole. -/
def Obligations.SetFlagsRule : Prop :=
  ∀ (s : State) (r : Word),
    setFlags s r = { s with sr := (setFlags s r).sr } ∧
    ((setFlags s r).sr.getLsbD 0 = true ↔ r = 0) ∧
    ((setFlags s r).sr.getLsbD 1 = true ↔ 0 < r.toInt) ∧
    (0 < r.toInt ↔ r ≠ 0 ∧ r.getLsbD 31 = false) ∧
    (∀ k, 2 ≤ k → (setFlags s r).sr.getLsbD k = s.sr.getLsbD k) ∧
    ¬((setFlags s r).sr.getLsbD 0 = true ∧ (setFlags s r).sr.getLsbD 1 = true)

/-- R21, whole: a comparison of integers, with no subtraction. -/
def Obligations.SetFlagsCmpRule : Prop :=
  ∀ (s : State) (a b : Word),
    setFlagsCmp s a b = { s with sr := (setFlagsCmp s a b).sr } ∧
    ((setFlagsCmp s a b).sr.getLsbD 0 = true ↔ a = b) ∧
    ((setFlagsCmp s a b).sr.getLsbD 1 = true ↔ b.toInt < a.toInt) ∧
    ∀ k, 2 ≤ k → (setFlagsCmp s a b).sr.getLsbD k = s.sr.getLsbD k

/-- spec/43_control.md R140, whole: the seven codes, the value of each metric over all 32-bit values of `SR`, and the
reserved code 7. -/
def Obligations.MetricRule : Prop :=
  (∀ sr : Word,
    (∀ c, Metric.ofCode 0 = some c → metricHolds c sr = true) ∧
    (∀ c, Metric.ofCode 1 = some c → (metricHolds c sr = true ↔ sr.getLsbD 0 = true)) ∧
    (∀ c, Metric.ofCode 2 = some c → (metricHolds c sr = true ↔ sr.getLsbD 0 = false)) ∧
    (∀ c, Metric.ofCode 3 = some c → (metricHolds c sr = true ↔ sr.getLsbD 1 = false)) ∧
    (∀ c, Metric.ofCode 4 = some c → (metricHolds c sr = true ↔ sr.getLsbD 1 = true)) ∧
    (∀ c, Metric.ofCode 5 = some c → (metricHolds c sr = true ↔ sr.getLsbD 1 = false ∨ sr.getLsbD 0 = true)) ∧
    (∀ c, Metric.ofCode 6 = some c → (metricHolds c sr = true ↔ sr ≠ 0))) ∧
  (∀ k : Gpr, (Metric.ofCode k).isSome = true ↔ k ≠ 7) ∧
  ∀ w : Slot, w.b0 = 0x10 ∨ w.b0 = 0x11 → w.b1.toNat % 8 = 7 → decode w = .error (.reservedMode w.b1)

/-! ## Load and store -/

/-- spec/40_load_store.md R101, whole: where `LOD` completes, what it leaves (everything but `Rd` and `pc` unchanged),
and its fault. -/
def Obligations.LodLoadsTheWord : Prop :=
  ∀ (d : Gpr) (m : MemOperand) (s : State),
    ((effAddr s m).toNat + 4 ≤ s.cfg.memSize →
      ∃ v : Word, exec (.lod d m) s = .next { s with x := s.x.set d v, pc := s.pc + 4 } ∧
        ∀ i < 4, v.extractLsb' (8 * i) 8 = s.byteAt ((effAddr s m).toNat + i)) ∧
    (s.cfg.memSize < (effAddr s m).toNat + 4 →
      exec (.lod d m) s = .next (s.afterFault ⟨.outOfBounds, max (effAddr s m).toNat s.cfg.memSize⟩))

/-- R102: `LDI` writes the zero-extended literal, changes nothing else but `pc`, and never faults. -/
def Obligations.LdiLoadsTheLiteral : Prop :=
  ∀ (d : Gpr) (imm : Half) (s : State),
    ∃ v : Word, exec (.ldi d imm) s = .next { s with x := s.x.set d v, pc := s.pc + 4 } ∧ v.toNat = imm.toNat

/-- R103, whole: where `STO` completes, the four bytes at the effective address, every other byte and every register
unchanged; otherwise the fault, with no byte written. -/
def Obligations.StoStoresTheWord : Prop :=
  ∀ (r : Gpr) (m : MemOperand) (s : State),
    ((effAddr s m).toNat + 4 ≤ s.cfg.memSize →
      (∀ d, (effAddr s m).toNat ≤ d → d < (effAddr s m).toNat + 4 → ¬s.inDdt d) →
      ∃ mem, exec (.sto r m) s = .next { s with mem := mem, pc := s.pc + 4 } ∧
        (∀ i < 4, mem.read ((effAddr s m).toNat + i) = (s.getX r).extractLsb' (8 * i) 8) ∧
        ∀ a, a < (effAddr s m).toNat ∨ (effAddr s m).toNat + 4 ≤ a → mem.read a = s.byteAt a) ∧
    (s.cfg.memSize < (effAddr s m).toNat + 4 →
      exec (.sto r m) s = .next (s.afterFault ⟨.outOfBounds, max (effAddr s m).toNat s.cfg.memSize⟩)) ∧
    ((effAddr s m).toNat + 4 ≤ s.cfg.memSize → ∀ d, (effAddr s m).toNat ≤ d → d < (effAddr s m).toNat + 4 →
      s.inDdt d → (∀ e, (effAddr s m).toNat ≤ e → e < d → ¬s.inDdt e) →
      exec (.sto r m) s = .next (s.afterFault ⟨.descriptorWrite, d⟩))

/-! ## Stack -/

/-- spec/42_stack.md R131: both forms of `PSH`, every register it accepts, `PSH SP` with the value before the push, and
the refusal of `PC`. -/
def Obligations.PshPushesTheValue : Prop :=
  (∀ (imm : Half) (s : State) (v : Word), v.toNat = imm.toNat → PushesWord (.pshLit imm) s v) ∧
  (∀ (k : Gpr) (s : State), PushesWord (.pshReg (.gpr k)) s (s.getX k)) ∧
  (∀ s : State, PushesWord (.pshReg .sp) s s.sp) ∧
  (∀ s : State, PushesWord (.pshReg .fp) s s.fp) ∧
  (∀ s : State, PushesWord (.pshReg .sr) s s.sr) ∧
  ∀ s : State, exec (.pshReg .pc) s = .next (s.afterFault ⟨.illegalRegister, 10⟩)

/-- R132: `POP` writes the word above `sp`, raises `sp` by 4 and changes nothing else but `pc`. -/
def Obligations.PopLoadsTheTopWord : Prop :=
  ∀ (d : Gpr) (s : State),
    (s.canPopFrom s.sp 4 → ∃ v : Word,
      exec (.pop d) s = .next { s with x := s.x.set d v, sp := s.sp + 4, pc := s.pc + 4 } ∧
        ∀ i < 4, v.extractLsb' (8 * i) 8 = s.byteAt (popAddr s.sp i)) ∧
    ∀ e, firstPopFault s s.sp 4 = some e → exec (.pop d) s = .next (s.afterFault e)

/-- R133 (an inference the spec marks as its own): `PSH Rk` then `POP Rj` is a register move. -/
def Obligations.PushPopMovesARegister : Prop :=
  ∀ (k j : Gpr) (s : State), s.canPush 4 →
    ∃ t mem, exec (.pshReg (.gpr k)) s = .next t ∧
      exec (.pop j) t = .next { s with mem := mem, x := s.x.set j (s.getX k), pc := s.pc + 8 } ∧
      ∀ a, (∀ i < 4, a ≠ pushAddr s.sp i) → mem.read a = s.byteAt a

/-! ## Arithmetic, logical, shift, compare -/

/-- spec/41_alu.md R112, R113, R114 with the family rule R111: the results as numbers modulo `2^32`. -/
def Obligations.AddSubMulWrap : Prop :=
  ∀ (d : Gpr) (o : AluOperand) (s : State),
    (∃ t r, exec (.add d o) s = .next t ∧ AluLeaves s t d r ∧
      r.toNat = ((s.getX d).toNat + (aluOperand s o).toNat) % 2 ^ 32) ∧
    (∃ t r, exec (.sub d o) s = .next t ∧ AluLeaves s t d r ∧
      (r.toNat : Int) = ((s.getX d).toNat - (aluOperand s o).toNat : Int) % 2 ^ 32) ∧
    (∃ t r, exec (.mul d o) s = .next t ∧ AluLeaves s t d r ∧
      r.toNat = ((s.getX d).toNat * (aluOperand s o).toNat) % 2 ^ 32)

/-- R116, R117, R118: the results bit by bit. -/
def Obligations.LogicalBitwise : Prop :=
  ∀ (d : Gpr) (o : AluOperand) (s : State),
    (∃ t r, exec (.and d o) s = .next t ∧ AluLeaves s t d r ∧
      ∀ k, r.getLsbD k = ((s.getX d).getLsbD k && (aluOperand s o).getLsbD k)) ∧
    (∃ t r, exec (.orr d o) s = .next t ∧ AluLeaves s t d r ∧
      ∀ k, r.getLsbD k = ((s.getX d).getLsbD k || (aluOperand s o).getLsbD k)) ∧
    (∃ t r, exec (.xor d o) s = .next t ∧ AluLeaves s t d r ∧
      ∀ k, r.getLsbD k = ((s.getX d).getLsbD k ^^ (aluOperand s o).getLsbD k))

/-- R119, R120, R212: the results as numbers for an amount below 32, else `ShiftRange` with the amount. -/
def Obligations.ShiftsByTheWholeOperand : Prop :=
  ∀ (d : Gpr) (o : AluOperand) (s : State),
    ((aluOperand s o).toNat < 32 →
      (∃ t r, exec (.shl d o) s = .next t ∧ AluLeaves s t d r ∧
        r.toNat = (s.getX d).toNat * 2 ^ (aluOperand s o).toNat % 2 ^ 32) ∧
      (∃ t r, exec (.shr d o) s = .next t ∧ AluLeaves s t d r ∧
        r.toNat = (s.getX d).toNat / 2 ^ (aluOperand s o).toNat)) ∧
    (32 ≤ (aluOperand s o).toNat →
      exec (.shl d o) s = .next (s.afterFault ⟨.shiftRange, (aluOperand s o).toNat⟩) ∧
      exec (.shr d o) s = .next (s.afterFault ⟨.shiftRange, (aluOperand s o).toNat⟩))

/-- R115, R210, R211: the signed quotient truncated toward zero, and the two faults, which report the slot. -/
def Obligations.DivTruncatesTowardZero : Prop :=
  ∀ (d : Gpr) (o : AluOperand) (s : State),
    (aluOperand s o ≠ 0 → ¬((s.getX d).toInt = -2 ^ 31 ∧ (aluOperand s o).toInt = -1) →
      ∃ t r, exec (.div d o) s = .next t ∧ AluLeaves s t d r ∧
        r.toInt = Int.tdiv (s.getX d).toInt (aluOperand s o).toInt) ∧
    (aluOperand s o = 0 → exec (.div d o) s = .next (s.afterFault ⟨.divideByZero, s.pc.toNat⟩)) ∧
    ((s.getX d).toInt = -2 ^ 31 → (aluOperand s o).toInt = -1 →
      exec (.div d o) s = .next (s.afterFault ⟨.divideOverflow, s.pc.toNat⟩))

/-- R121: `CMP` changes the two flags and `pc` only, and compares the signed values as integers. -/
def Obligations.CmpSetsTheFlags : Prop :=
  ∀ (a b : Gpr) (s : State), ∃ t, exec (.cmp a b) s = .next t ∧
    t = { s with sr := t.sr, pc := s.pc + 4 } ∧
    (t.sr.getLsbD 0 = true ↔ s.getX a = s.getX b) ∧
    (t.sr.getLsbD 1 = true ↔ (s.getX b).toInt < (s.getX a).toInt) ∧
    ∀ k, 2 ≤ k → t.sr.getLsbD k = s.sr.getLsbD k

/-! ## Control transfer -/

/-- R142: `JMP` changes `pc` only, and does not check the target. -/
def Obligations.JmpTransfersControl : Prop :=
  ∀ (c : Metric) (target : Half) (s : State),
    (metricHolds c s.sr = true → ∃ p : Word, exec (.jmp c target) s = .next { s with pc := p } ∧ p.toNat = target.toNat) ∧
    (metricHolds c s.sr = false → exec (.jmp c target) s = .next { s with pc := s.pc + 4 })

/-- R143: the taken call pushes `fp`, then the return address, and `fp` becomes the new `sp`; the call not taken only
advances; a call whose pushes do not fit leaves everything as it was. -/
def Obligations.CalBuildsTheFrame : Prop :=
  ∀ (c : Metric) (target : Half) (s : State),
    (metricHolds c s.sr = true → s.canPush 8 → ∃ (mem : Memory) (p : Word),
      exec (.cal c target) s = .next { s with mem := mem, sp := s.sp - 8, fp := s.sp - 8, pc := p } ∧
        p.toNat = target.toNat ∧ HoldsPushed s (pushOrder s.fp ++ pushOrder (s.pc + 4)) mem) ∧
    (metricHolds c s.sr = true → ∀ e, firstPushFault s 8 = some e → exec (.cal c target) s = .next (s.afterFault e)) ∧
    (metricHolds c s.sr = false → exec (.cal c target) s = .next { s with pc := s.pc + 4 })

/-- R144: `RET` with `F` = `fp` before: `pc` and `fp` from the frame, the result word over the saved frame pointer,
`sp = F + 4`; each access that fails, in the order of the rule, decides the fault. -/
def Obligations.RetUnwindsTheFrame : Prop :=
  ∀ s : State,
    (s.canPopFrom s.sp 4 → s.canPopFrom s.fp 8 → { s with sp := s.fp + 8 }.canPush 4 →
      ∃ mem, exec .ret s =
          .next { s with mem := mem, sp := s.fp + 4, pc := popWord s s.fp, fp := popWord s (s.fp + 4) } ∧
        HoldsPushed { s with sp := s.fp + 8 } (pushOrder (popWord s s.sp)) mem) ∧
    (∀ e, firstPopFault s s.sp 4 = some e → exec .ret s = .next (s.afterFault e)) ∧
    (s.canPopFrom s.sp 4 → ∀ e, firstPopFault s s.fp 8 = some e → exec .ret s = .next (s.afterFault e)) ∧
    (s.canPopFrom s.sp 4 → s.canPopFrom s.fp 8 → ∀ e, firstPushFault { s with sp := s.fp + 8 } 4 = some e →
      exec .ret s = .next (s.afterFault e))

/-- R145: after a taken call, a callee that leaves one result word, the return and the caller's pop of the result, the
stack pointer, the frame pointer and every general register but the one that receives the result are as before. -/
def Obligations.CallReturnRoundTrip : Prop :=
  ∀ (c : Metric) (target imm : Half) (d : Gpr) (s : State), metricHolds c s.sr = true → s.canPush 12 →
    ∃ s1 s2 s3 mem v, exec (.cal c target) s = .next s1 ∧ exec (.pshLit imm) s1 = .next s2 ∧
      exec .ret s2 = .next s3 ∧ s3.pc = s.pc + 4 ∧
      exec (.pop d) s3 = .next { s with mem := mem, x := s.x.set d v, pc := s.pc + 8 } ∧ v.toNat = imm.toNat ∧
      ∀ a, (∀ i < 12, a ≠ pushAddr s.sp i) → mem.read a = s.byteAt a

/-! ## The software interrupt -/

/-- spec/44_interrupt.md R153: halt. -/
def Obligations.HaltInterruptEndsTheRun : Prop :=
  ∀ s : State, s.cfg.Legal →
    (s.canPush 12 → ∃ (mem : Memory) (p : Word),
      exec (.int 0) s =
        .next { s with mem := mem, sp := s.sp - 12, pc := p, status := .halted (some (s.getX 0)) } ∧
      p.toNat = s.cfg.progEnd ∧
      HoldsPushed s (pushOrder (s.pc + 2) ++ pushOrder s.sr ++ pushOrder (s.getX 0)) mem) ∧
    ∀ e, firstPushFault s 12 = some e → exec (.int 0) s = .next (s.afterFault e)

/-- R152 and R156 for the numbers with no action: entry and exit leave the 8 bytes below `sp` and nothing else. -/
def Obligations.InterruptsWithoutAction : Prop :=
  ∀ (n : Byte) (s : State), 3 ≤ n.toNat →
    (s.canPush 8 → ∃ mem, exec (.int n) s = .next { s with mem := mem, pc := s.pc + 4 } ∧
      HoldsPushed s (pushOrder (s.pc + 2) ++ pushOrder s.sr) mem) ∧
    ∀ e, firstPushFault s 8 = some e → exec (.int n) s = .next (s.afterFault e)

/-- R155: character output appends the bytes of the range, read after entry, and faults on a range that does not fit
before it outputs anything; a length of 0 outputs nothing and cannot fault there. -/
def Obligations.OutputInterruptAppends : Prop :=
  ∀ s : State,
    (s.canPush 8 → (s.getX 1).toNat = 0 ∨ (s.getX 0).toNat + (s.getX 1).toNat ≤ s.cfg.memSize →
      ∃ (mem : Memory) (bs : List Byte),
        exec (.int 2) s = .next { s with mem := mem, out := s.out ++ bs, pc := s.pc + 4 } ∧
        HoldsPushed s (pushOrder (s.pc + 2) ++ pushOrder s.sr) mem ∧ bs.length = (s.getX 1).toNat ∧
        ∀ i, (h : i < bs.length) → bs[i] = mem.read ((s.getX 0).toNat + i)) ∧
    (s.canPush 8 → (s.getX 1).toNat ≠ 0 → s.cfg.memSize < (s.getX 0).toNat + (s.getX 1).toNat →
      exec (.int 2) s = .next (s.afterFault ⟨.outOfBounds, max (s.getX 0).toNat s.cfg.memSize⟩)) ∧
    ∀ e, firstPushFault s 8 = some e → exec (.int 2) s = .next (s.afterFault e)

/-- R154 and R156: keyboard counts the request and gives the device one action; `pc` is advanced, no other register is
changed, and memory is what the device's one action makes of what entry left, unchanged outside the window. That the
registers come back also when the device writes over the saved words is R22, R24 and R156 read against the pseudocode
of R150 (notes/assumptions/8.md); that the device's action is the head of the list `deviceInputs` is the model's choice
(notes/assumptions/4.md). -/
def Obligations.KeyboardInterruptCounts : Prop :=
  ∀ s : State,
    (s.canPush 8 → ∃ mem : Memory, HoldsPushed s (pushOrder (s.pc + 2) ++ pushOrder s.sr) mem ∧
      exec (.int 1) s = .next { s with
        mem := deviceWrite s.cfg mem (s.deviceInputs.headD []), pc := s.pc + 4, kbdRequests := s.kbdRequests + 1,
        deviceInputs := s.deviceInputs.tail } ∧
      ∀ a, ¬s.inWindow a → (deviceWrite s.cfg mem (s.deviceInputs.headD [])).read a = mem.read a) ∧
    ∀ e, firstPushFault s 8 = some e → exec (.int 1) s = .next (s.afterFault e)

/-! ## Steps, faults, the end of a run -/

/-- spec/70_reset_and_hazards.md R236: a step of a running core is the run loop's body. That the device collaborator
acts once after a step that leaves the run running, and not after the step that ends it, is the model's form of R58
(notes/assumptions/4.md, 9.md). -/
def Obligations.StepRunsTheDecodedInstruction : Prop :=
  ∀ s : State, s.status = .running →
    (s.pc.toNat = s.cfg.progEnd → step s = .next { s with status := .halted none }) ∧
    (s.cfg.progEnd < s.pc.toNat → step s = .next (s.afterFault ⟨.fetchOutOfProgram, s.pc.toNat⟩)) ∧
    (s.pc.toNat < s.cfg.progEnd → s.pc.toNat % 4 ≠ 0 →
      step s = .next (s.afterFault ⟨.fetchMisaligned, s.pc.toNat⟩)) ∧
    (s.pcLegal → ∀ b, decode (slotAtPc s) = .error (.illegalOpcode b) →
      step s = .next (s.afterFault ⟨.illegalOpcode, b.toNat⟩)) ∧
    (s.pcLegal → ∀ b, decode (slotAtPc s) = .error (.reservedMode b) →
      step s = .next (s.afterFault ⟨.reservedMode, b.toNat⟩)) ∧
    (s.pcLegal → ∀ b, decode (slotAtPc s) = .error (.illegalRegister b) →
      step s = .next (s.afterFault ⟨.illegalRegister, b.toNat⟩)) ∧
    (s.pcLegal → ∀ i t, decode (slotAtPc s) = .ok i → exec i s = .next t →
      step s = .next (if t.status = .running then t.deviceAct else t))

/-- The model's own interface, notes/assumptions/5.md: from `withFetchWord` the very next step runs the instruction of
the word, and in a state that fetches, only the four bytes at `pc` differ. -/
def Obligations.FetchWordRunsNext : Prop :=
  ∀ (s : State) (w : Nat) (i : Instr), s.cfg.Legal → decodeTableWord 32 w = some i →
    step (s.withFetchWord 32 w) = betweenSteps (exec i (s.withFetchWord 32 w)) ∧
    (s.fetches = true → s.withFetchWord 32 w = { s with mem := (s.withFetchWord 32 w).mem } ∧
      ∀ a, a < s.pc.toNat ∨ s.pc.toNat + 4 ≤ a → (s.withFetchWord 32 w).byteAt a = s.byteAt a)

/-- spec/10_state.md R25: only `Running` has a next step. -/
def Obligations.EndedRunHasNoStep : Prop :=
  ∀ s : State,
    (∀ code, s.status = .halted code → step s = .fault (.runHalted code)) ∧
    (∀ r, s.status = .faulted r → step s = .fault (.runFaulted r)) ∧
    (s.status = .running → ∃ t, step s = .next t)

/-- spec/60_exceptions.md R218 (every instruction is available always): every instruction, in every state, has a next
state; no instruction is refused and none stops the machine outside the run status. -/
def Obligations.EveryInstructionHasANextState : Prop :=
  ∀ (i : Instr) (s : State), ∃ t, exec i s = .next t ∧ t.cfg = s.cfg ∧
    (s.status = .running → t.status = .running ∨ (∃ r, t.status = .faulted r) ∨ i = .int 0)

/-- spec/60_exceptions.md R200 and R202: a step that faults records its own slot and changes nothing else. -/
def Obligations.FaultsArePrecise : Prop :=
  ∀ (s t : State) (r : FaultRecord), step s = .next t → t.status = .faulted r →
    t = { s with status := .faulted r } ∧ r.slot = s.pc

/-- spec/60_exceptions.md R203, the causes an instruction can raise: which instructions raise which cause, on what
operands, and with what extra value. The fetch and decode causes are raised by no instruction that a slot decodes to;
the first disjunct is the term `PSH PC`, which no slot decodes to and for which `IllegalRegister` is the model's choice
(notes/assumptions/7.md). -/
def Obligations.FaultCausesOfInstructions : Prop :=
  ∀ (i : Instr) (s t : State) (r : FaultRecord), s.status = .running → exec i s = .next t → t.status = .faulted r →
    (r.cause = .illegalRegister ∧ i = .pshReg .pc) ∨
    (r.cause = .divideByZero ∧ r.info = s.pc.toNat ∧ ∃ d o, i = .div d o ∧ aluOperand s o = 0) ∨
    (r.cause = .divideOverflow ∧ r.info = s.pc.toNat ∧
      ∃ d o, i = .div d o ∧ (s.getX d).toInt = -2 ^ 31 ∧ (aluOperand s o).toInt = -1) ∨
    (r.cause = .shiftRange ∧ ∃ d o, (i = .shl d o ∨ i = .shr d o) ∧ r.info = (aluOperand s o).toNat ∧ 32 ≤ r.info) ∨
    (r.cause = .outOfBounds ∧ s.cfg.memSize ≤ r.info ∧
      ((∃ d m, i = .lod d m ∨ i = .sto d m) ∨ (∃ v, i = .pshLit v) ∨ (∃ k, i = .pshReg k) ∨ (∃ d, i = .pop d) ∨
        (∃ c a, i = .cal c a) ∨ i = .ret ∨ ∃ n, i = .int n)) ∨
    (r.cause = .descriptorWrite ∧ s.inDdt r.info ∧
      ((∃ d m, i = .sto d m) ∨ (∃ v, i = .pshLit v) ∨ (∃ k, i = .pshReg k) ∨ (∃ c a, i = .cal c a) ∨ i = .ret ∨
        ∃ n, i = .int n))

/-- spec/70_reset_and_hazards.md R237: exactly three ways to leave `Running`. -/
def Obligations.ThreeWaysToLeaveRunning : Prop :=
  ∀ s t : State, step s = .next t →
    t.status = .running ∨
    (t.status = .halted (some (s.getX 0)) ∧ s.pcLegal ∧ decode (slotAtPc s) = .ok (.int 0)) ∨
    (t.status = .halted none ∧ s.pc.toNat = s.cfg.progEnd ∧ t = { s with status := .halted none }) ∨
    ∃ r, t.status = .faulted r

/-! ## Invariants and whole-machine rules -/

/-- The memory list stays canonical and lists only addresses that exist (spec/20_memory.md R40), and the configuration
never changes (spec/10_state.md R31), through every step from every state. -/
def Obligations.StepKeepsMemoryCanonical : Prop :=
  ∀ s t : State, s.memOk → step s = .next t → t.memOk ∧ t.cfg = s.cfg

/-- The reset state of the model meets the invariants; its open values are the model's choices
(notes/assumptions/1.md, 2.md, 4.md). -/
def Obligations.ResetMeetsTheInvariants : Prop :=
  State.reset.cfg.Legal ∧ State.reset.memOk ∧ State.reset.srLegal ∧ State.reset.pcLegal ∧
  State.reset.status = .running

/-- spec/20_memory.md R42: the descriptor table is read-only to the engine. No step changes a byte of it. -/
def Obligations.StepKeepsTheDescriptorTable : Prop :=
  ∀ (s t : State) (a : Nat), step s = .next t → s.inDdt a → t.byteAt a = s.byteAt a

/-- spec/10_state.md R24 (an inference the spec marks as its own): `SR` stays 0, 1 or 2, through every step
from every state, whatever the device writes at an `INT #1` (notes/assumptions/8.md). -/
def Obligations.StepKeepsTheStatusRegisterLegal : Prop :=
  ∀ s t : State, s.srLegal → step s = .next t → t.srLegal

/-- spec/20_memory.md R60, with R46: a store into the slot after the storing instruction is seen by the very next
fetch, whatever the device does between the two steps: the word's low byte is the opcode byte. -/
def Obligations.StoreIsSeenByTheNextFetch : Prop :=
  ∀ (r : Gpr) (m : MemOperand) (s : State), s.cfg.Legal → s.status = .running → s.pcLegal →
    decode (slotAtPc s) = .ok (.sto r m) → (effAddr s m).toNat = s.pc.toNat + 4 → s.pc.toNat + 8 ≤ s.cfg.progEnd →
      ∃ t, step s = .next t ∧ t.pc.toNat = s.pc.toNat + 4 ∧
        slotAtPc t = { b0 := (s.getX r).extractLsb' 0 8, b1 := (s.getX r).extractLsb' 8 8,
                       b2 := (s.getX r).extractLsb' 16 8, b3 := (s.getX r).extractLsb' 24 8 }

/-- spec/10_state.md R26: the output stream is append-only, and only `INT #2` appends. -/
def Obligations.OutputIsAppendOnly : Prop :=
  ∀ s t : State, step s = .next t →
    ∃ bs, t.out = s.out ++ bs ∧ (bs ≠ [] → s.pcLegal ∧ decode (slotAtPc s) = .ok (.int 2))

/-- spec/10_state.md R28: the keyboard interrupt is the only writer of the request counter. -/
def Obligations.OnlyKeyboardCountsRequests : Prop :=
  ∀ s t : State, step s = .next t →
    t.kbdRequests = s.kbdRequests ∨
    (t.kbdRequests = s.kbdRequests + 1 ∧ s.pcLegal ∧ decode (slotAtPc s) = .ok (.int 1))

/-- spec/10_state.md R13: which instructions write the auxiliary registers (for `INT`, the net effect: only halt leaves
a different `SP`, and no interrupt a different `SR`, R22; where an `INT #1`'s device writes over the saved words, as
notes/assumptions/8.md reads it), and which write a general register. -/
def Obligations.WhoWritesTheRegisters : Prop :=
  ∀ (i : Instr) (s t : State), exec i s = .next t →
    (t.fp ≠ s.fp → (∃ c a, i = .cal c a ∧ metricHolds c s.sr = true) ∨ i = .ret) ∧
    (t.sp ≠ s.sp → (∃ v, i = .pshLit v) ∨ (∃ k, i = .pshReg k) ∨ (∃ d, i = .pop d) ∨
      (∃ c a, i = .cal c a ∧ metricHolds c s.sr = true) ∨ i = .ret ∨ i = .int 0) ∧
    (t.sr ≠ s.sr → (∃ d o, i = .add d o ∨ i = .sub d o ∨ i = .mul d o ∨ i = .div d o ∨ i = .and d o ∨
      i = .orr d o ∨ i = .xor d o ∨ i = .shl d o ∨ i = .shr d o) ∨ ∃ a b, i = .cmp a b) ∧
    ∀ j : Gpr, t.getX j ≠ s.getX j → (∃ m, i = .lod j m) ∨ (∃ v, i = .ldi j v) ∨ i = .pop j ∨
      ∃ o, i = .add j o ∨ i = .sub j o ∨ i = .mul j o ∨ i = .div j o ∨ i = .and j o ∨ i = .orr j o ∨ i = .xor j o ∨
        i = .shl j o ∨ i = .shr j o

/-- spec/20_memory.md R58: the device collaborator may put any byte at any address of its window, and touches nothing
else. That its input is the head of the list `deviceInputs` is the model's choice (notes/assumptions/4.md). -/
def Obligations.DeviceWritesOnlyItsWindow : Prop :=
  (∀ s : State, s.deviceAct = { s with mem := s.deviceAct.mem, deviceInputs := s.deviceInputs.tail } ∧
    ∀ a, ¬s.inWindow a → s.deviceAct.byteAt a = s.byteAt a) ∧
  (∀ (s : State) (f : Nat → Byte), ∃ input : List Host.Cell,
    ∀ a, s.inWindow a → { s with deviceInputs := [input] }.deviceAct.byteAt a = f a)

/-- spec/20_memory.md R58 and R52: what the device will do is invisible to a step, an `INT #1` included. Two states that
differ only in the device's pending inputs take steps that differ only in the window and the inputs left. That an
`INT #1` whose saved words the device writes over leaves the same `SR` and `PC` is R22, R154 and R156 as
notes/assumptions/8.md reads them; that the device's input is the list `deviceInputs` is the model's choice
(notes/assumptions/4.md). -/
def Obligations.DeviceIsInvisibleToAStep : Prop :=
  ∀ (s t : State) (inputs : List (List Host.Cell)),
    step s = .next t →
    ∃ u, step { s with deviceInputs := inputs } = .next u ∧
      u = { t with mem := u.mem, deviceInputs := u.deviceInputs } ∧
      ∀ a, ¬s.inWindow a → u.byteAt a = t.byteAt a

/-! ## Reset and boot -/

/-- spec/70_reset_and_hazards.md R231 and spec/10_state.md R32: the state before the first step, for any image, any
initial registers and memory, and any descriptor table; and the load-time error. That the device's input is handed to
the field `deviceInputs` is the model's own (notes/assumptions/4.md). -/
def Obligations.BootLoadsTheImage : Prop :=
  ∀ l : Launch,
    (l.cfg.progSize < l.image.length → boot l = .error .imageTooLarge) ∧
    (l.image.length ≤ l.cfg.progSize → l.descriptors.length = l.cfg.devCount →
      ∃ s, boot l = .ok s ∧ s.cfg = l.cfg ∧ s.x = l.x ∧ s.pc = 0 ∧ s.sp = l.cfg.spReset ∧ s.fp = s.sp ∧ s.sr = 0 ∧
        s.status = .running ∧ s.out = [] ∧ s.kbdRequests = 0 ∧ s.deviceInputs = l.deviceInputs ∧
        (∀ i, (h : i < l.image.length) → s.byteAt i = l.image[i]) ∧
        (∀ i j, (h : i < l.descriptors.length) → (hj : j < 4) →
          s.byteAt (descriptorAddr l.cfg i + j) = l.descriptors[i].size[j] ∧
          s.byteAt (descriptorAddr l.cfg i + 4 + j) = l.descriptors[i].taggedBase[j]) ∧
        ∀ a, l.image.length ≤ a → a < l.cfg.ddtBase ∨ l.cfg.ddtEnd ≤ a → s.byteAt a = l.mem.read a)

/-- A legal launch gives a state that meets the memory invariant. -/
def Obligations.BootMemoryIsCanonical : Prop :=
  ∀ (l : Launch) (s : State), l.Legal → boot l = .ok s → s.memOk

/-! ## The encoder block -/

/-- spec/45_assembler.md R182, whole. -/
def Obligations.DefinitionPatchesPendingSites : Prop :=
  ∀ (name : Token) (st : AsmState), st.Ok →
    (0xFFFF < st.off → defineLabel name st = .error .addressRange) ∧
    (st.off ≤ 0xFFFF →
      (∀ a, st.entry name = some (.resolved a) → defineLabel name st = .error .duplicateLabel) ∧
      (st.entry name = none → ∃ u, defineLabel name st = .ok u ∧ u.buf = st.buf) ∧
      (∀ sites, st.entry name = some (.unresolved sites) → ∃ u, defineLabel name st = .ok u ∧
        u.buf.length = st.buf.length ∧
        (∀ k ∈ sites, u.buf[k]? = some (BitVec.ofNat 8 (st.off / 256)) ∧
          u.buf[k + 1]? = some (BitVec.ofNat 8 (st.off % 256))) ∧
        ∀ k, k ∉ sites → (∀ m ∈ sites, k ≠ m + 1) → u.buf[k]? = st.buf[k]?) ∧
      ∀ u, defineLabel name st = .ok u →
        u.entry name = some (.resolved (BitVec.ofNat 16 st.off)) ∧ ∀ other, other ≠ name → u.entry other = st.entry other)

/-- R183, whole, for `JMP` and `CAL`. -/
def Obligations.ReferenceEmitsOrQueues : Prop :=
  ∀ (i : AsmInstr) (op : Byte) (c : Metric) (name : Token) (st : AsmState),
    (i = .jmpLabel c name ∧ op = 0x10) ∨ (i = .calLabel c name ∧ op = 0x11) →
    (∀ a, st.entry name = some (.resolved a) →
      emit i st = { st with buf := st.buf ++
        [op, BitVec.ofNat 8 c.code.val, BitVec.ofNat 8 (a.toNat / 256), BitVec.ofNat 8 (a.toNat % 256)] }) ∧
    (∀ sites, st.entry name = some (.unresolved sites) →
      (emit i st).buf = st.buf ++ [op, BitVec.ofNat 8 c.code.val, 0, 0] ∧
      (emit i st).entry name = some (.unresolved (sites ++ [st.off + 2]))) ∧
    (st.entry name = none →
      (emit i st).buf = st.buf ++ [op, BitVec.ofNat 8 c.code.val, 0, 0] ∧
      (emit i st).entry name = some (.unresolved [st.off + 2])) ∧
    ∀ other, other ≠ name → (emit i st).entry other = st.entry other

/-- R184, with R181: through the assembly of any text, with any inclusions, the label table's invariant is kept, the
output only grows, a resolved entry keeps its address for ever, no entry disappears, a pending site either stays
pending or holds the address its label was bound to, and every other byte already in the buffer is never written
again. -/
def Obligations.LabelTableInvariant : Prop :=
  AsmState.init.Ok ∧
  ∀ (cfg : AsmConfig) (files : List Char → Option (List Char)) (depth : Nat) (text : List Char) (st u : AsmState),
    st.Ok → assembleText cfg (includeFile cfg files depth) text st = .ok u →
      u.Ok ∧ st.off ≤ u.off ∧
      (∀ name a, st.entry name = some (.resolved a) → u.entry name = some (.resolved a)) ∧
      (∀ name, st.entry name ≠ none → u.entry name ≠ none) ∧
      (∀ name sites k, st.entry name = some (.unresolved sites) → k ∈ sites →
        (∃ a, u.entry name = some (.resolved a) ∧ u.buf[k]? = some (BitVec.ofNat 8 (a.toNat / 256)) ∧
          u.buf[k + 1]? = some (BitVec.ofNat 8 (a.toNat % 256))) ∨
        ∃ more, u.entry name = some (.unresolved more) ∧ k ∈ more) ∧
      ∀ k < st.off, st.Settled k → u.buf[k]? = st.buf[k]?

/-- R185: a forward reference, patched when its label is defined, and a backward reference to the same label hold the
same address, the offset of the definition, high byte first. -/
def Obligations.ForwardAndBackwardReferencesAgree : Prop :=
  ∀ (c e : Metric) (name : Token) (st st1 st2 st3 st4 : AsmState) (body : List Instr), st.Ok →
    st.entry name = none → st1 = emit (.jmpLabel c name) st →
    st2 = body.foldl (fun u i => emit (.plain i) u) st1 → defineLabel name st2 = .ok st3 →
    st4 = emit (.jmpLabel e name) st3 →
      st4.buf[st.off + 2]? = some (BitVec.ofNat 8 (st2.off / 256)) ∧
      st4.buf[st.off + 3]? = some (BitVec.ofNat 8 (st2.off % 256)) ∧
      st4.buf[st3.off + 2]? = some (BitVec.ofNat 8 (st2.off / 256)) ∧
      st4.buf[st3.off + 3]? = some (BitVec.ofNat 8 (st2.off % 256))

/-- R186, R192, R189, R190 and the last sentence of R91: how an assembly ends (the first error, else an undefined label
named, else the capacity, else the buffer), and an assembled image fits the program region, is a whole number of slots,
and the decoder accepts every one of them. That the capacity is tested only at the end, after every statement's error
and after the undefined labels, is the model's choice (notes/assumptions/15.md): R186 lets it be tested at each
emission. -/
def Obligations.AssembledImagesDecode : Prop :=
  ∀ (cfg : AsmConfig) (progSize : Nat) (files : List Char → Option (List Char)) (text : List Char),
    (∀ e, assembleText cfg (includeFile cfg files cfg.maxIncludeDepth) text .init = .error e →
      assemble cfg progSize files text = .error e) ∧
    (∀ u, assembleText cfg (includeFile cfg files cfg.maxIncludeDepth) text .init = .ok u →
      ((∃ name sites, u.entry name = some (.unresolved sites)) →
        ∃ name sites, u.entry name = some (.unresolved sites) ∧
          assemble cfg progSize files text = .error (.undefinedLabel name)) ∧
      ((∀ name sites, u.entry name ≠ some (.unresolved sites)) →
        (progSize < u.buf.length → assemble cfg progSize files text = .error .programTooLarge) ∧
        (u.buf.length ≤ progSize → assemble cfg progSize files text = .ok u.buf))) ∧
    ∀ image, assemble cfg progSize files text = .ok image →
      image.length ≤ progSize ∧ image.length % 4 = 0 ∧
      ∀ k, 4 * k < image.length → ∃ i, decode (slotAt image k) = .ok i

/-- R176: `LOD Rd #imm` is read exactly as `LDI Rd #imm`, by the same operand tokens. -/
def Obligations.LoadLiteralAlias : Prop :=
  ∀ (d imm : Token) (rest : List Token), hasMarker '#' imm = true →
    parseLod (d :: imm :: rest) = parseLdi (d :: imm :: rest)
end

