-- ==== Sys2Proof/Laws/State.lean ====
section
/-! SUPPORT. One lemma per field per update of the state, all by unfolding one definition, so that no later proof
unfolds a record update. -/

namespace Sys2Proof.Machine

variable (s : State)

/-! ## setX -/

@[simp] theorem State.setX_cfg (i : Gpr) (v : Word) : (s.setX i v).cfg = s.cfg := rfl
@[simp] theorem State.setX_x (i : Gpr) (v : Word) : (s.setX i v).x = s.x.set i v := rfl
@[simp] theorem State.setX_sp (i : Gpr) (v : Word) : (s.setX i v).sp = s.sp := rfl
@[simp] theorem State.setX_fp (i : Gpr) (v : Word) : (s.setX i v).fp = s.fp := rfl
@[simp] theorem State.setX_pc (i : Gpr) (v : Word) : (s.setX i v).pc = s.pc := rfl
@[simp] theorem State.setX_sr (i : Gpr) (v : Word) : (s.setX i v).sr = s.sr := rfl
@[simp] theorem State.setX_mem (i : Gpr) (v : Word) : (s.setX i v).mem = s.mem := rfl
@[simp] theorem State.setX_status (i : Gpr) (v : Word) : (s.setX i v).status = s.status := rfl
@[simp] theorem State.setX_out (i : Gpr) (v : Word) : (s.setX i v).out = s.out := rfl
@[simp] theorem State.setX_kbdRequests (i : Gpr) (v : Word) : (s.setX i v).kbdRequests = s.kbdRequests := rfl
@[simp] theorem State.setX_deviceInputs (i : Gpr) (v : Word) : (s.setX i v).deviceInputs = s.deviceInputs := rfl
@[simp] theorem State.setX_byteAt (i : Gpr) (v : Word) (a : Nat) : (s.setX i v).byteAt a = s.byteAt a := rfl

/-- A register reads back what was written to it; every other register is unchanged (R10: none is hardwired). -/
theorem State.getX_setX (i j : Gpr) (v : Word) : (s.setX i v).getX j = if i = j then v else s.getX j := by
  simp only [State.getX, State.setX, Fin.getElem_fin, Vector.getElem_set, Fin.ext_iff]

@[simp] theorem State.getX_setX_same (i : Gpr) (v : Word) : (s.setX i v).getX i = v := by
  rw [State.getX_setX, if_pos rfl]

theorem State.getX_setX_other {i j : Gpr} (h : i ≠ j) (v : Word) : (s.setX i v).getX j = s.getX j := by
  rw [State.getX_setX, if_neg h]

/-! ## advance -/

@[simp] theorem State.advance_cfg : s.advance.cfg = s.cfg := rfl
@[simp] theorem State.advance_x : s.advance.x = s.x := rfl
@[simp] theorem State.advance_sp : s.advance.sp = s.sp := rfl
@[simp] theorem State.advance_fp : s.advance.fp = s.fp := rfl
@[simp] theorem State.advance_pc : s.advance.pc = s.pc + 4 := rfl
@[simp] theorem State.advance_sr : s.advance.sr = s.sr := rfl
@[simp] theorem State.advance_mem : s.advance.mem = s.mem := rfl
@[simp] theorem State.advance_status : s.advance.status = s.status := rfl
@[simp] theorem State.advance_out : s.advance.out = s.out := rfl
@[simp] theorem State.advance_kbdRequests : s.advance.kbdRequests = s.kbdRequests := rfl
@[simp] theorem State.advance_deviceInputs : s.advance.deviceInputs = s.deviceInputs := rfl
@[simp] theorem State.advance_byteAt (a : Nat) : s.advance.byteAt a = s.byteAt a := rfl
@[simp] theorem State.advance_getX (i : Gpr) : s.advance.getX i = s.getX i := rfl

/-! ## flags -/

@[simp] theorem setFlags_cfg (r : Word) : (setFlags s r).cfg = s.cfg := rfl
@[simp] theorem setFlags_x (r : Word) : (setFlags s r).x = s.x := rfl
@[simp] theorem setFlags_sp (r : Word) : (setFlags s r).sp = s.sp := rfl
@[simp] theorem setFlags_fp (r : Word) : (setFlags s r).fp = s.fp := rfl
@[simp] theorem setFlags_pc (r : Word) : (setFlags s r).pc = s.pc := rfl
@[simp] theorem setFlags_mem (r : Word) : (setFlags s r).mem = s.mem := rfl
@[simp] theorem setFlags_status (r : Word) : (setFlags s r).status = s.status := rfl
@[simp] theorem setFlags_out (r : Word) : (setFlags s r).out = s.out := rfl
@[simp] theorem setFlags_kbdRequests (r : Word) : (setFlags s r).kbdRequests = s.kbdRequests := rfl
@[simp] theorem setFlags_deviceInputs (r : Word) : (setFlags s r).deviceInputs = s.deviceInputs := rfl
@[simp] theorem setFlagsCmp_cfg (a b : Word) : (setFlagsCmp s a b).cfg = s.cfg := rfl
@[simp] theorem setFlagsCmp_x (a b : Word) : (setFlagsCmp s a b).x = s.x := rfl
@[simp] theorem setFlagsCmp_sp (a b : Word) : (setFlagsCmp s a b).sp = s.sp := rfl
@[simp] theorem setFlagsCmp_fp (a b : Word) : (setFlagsCmp s a b).fp = s.fp := rfl
@[simp] theorem setFlagsCmp_pc (a b : Word) : (setFlagsCmp s a b).pc = s.pc := rfl
@[simp] theorem setFlagsCmp_mem (a b : Word) : (setFlagsCmp s a b).mem = s.mem := rfl
@[simp] theorem setFlagsCmp_status (a b : Word) : (setFlagsCmp s a b).status = s.status := rfl
@[simp] theorem setFlagsCmp_out (a b : Word) : (setFlagsCmp s a b).out = s.out := rfl
@[simp] theorem setFlagsCmp_kbdRequests (a b : Word) : (setFlagsCmp s a b).kbdRequests = s.kbdRequests := rfl
@[simp] theorem setFlagsCmp_deviceInputs (a b : Word) : (setFlagsCmp s a b).deviceInputs = s.deviceInputs := rfl

/-! ## putBytes -/

@[simp] theorem State.putBytes_cfg (a : Nat) (bs : List Byte) : (s.putBytes a bs).cfg = s.cfg := rfl
@[simp] theorem State.putBytes_x (a : Nat) (bs : List Byte) : (s.putBytes a bs).x = s.x := rfl
@[simp] theorem State.putBytes_sp (a : Nat) (bs : List Byte) : (s.putBytes a bs).sp = s.sp := rfl
@[simp] theorem State.putBytes_fp (a : Nat) (bs : List Byte) : (s.putBytes a bs).fp = s.fp := rfl
@[simp] theorem State.putBytes_pc (a : Nat) (bs : List Byte) : (s.putBytes a bs).pc = s.pc := rfl
@[simp] theorem State.putBytes_sr (a : Nat) (bs : List Byte) : (s.putBytes a bs).sr = s.sr := rfl
@[simp] theorem State.putBytes_mem (a : Nat) (bs : List Byte) : (s.putBytes a bs).mem = s.mem.writeList a bs := rfl
@[simp] theorem State.putBytes_status (a : Nat) (bs : List Byte) : (s.putBytes a bs).status = s.status := rfl
@[simp] theorem State.putBytes_out (a : Nat) (bs : List Byte) : (s.putBytes a bs).out = s.out := rfl
@[simp] theorem State.putBytes_kbdRequests (a : Nat) (bs : List Byte) :
    (s.putBytes a bs).kbdRequests = s.kbdRequests := rfl
@[simp] theorem State.putBytes_deviceInputs (a : Nat) (bs : List Byte) :
    (s.putBytes a bs).deviceInputs = s.deviceInputs := rfl

/-! ## deviceAct: one case split, then one lemma per field -/

/-- What the device's action point changes: memory, by window writes, and the pending inputs (R58). -/
theorem State.deviceAct_eq :
    s.deviceAct = { s with
      mem := deviceWrite s.cfg s.mem (s.deviceInputs.headD []), deviceInputs := s.deviceInputs.tail } := by
  unfold State.deviceAct
  split <;> rename_i h <;> simp [h, deviceWrite]
  obtain ⟨⟩ := s
  simp_all

@[simp] theorem State.deviceAct_cfg : s.deviceAct.cfg = s.cfg := by rw [State.deviceAct_eq]
@[simp] theorem State.deviceAct_x : s.deviceAct.x = s.x := by rw [State.deviceAct_eq]
@[simp] theorem State.deviceAct_sp : s.deviceAct.sp = s.sp := by rw [State.deviceAct_eq]
@[simp] theorem State.deviceAct_fp : s.deviceAct.fp = s.fp := by rw [State.deviceAct_eq]
@[simp] theorem State.deviceAct_pc : s.deviceAct.pc = s.pc := by rw [State.deviceAct_eq]
@[simp] theorem State.deviceAct_sr : s.deviceAct.sr = s.sr := by rw [State.deviceAct_eq]
@[simp] theorem State.deviceAct_mem :
    s.deviceAct.mem = deviceWrite s.cfg s.mem (s.deviceInputs.headD []) := by rw [State.deviceAct_eq]
@[simp] theorem State.deviceAct_status : s.deviceAct.status = s.status := by rw [State.deviceAct_eq]
@[simp] theorem State.deviceAct_out : s.deviceAct.out = s.out := by rw [State.deviceAct_eq]
@[simp] theorem State.deviceAct_kbdRequests : s.deviceAct.kbdRequests = s.kbdRequests := by rw [State.deviceAct_eq]
@[simp] theorem State.deviceAct_deviceInputs : s.deviceAct.deviceInputs = s.deviceInputs.tail := by
  rw [State.deviceAct_eq]

/-! ## readyToFetch and withFetchWord -/

@[simp] theorem State.readyToFetch_cfg : s.readyToFetch.cfg = s.cfg := by
  unfold State.readyToFetch; split <;> rfl

@[simp] theorem State.withFetchWord_cfg (n w : Nat) : (s.withFetchWord n w).cfg = s.cfg := by
  simp [State.withFetchWord]

@[simp] theorem State.withFetchWord_pc (n w : Nat) : (s.withFetchWord n w).pc = s.readyToFetch.pc := rfl

@[simp] theorem State.withFetchWord_status (n w : Nat) : (s.withFetchWord n w).status = s.readyToFetch.status := rfl

end Sys2Proof.Machine
end

