-- ==== Sys2Proof/Laws/Memory.lean ====
section
/-! SUPPORT. The laws of memory: a read after a write to the same address gives the byte written, a write leaves every
other address alone, and every operation keeps the canonical form. The read laws hold of every list, canonical or
not. -/

namespace Sys2Proof.Machine

/-! ## Reading after one write -/

theorem Memory.read_erase_same (m : Memory) (a : Nat) : (Memory.erase a m).read a = unlistedByte := by
  induction m with
  | nil => rfl
  | cons c m ih =>
    by_cases h : c.1 = a
    · simpa [Memory.erase, h] using ih
    · have : (c.1 != a) = true := by simpa using h
      simp only [Memory.erase, List.filter_cons, this, if_true, Memory.read, h, if_false]
      simpa [Memory.erase] using ih

theorem Memory.read_erase_other {a b : Nat} (h : b ≠ a) (m : Memory) : (Memory.erase a m).read b = m.read b := by
  induction m with
  | nil => rfl
  | cons c m ih =>
    by_cases hc : c.1 = a
    · have : c.1 ≠ b := by omega
      simpa [Memory.erase, hc, Memory.read, h.symm] using ih
    · have hc' : (c.1 != a) = true := by simpa using hc
      simp only [Memory.erase, List.filter_cons, hc', if_true, Memory.read]
      rw [show Memory.read (List.filter (fun c => c.1 != a) m) b = Memory.read m b from ih]

theorem Memory.not_mem_erase (m : Memory) (a : Nat) : ∀ c ∈ Memory.erase a m, c.1 ≠ a := by
  intro c hc
  simpa [Memory.erase] using (List.mem_filter.mp hc).2

theorem Memory.read_insert_same (a : Nat) (b : Byte) {m : Memory} (h : ∀ c ∈ m, c.1 ≠ a) :
    (Memory.insert a b m).read a = b := by
  induction m with
  | nil => simp [Memory.insert, Memory.read]
  | cons c m ih =>
    have hc : c.1 ≠ a := h c (by simp)
    by_cases hlt : a < c.1
    · simp [Memory.insert, hlt, Memory.read]
    · simp only [Memory.insert, hlt, if_false, Memory.read, hc]
      exact ih fun d hd => h d (by simp [hd])

theorem Memory.read_insert_other {a e : Nat} (h : e ≠ a) (b : Byte) (m : Memory) :
    (Memory.insert a b m).read e = m.read e := by
  induction m with
  | nil => simp [Memory.insert, Memory.read, h.symm]
  | cons c m ih =>
    by_cases hlt : a < c.1
    · simp [Memory.insert, hlt, Memory.read, h.symm]
    · simp only [Memory.insert, hlt, if_false, Memory.read, ih]

/-- One byte reads back; every other byte is unchanged. -/
theorem Memory.read_write (m : Memory) (a e : Nat) (b : Byte) :
    (m.write a b).read e = if e = a then b else m.read e := by
  unfold Memory.write
  by_cases he : e = a
  · subst he
    split
    · rename_i h
      simp [Memory.read_erase_same, h]
    · simp [Memory.read_insert_same _ _ (Memory.not_mem_erase m e)]
  · rw [if_neg he]
    split
    · exact Memory.read_erase_other he m
    · rw [Memory.read_insert_other he, Memory.read_erase_other he]

@[simp] theorem Memory.read_write_same (m : Memory) (a : Nat) (b : Byte) : (m.write a b).read a = b := by
  simp [Memory.read_write]

theorem Memory.read_write_other (m : Memory) {a e : Nat} (h : e ≠ a) (b : Byte) : (m.write a b).read e = m.read e := by
  simp [Memory.read_write, h]

/-- Consecutive bytes read back, and every address outside them is unchanged. -/
theorem Memory.read_writeList (m : Memory) (a e : Nat) (bs : List Byte) :
    (m.writeList a bs).read e =
      if h : a ≤ e ∧ e < a + bs.length then bs[e - a]'(by omega) else m.read e := by
  induction bs generalizing m a with
  | nil =>
    simp only [Memory.writeList, List.length_nil, Nat.add_zero]
    rw [dif_neg (by omega)]
  | cons b bs ih =>
    simp only [Memory.writeList, ih, List.length_cons]
    by_cases he : e = a
    · subst he
      simp
    · by_cases h : a + 1 ≤ e ∧ e < a + 1 + bs.length
      · rw [dif_pos h, dif_pos (by omega)]
        have : e - a = (e - (a + 1)) + 1 := by omega
        simp [this]
      · rw [dif_neg h, dif_neg (by omega), Memory.read_write_other _ he]

/-! ## The canonical form -/

theorem Memory.wf_erase {m : Memory} (h : m.wf) (a : Nat) : (Memory.erase a m).wf :=
  ⟨h.1.sublist List.filter_sublist, fun c hc => h.2 c (List.mem_filter.mp hc).1⟩

theorem Memory.mem_insert {a : Nat} {b : Byte} {m : Memory} {c : Host.Cell} (h : c ∈ Memory.insert a b m) :
    c = (a, b) ∨ c ∈ m := by
  induction m with
  | nil => simpa [Memory.insert] using h
  | cons d m ih =>
    by_cases hlt : a < d.1
    · simpa [Memory.insert, hlt] using h
    · simp only [Memory.insert, hlt, if_false, List.mem_cons] at h ⊢
      rcases h with h | h
      · exact .inr (.inl h)
      · exact (ih h).imp id .inr

theorem Memory.wf_insert {a : Nat} {b : Byte} {m : Memory} (hm : m.wf) (hb : b ≠ unlistedByte)
    (ha : ∀ c ∈ m, c.1 ≠ a) : (Memory.insert a b m).wf := by
  refine ⟨?_, fun c hc => ?_⟩
  · induction m with
    | nil => simp [Memory.insert]
    | cons d m ih =>
      have hd := List.pairwise_cons.mp hm.1
      by_cases hlt : a < d.1
      · simp only [Memory.insert, hlt, if_true, List.pairwise_cons]
        refine ⟨fun c hc => ?_, hd⟩
        rcases List.mem_cons.mp hc with rfl | hc
        · exact hlt
        · exact Nat.lt_trans hlt (hd.1 c hc)
      · simp only [Memory.insert, hlt, if_false, List.pairwise_cons]
        refine ⟨fun c hc => ?_, ih ⟨hd.2, fun c hc => hm.2 c (by simp [hc])⟩ fun c hc => ha c (by simp [hc])⟩
        rcases Memory.mem_insert hc with rfl | hc
        · have := ha d (by simp)
          simp only
          omega
        · exact hd.1 c hc
  · rcases Memory.mem_insert hc with rfl | hc
    · exact hb
    · exact hm.2 c hc

theorem Memory.wf_write {m : Memory} (h : m.wf) (a : Nat) (b : Byte) : (m.write a b).wf := by
  unfold Memory.write
  split
  · exact Memory.wf_erase h a
  · exact Memory.wf_insert (Memory.wf_erase h a) ‹_› (Memory.not_mem_erase m a)

theorem Memory.wf_writeList {m : Memory} (h : m.wf) (a : Nat) (bs : List Byte) : (m.writeList a bs).wf := by
  induction bs generalizing m a with
  | nil => exact h
  | cons b bs ih => exact ih (Memory.wf_write h a b) (a + 1)

/-- A write lists no address but the one written. -/
theorem Memory.mem_write {m : Memory} {a : Nat} {b : Byte} {c : Host.Cell} (h : c ∈ m.write a b) :
    c.1 = a ∨ c ∈ m := by
  unfold Memory.write at h
  split at h
  · exact .inr (List.mem_filter.mp h).1
  · rcases Memory.mem_insert h with rfl | h
    · exact .inl rfl
    · exact .inr (List.mem_filter.mp h).1

theorem Memory.mem_writeList {m : Memory} {a : Nat} {bs : List Byte} {c : Host.Cell} (h : c ∈ m.writeList a bs) :
    (a ≤ c.1 ∧ c.1 < a + bs.length) ∨ c ∈ m := by
  induction bs generalizing m a with
  | nil => exact .inr h
  | cons b bs ih =>
    simp only [List.length_cons]
    rcases ih h with h | h
    · exact .inl (by omega)
    · rcases Memory.mem_write h with h | h
      · exact .inl (by omega)
      · exact .inr h

/-- Canonical memories that read the same everywhere are equal: the canonical form is a normal form. -/
theorem Memory.ext_of_wf {m n : Memory} (hm : m.wf) (hn : n.wf) (h : ∀ a, m.read a = n.read a) : m = n := by
  have read_none : ∀ {m : Memory} {a : Nat}, (∀ c ∈ m, a < c.1) → m.read a = unlistedByte := by
    intro m a hlt
    induction m with
    | nil => rfl
    | cons c m ih =>
      have hc := hlt c (by simp)
      simp only [Memory.read, if_neg (show c.1 ≠ a by omega)]
      exact ih fun d hd => hlt d (by simp [hd])
  induction m generalizing n with
  | nil =>
    cases n with
    | nil => rfl
    | cons c n =>
      exact absurd (by simpa [Memory.read] using (h c.1).symm) (hn.2 c (by simp))
  | cons c m ih =>
    have hc := List.pairwise_cons.mp hm.1
    cases n with
    | nil => exact absurd (by simpa [Memory.read] using h c.1) (hm.2 c (by simp))
    | cons d n =>
      have hd := List.pairwise_cons.mp hn.1
      have hcd : c.1 = d.1 := by
        by_contra hne
        rcases Nat.lt_or_gt_of_ne hne with hlt | hlt
        · have := h c.1
          simp only [Memory.read, if_true] at this
          rw [if_neg (Ne.symm hne), read_none fun e he => Nat.lt_trans hlt (hd.1 e he)] at this
          exact hm.2 c (by simp) this
        · have := h d.1
          simp only [Memory.read, if_true] at this
          rw [if_neg hne, read_none fun e he => Nat.lt_trans hlt (hc.1 e he)] at this
          exact hn.2 d (by simp) this.symm
      have hcd2 : c.2 = d.2 := by simpa [Memory.read, hcd] using h c.1
      have htail : m = n := by
        refine ih ⟨hc.2, fun e he => hm.2 e (by simp [he])⟩ ⟨hd.2, fun e he => hn.2 e (by simp [he])⟩ fun a => ?_
        by_cases ha : a = c.1
        · subst ha
          rw [read_none hc.1, hcd, read_none hd.1]
        · have := h a
          simp only [Memory.read, if_neg (Ne.symm ha), if_neg (show d.1 ≠ a by omega)] at this
          exact this
      rw [htail, show c = d from Prod.ext hcd hcd2]

/-! ## The device's writes (R58) -/

theorem deviceWrite_wf (c : Config) {m : Memory} (h : m.wf) (ws : List Host.Cell) : (deviceWrite c m ws).wf := by
  induction ws generalizing m with
  | nil => exact h
  | cons w ws ih =>
    simp only [deviceWrite]
    split
    · exact ih (Memory.wf_write h _ _)
    · exact ih h

/-- Outside the window the device's writes change nothing. -/
theorem read_deviceWrite (c : Config) (m : Memory) (ws : List Host.Cell) {a : Nat}
    (h : ¬(c.devmapBase ≤ a ∧ a < c.devmapEnd)) : (deviceWrite c m ws).read a = m.read a := by
  induction ws generalizing m with
  | nil => rfl
  | cons w ws ih =>
    simp only [deviceWrite, ih]
    split
    · rename_i hw
      exact Memory.read_write_other m (by intro e; exact h (by rw [e]; exact hw)) w.2
    · rfl

theorem mem_deviceWrite {c : Config} {m : Memory} {ws : List Host.Cell} {d : Host.Cell}
    (h : d ∈ deviceWrite c m ws) : (c.devmapBase ≤ d.1 ∧ d.1 < c.devmapEnd) ∨ d ∈ m := by
  induction ws generalizing m with
  | nil => exact .inr h
  | cons w ws ih =>
    simp only [deviceWrite] at h
    rcases ih h with h | h
    · exact .inl h
    · split at h
      · rename_i hw
        rcases Memory.mem_write h with h | h
        · exact .inl (by rw [h]; exact hw)
        · exact .inr h
      · exact .inr h

/-! ## The same laws through the state's read of one byte -/

theorem State.byteAt_putBytes (s : State) (a e : Nat) (bs : List Byte) :
    (s.putBytes a bs).byteAt e =
      if h : a ≤ e ∧ e < a + bs.length then bs[e - a]'(by omega) else s.byteAt e :=
  Memory.read_writeList s.mem a e bs

theorem State.byteAt_deviceAct (s : State) {a : Nat} (h : ¬s.inWindow a) : s.deviceAct.byteAt a = s.byteAt a := by
  simpa [State.byteAt] using read_deviceWrite s.cfg s.mem _ h

end Sys2Proof.Machine
end

