-- ==== Sys2Proof/Laws/Access.lean ====
section
/-! SUPPORT. One lemma per shared operation that says everything it can do: the access primitives, the stack
primitives, raising a fault and committing. -/

namespace Sys2Proof.Machine

/-! ## Except -/

@[simp] theorem bind_ok {α β : Type} (a : α) (f : α → Except Raised β) : (Except.ok a >>= f) = f a := rfl

@[simp] theorem bind_error {α β : Type} (e : Raised) (f : α → Except Raised β) :
    ((Except.error e : Except Raised α) >>= f) = .error e := rfl

/-! ## Committing -/

@[simp] theorem finish_ok (s t : State) : finish s (.ok t) = .next t := rfl

@[simp] theorem finish_error (s : State) (e : Raised) : finish s (.error e) = .next (s.afterFault e) := rfl

@[simp] theorem raiseFault_eq (s : State) (e : Raised) : raiseFault e s = .next (s.afterFault e) := rfl

/-- An instruction either commits what its copy of the state became, or only records the fault (R202). -/
theorem finish_cases {s u : State} {r : Except Raised State} (h : finish s r = .next u) :
    r = .ok u ∨ ∃ e, r = .error e ∧ u = s.afterFault e := by
  cases r with
  | ok t => exact .inl (by simpa using h)
  | error e => exact .inr ⟨e, rfl, by simpa using h.symm⟩

theorem finish_next (s : State) (r : Except Raised State) : ∃ t, finish s r = .next t := by
  cases r <;> exact ⟨_, rfl⟩

/-! ## The checks -/

theorem checkBounds_eq (s : State) (a n : Nat) :
    checkBounds s a n = if s.cfg.memSize < a + n then .error ⟨.outOfBounds, max a s.cfg.memSize⟩ else .ok () := rfl

/-- The first descriptor-table address of a range is in the range, and no earlier one is in the table. -/
theorem firstInDdt_some {s : State} {a n d : Nat} (h : firstInDdt s a n = some d) :
    a ≤ d ∧ d < a + n ∧ s.inDdt d ∧ ∀ e, a ≤ e → e < d → ¬s.inDdt e := by
  induction n generalizing a with
  | zero => simp [firstInDdt] at h
  | succ n ih =>
    simp only [firstInDdt] at h
    split at h
    · obtain rfl : a = d := by simpa using h
      exact ⟨Nat.le_refl _, by omega, ‹_›, fun e h1 h2 => by omega⟩
    · obtain ⟨h1, h2, h3, h4⟩ := ih h
      refine ⟨by omega, by omega, h3, fun e h5 h6 => ?_⟩
      by_cases he : e = a
      · subst he; assumption
      · exact h4 e (by omega) h6

theorem firstInDdt_none {s : State} {a n : Nat} :
    firstInDdt s a n = none ↔ ∀ e, a ≤ e → e < a + n → ¬s.inDdt e := by
  induction n generalizing a with
  | zero => simp only [firstInDdt, true_iff]; intro e h1 h2; omega
  | succ n ih =>
    simp only [firstInDdt]
    split
    · rename_i hin
      simp only [reduceCtorEq, false_iff]
      exact fun h => h a (Nat.le_refl _) (by omega) hin
    · rename_i hin
      rw [ih]
      constructor
      · intro h e h1 h2
        by_cases he : e = a
        · subst he; exact hin
        · exact h e (by omega) (by omega)
      · exact fun h e h1 h2 => h e (by omega) (by omega)

/-! ## MemRead and MemWrite -/

theorem memRead1_eq (s : State) (a : Word) :
    memRead1 s a = match readFault s a.toNat with
      | some e => .error e
      | none => .ok (s.byteAt a.toNat) := by
  unfold memRead1 readFault checkBounds
  by_cases h : s.cfg.memSize ≤ a.toNat
  · rw [if_pos (by omega), if_pos h, Nat.max_eq_left h]; rfl
  · rw [if_neg (by omega), if_neg h]; rfl

theorem memRead4_ok {s : State} {a : Word} (h : a.toNat + 4 ≤ s.cfg.memSize) :
    memRead4 s a = .ok (s.wordAt a.toNat) := by
  unfold memRead4 checkBounds
  rw [if_neg (by omega)]; rfl

theorem memRead4_error {s : State} {a : Word} (h : s.cfg.memSize < a.toNat + 4) :
    memRead4 s a = .error ⟨.outOfBounds, max a.toNat s.cfg.memSize⟩ := by
  unfold memRead4 checkBounds
  rw [if_pos h]; rfl

theorem memWrite1_eq (s : State) (a : Word) (b : Byte) :
    memWrite1 s a b = match writeFault s a.toNat with
      | some e => .error e
      | none => .ok { s with mem := s.mem.write a.toNat b } := by
  unfold memWrite1 memWrite writeFault checkBounds checkDescriptor
  by_cases h : s.cfg.memSize ≤ a.toNat
  · rw [if_pos (by simpa using by omega), if_pos h, Nat.max_eq_left h]; rfl
  · rw [if_neg (by simpa using by omega), if_neg h]
    by_cases hd : s.inDdt a.toNat
    · rw [if_pos hd]
      simp only [List.length_singleton, firstInDdt, if_pos hd, bind_ok, bind_error]
    · rw [if_neg hd]
      simp only [List.length_singleton, firstInDdt, if_neg hd, bind_ok, State.putBytes, Memory.writeList]

theorem memWrite_ok {s : State} {a : Word} {bs : List Byte} (h : a.toNat + bs.length ≤ s.cfg.memSize)
    (hd : ∀ e, a.toNat ≤ e → e < a.toNat + bs.length → ¬s.inDdt e) :
    memWrite s a bs = .ok (s.putBytes a.toNat bs) := by
  unfold memWrite checkBounds checkDescriptor
  rw [if_neg (by omega), firstInDdt_none.mpr hd]; rfl

theorem memWrite_outOfBounds {s : State} {a : Word} {bs : List Byte} (h : s.cfg.memSize < a.toNat + bs.length) :
    memWrite s a bs = .error ⟨.outOfBounds, max a.toNat s.cfg.memSize⟩ := by
  unfold memWrite checkBounds
  rw [if_pos h]; rfl

theorem memWrite_descriptor {s : State} {a : Word} {bs : List Byte} (h : a.toNat + bs.length ≤ s.cfg.memSize) {d : Nat}
    (hd : firstInDdt s a.toNat bs.length = some d) : memWrite s a bs = .error ⟨.descriptorWrite, d⟩ := by
  unfold memWrite checkBounds checkDescriptor
  rw [if_neg (by omega), hd]; rfl

/-- A write that succeeds stores exactly its bytes, at addresses that exist and are outside the table. -/
theorem memWrite_cases {s t : State} {a : Word} {bs : List Byte} (h : memWrite s a bs = .ok t) :
    t = s.putBytes a.toNat bs ∧ a.toNat + bs.length ≤ s.cfg.memSize ∧
    ∀ e, a.toNat ≤ e → e < a.toNat + bs.length → ¬s.inDdt e := by
  by_cases hb : s.cfg.memSize < a.toNat + bs.length
  · rw [memWrite_outOfBounds hb] at h; cases h
  · cases hd : firstInDdt s a.toNat bs.length with
    | some d => rw [memWrite_descriptor (by omega) hd] at h; cases h
    | none =>
      have hd' := firstInDdt_none.mp hd
      rw [memWrite_ok (by omega) hd'] at h
      exact ⟨by simpa using h.symm, by omega, hd'⟩

@[simp] theorem wordBytes_length (v : Word) : (wordBytes v).length = 4 := rfl

@[simp] theorem pushOrder_length (v : Word) : (pushOrder v).length = 4 := rfl

/-! ## Addresses -/

theorem pushAddr_zero (sp : Word) : pushAddr sp 0 = sp.toNat := by simp [pushAddr]

theorem pushAddr_sub (sp : Word) (n i : Nat) : pushAddr (sp - BitVec.ofNat 32 n) i = pushAddr sp (n + i) := by
  unfold pushAddr
  rw [BitVec.ofNat_add]
  congr 1
  ring

theorem sub_ofNat_succ (sp : Word) (n : Nat) : sp - BitVec.ofNat 32 (n + 1) = sp - 1 - BitVec.ofNat 32 n := by
  rw [BitVec.ofNat_add, show BitVec.ofNat 32 1 = (1 : Word) from rfl]
  ring

theorem pushAddr_inj {sp : Word} {i j : Nat} (hi : i < 2 ^ 32) (hj : j < 2 ^ 32) (h : pushAddr sp i = pushAddr sp j) :
    i = j := by
  unfold pushAddr at h
  have h1 := BitVec.eq_of_toNat_eq h
  have h2 : BitVec.ofNat 32 i = BitVec.ofNat 32 j := by
    have := congrArg (fun v => sp - v) h1
    simpa using this
  have h3 := congrArg BitVec.toNat h2
  rwa [BitVec.toNat_ofNat, BitVec.toNat_ofNat, Nat.mod_eq_of_lt hi, Nat.mod_eq_of_lt hj] at h3

/-- A pop after `n` pushed bytes meets them in reverse order. -/
theorem popAddr_sub (sp : Word) {n i : Nat} (h : i < n) : popAddr (sp - BitVec.ofNat 32 n) i = pushAddr sp (n - 1 - i) := by
  unfold popAddr pushAddr
  congr 1
  have : BitVec.ofNat 32 n = BitVec.ofNat 32 (n - 1 - i) + BitVec.ofNat 32 (i + 1) := by
    rw [← BitVec.ofNat_add]; congr 1; omega
  rw [this]
  ring

theorem popAddr_add (sp : Word) (n i : Nat) : popAddr (sp + BitVec.ofNat 32 n) i = popAddr sp (n + i) := by
  unfold popAddr
  congr 1
  rw [Nat.add_assoc, BitVec.ofNat_add n (i + 1), BitVec.add_assoc]

/-! ## Pushing a list of bytes -/

/-- Push bytes one after another; a `Push32` is one of four bytes. -/
def pushList : State → List Byte → Except Raised State
  | s, [] => .ok s
  | s, b :: bs => do
    let t ← pushByte s b
    pushList t bs

/-- Memory with bytes written from an address downward, modulo `2^32`. -/
def Memory.writeDown (m : Memory) (sp : Word) : List Byte → Memory
  | [] => m
  | b :: bs => Memory.writeDown (m.write sp.toNat b) (sp - 1) bs

theorem push32_eq_pushList (s : State) (v : Word) : push32 s v = pushList s (pushOrder v) := by
  unfold push32 pushOrder
  simp only [pushList]
  cases h3 : pushByte s (byteOf v 3) with
  | error e => rfl
  | ok s3 =>
    simp only [bind_ok]
    cases h2 : pushByte s3 (byteOf v 2) with
    | error e => rfl
    | ok s2 =>
      simp only [bind_ok]
      cases h1 : pushByte s2 (byteOf v 1) with
      | error e => rfl
      | ok s1 =>
        simp only [bind_ok]
        cases pushByte s1 (byteOf v 0) <;> rfl

theorem pushList_append (s : State) (bs cs : List Byte) :
    pushList s (bs ++ cs) = (pushList s bs >>= fun t => pushList t cs) := by
  induction bs generalizing s with
  | nil => rfl
  | cons b bs ih =>
    simp only [List.cons_append, pushList]
    cases pushByte s b with
    | error e => rfl
    | ok t => simp [ih]

theorem pushByte_eq (s : State) (b : Byte) :
    pushByte s b = match writeFault s s.sp.toNat with
      | some e => .error e
      | none => .ok { s with mem := s.mem.write s.sp.toNat b, sp := s.sp - 1 } := by
  unfold pushByte
  rw [memWrite1_eq]
  cases writeFault s s.sp.toNat <;> rfl

theorem writeFault_none {s : State} {a : Nat} : writeFault s a = none ↔ s.writable a := by
  unfold writeFault State.writable
  split
  · simp; omega
  · split <;> simp_all

theorem readFault_none {s : State} {a : Nat} : readFault s a = none ↔ a < s.cfg.memSize := by
  unfold readFault
  split <;> simp <;> omega

theorem firstPushFault_none {s : State} {n : Nat} : firstPushFault s n = none ↔ s.canPush n := by
  simp [firstPushFault, List.findSome?_eq_none_iff, writeFault_none]

theorem firstPopFault_none {s : State} {sp : Word} {n : Nat} : firstPopFault s sp n = none ↔ s.canPopFrom sp n := by
  simp [firstPopFault, List.findSome?_eq_none_iff, readFault_none]

theorem firstPushFault_succ (s : State) (n : Nat) (b : Byte) :
    firstPushFault s (n + 1) = match writeFault s s.sp.toNat with
      | some e => some e
      | none => firstPushFault { s with mem := s.mem.write s.sp.toNat b, sp := s.sp - 1 } n := by
  unfold firstPushFault
  rw [List.range_succ_eq_map, List.findSome?_cons, pushAddr_zero]
  cases writeFault s s.sp.toNat with
  | some e => rfl
  | none =>
    simp only [List.findSome?_map, Function.comp_def]
    congr 1
    funext i
    rw [show s.sp - 1 = s.sp - BitVec.ofNat 32 1 from rfl, pushAddr_sub, Nat.add_comm]
    rfl

/-- All that pushing bytes can do: the first byte that cannot be written decides the fault; otherwise the bytes lie
below `sp` and `sp` is lowered by their number. -/
theorem pushList_eq (s : State) (bs : List Byte) :
    pushList s bs = match firstPushFault s bs.length with
      | some e => .error e
      | none => .ok { s with mem := s.mem.writeDown s.sp bs, sp := s.sp - BitVec.ofNat 32 bs.length } := by
  induction bs generalizing s with
  | nil => simp [pushList, firstPushFault, Memory.writeDown]
  | cons b bs ih =>
    rw [List.length_cons, firstPushFault_succ s bs.length b]
    simp only [pushList, pushByte_eq]
    cases hw : writeFault s s.sp.toNat with
    | some e => rfl
    | none =>
      simp only [bind_ok, ih]
      cases firstPushFault _ bs.length with
      | some e => rfl
      | none =>
        simp only [Memory.writeDown]
        rw [sub_ofNat_succ]

theorem pushList_ok {s : State} {bs : List Byte} (h : s.canPush bs.length) :
    pushList s bs = .ok { s with mem := s.mem.writeDown s.sp bs, sp := s.sp - BitVec.ofNat 32 bs.length } := by
  rw [pushList_eq, firstPushFault_none.mpr h]

/-- `Push32` in one equation (R47). -/
theorem push32_eq (s : State) (v : Word) :
    push32 s v = match firstPushFault s 4 with
      | some e => .error e
      | none => .ok { s with mem := s.mem.writeDown s.sp (pushOrder v), sp := s.sp - 4 } := by
  rw [push32_eq_pushList, pushList_eq]; rfl

theorem push32_ok {s : State} (h : s.canPush 4) (v : Word) :
    push32 s v = .ok { s with mem := s.mem.writeDown s.sp (pushOrder v), sp := s.sp - 4 } := by
  rw [push32_eq, firstPushFault_none.mpr h]

/-- A push that succeeds had room for its four bytes. -/
theorem push32_cases {s t : State} {v : Word} (h : push32 s v = .ok t) :
    s.canPush 4 ∧ t = { s with mem := s.mem.writeDown s.sp (pushOrder v), sp := s.sp - 4 } := by
  rw [push32_eq] at h
  cases hf : firstPushFault s 4 with
  | some e => rw [hf] at h; cases h
  | none =>
    rw [hf] at h
    exact ⟨firstPushFault_none.mp hf, by simpa using h.symm⟩

/-! ## Reading what was pushed -/

theorem Memory.read_writeDown_other {m : Memory} {sp : Word} {bs : List Byte} {a : Nat}
    (h : ∀ i < bs.length, a ≠ pushAddr sp i) : (m.writeDown sp bs).read a = m.read a := by
  induction bs generalizing m sp with
  | nil => rfl
  | cons b bs ih =>
    simp only [Memory.writeDown]
    rw [ih, Memory.read_write_other]
    · simpa [pushAddr_zero] using h 0 (by simp)
    · intro i hi
      have := h (1 + i) (by simp; omega)
      rwa [← pushAddr_sub] at this

theorem Memory.read_writeDown {m : Memory} {sp : Word} {bs : List Byte} (hl : bs.length ≤ 2 ^ 32) (i : Nat)
    (hi : i < bs.length) : (m.writeDown sp bs).read (pushAddr sp i) = bs[i] := by
  induction bs generalizing m sp i with
  | nil => simp at hi
  | cons b bs ih =>
    simp only [List.length_cons] at hi hl
    simp only [Memory.writeDown]
    cases i with
    | zero =>
      rw [Memory.read_writeDown_other]
      · simp [pushAddr_zero]
      · intro j hj h
        rw [show sp - 1 = sp - BitVec.ofNat 32 1 from rfl, pushAddr_sub] at h
        have := pushAddr_inj (by omega) (by omega) h
        omega
    | succ i =>
      have := ih (m := m.write sp.toNat b) (sp := sp - 1) (by omega) i (by omega)
      rw [show sp - 1 = sp - BitVec.ofNat 32 1 from rfl, pushAddr_sub, Nat.add_comm 1 i] at this
      simpa using this

theorem holdsPushed_writeDown (s : State) {bs : List Byte} (hl : bs.length ≤ 2 ^ 32) :
    HoldsPushed s bs (s.mem.writeDown s.sp bs) :=
  ⟨fun i hi => Memory.read_writeDown hl i hi, fun _ h => Memory.read_writeDown_other h⟩

theorem Memory.writeDown_append (m : Memory) (sp : Word) (bs cs : List Byte) :
    m.writeDown sp (bs ++ cs) = (m.writeDown sp bs).writeDown (sp - BitVec.ofNat 32 bs.length) cs := by
  induction bs generalizing m sp with
  | nil => simp [Memory.writeDown]
  | cons b bs ih =>
    simp only [List.cons_append, Memory.writeDown, ih, List.length_cons]
    rw [sub_ofNat_succ]

theorem Memory.wf_writeDown {m : Memory} (h : m.wf) (sp : Word) (bs : List Byte) : (m.writeDown sp bs).wf := by
  induction bs generalizing m sp with
  | nil => exact h
  | cons b bs ih => exact ih (Memory.wf_write h _ _) _

theorem Memory.mem_writeDown {m : Memory} {sp : Word} {bs : List Byte} {c : Host.Cell} (h : c ∈ m.writeDown sp bs) :
    (∃ i < bs.length, c.1 = pushAddr sp i) ∨ c ∈ m := by
  induction bs generalizing m sp with
  | nil => exact .inr h
  | cons b bs ih =>
    simp only [Memory.writeDown] at h
    rcases ih h with ⟨i, hi, he⟩ | h
    · rw [show sp - 1 = sp - BitVec.ofNat 32 1 from rfl, pushAddr_sub] at he
      exact .inl ⟨1 + i, by simp; omega, he⟩
    · rcases Memory.mem_write h with h | h
      · exact .inl ⟨0, by simp, by rw [h, pushAddr_zero]⟩
      · exact .inr h

/-! ## Popping -/

theorem popByte_eq (s : State) :
    popByte s = match readFault s (popAddr s.sp 0) with
      | some e => .error e
      | none => .ok (s.byteAt (popAddr s.sp 0), { s with sp := s.sp + 1 }) := by
  unfold popByte
  rw [show popAddr s.sp 0 = (s.sp + 1).toNat from rfl]
  simp only [memRead1_eq]
  rw [show readFault { s with sp := s.sp + 1 } (s.sp + 1).toNat = readFault s (s.sp + 1).toNat from rfl]
  cases readFault s (s.sp + 1).toNat <;> rfl

/-- `Pop32` in one equation (R48). -/
theorem pop32_eq (s : State) :
    pop32 s = match firstPopFault s s.sp 4 with
      | some e => .error e
      | none => .ok (popWord s s.sp, { s with sp := s.sp + 4 }) := by
  have step1 : ∀ n, popAddr (s.sp + 1) n = popAddr s.sp (n + 1) := fun n => by
    rw [show s.sp + 1 = s.sp + BitVec.ofNat 32 1 from rfl, popAddr_add, Nat.add_comm]
  have step2 : ∀ n, popAddr (s.sp + 1 + 1) n = popAddr s.sp (n + 2) := fun n => by
    rw [show s.sp + 1 + 1 = s.sp + BitVec.ofNat 32 2 by rw [BitVec.add_assoc]; rfl, popAddr_add, Nat.add_comm]
  have step3 : ∀ n, popAddr (s.sp + 1 + 1 + 1) n = popAddr s.sp (n + 3) := fun n => by
    rw [show s.sp + 1 + 1 + 1 = s.sp + BitVec.ofNat 32 3 by rw [BitVec.add_assoc, BitVec.add_assoc]; rfl,
      popAddr_add, Nat.add_comm]
  have hsp : s.sp + 1 + 1 + 1 + 1 = s.sp + 4 := by rw [BitVec.add_assoc, BitVec.add_assoc, BitVec.add_assoc]; rfl
  have range4 : List.range 4 = [0, 1, 2, 3] := rfl
  have rf : ∀ (v : Word) (a : Nat), readFault { s with sp := v } a = readFault s a := fun _ _ => rfl
  have ba : ∀ (v : Word) (a : Nat), State.byteAt { s with sp := v } a = s.byteAt a := fun _ _ => rfl
  unfold pop32 firstPopFault
  simp only [popByte_eq, range4, List.findSome?_cons, List.findSome?_nil]
  cases h0 : readFault s (popAddr s.sp 0) with
  | some e => rfl
  | none =>
    simp only [bind_ok, rf, ba, step1, Nat.zero_add]
    cases h1 : readFault s (popAddr s.sp 1) with
    | some e => rfl
    | none =>
      simp only [bind_ok, rf, ba, step2, Nat.zero_add]
      cases h2 : readFault s (popAddr s.sp 2) with
      | some e => rfl
      | none =>
        simp only [bind_ok, rf, ba, step3, Nat.zero_add]
        cases h3 : readFault s (popAddr s.sp 3) with
        | some e => rfl
        | none => simp only [bind_ok, hsp]; rfl

theorem pop32_ok {s : State} (h : s.canPopFrom s.sp 4) : pop32 s = .ok (popWord s s.sp, { s with sp := s.sp + 4 }) := by
  rw [pop32_eq, firstPopFault_none.mpr h]

/-- A pop that succeeds read four addresses that exist and changed only `sp`. -/
theorem pop32_cases {s t : State} {v : Word} (h : pop32 s = .ok (v, t)) :
    s.canPopFrom s.sp 4 ∧ v = popWord s s.sp ∧ t = { s with sp := s.sp + 4 } := by
  rw [pop32_eq] at h
  cases hf : firstPopFault s s.sp 4 with
  | some e => rw [hf] at h; cases h
  | none =>
    rw [hf] at h
    have h' : (popWord s s.sp, { s with sp := s.sp + 4 }) = (v, t) := by simpa using h
    cases h'
    exact ⟨firstPopFault_none.mp hf, rfl, rfl⟩

/-- The four bytes of a word put together again. -/
theorem byteOf_append (v : Word) : byteOf v 3 ++ byteOf v 2 ++ byteOf v 1 ++ byteOf v 0 = v := by
  apply BitVec.eq_of_getLsbD_eq
  intro i hi
  simp only [byteOf, BitVec.getLsbD_append, BitVec.getLsbD_extractLsb']
  by_cases h0 : i < 8
  · simp [h0]
  · by_cases h1 : i < 16
    · have : i - 8 < 8 := by omega
      simp [h0, this, show 8 + (i - 8) = i by omega]
    · by_cases h2 : i < 24
      · have a1 : ¬i - 8 < 8 := by omega
        have a2 : i - 8 - 8 < 8 := by omega
        simp [h0, a1, a2, show 16 + (i - 8 - 8) = i by omega]
      · have a1 : ¬i - 8 < 8 := by omega
        have a2 : ¬i - 8 - 8 < 8 := by omega
        have a3 : i - 8 - 8 - 8 < 8 := by omega
        simp [h0, a1, a2, a3, show 24 + (i - 8 - 8 - 8) = i by omega]

/-- A state whose memory holds a word pushed as the bytes `k` to `k + 3` below `sp` pops that word from `sp - (k + 4)`. -/
theorem popWord_pushed {u : State} {sp : Word} {v : Word} {k : Nat}
    (h : ∀ i < 4, u.byteAt (pushAddr sp (k + i)) = byteOf v (3 - i)) :
    popWord u (sp - BitVec.ofNat 32 (k + 4)) = v := by
  have e : ∀ i < 4, popAddr (sp - BitVec.ofNat 32 (k + 4)) i = pushAddr sp (k + (3 - i)) := fun i hi => by
    rw [popAddr_sub _ (by omega)]; congr 1; omega
  unfold popWord
  rw [e 0 (by omega), e 1 (by omega), e 2 (by omega), e 3 (by omega), h _ (by omega), h _ (by omega), h _ (by omega),
    h _ (by omega)]
  exact byteOf_append v

/-! ## Words as their bytes -/

/-- The word read at an address, byte by byte (R44). -/
theorem wordAt_byte (s : State) (a : Nat) : ∀ i < 4, (s.wordAt a).extractLsb' (8 * i) 8 = s.byteAt (a + i) := by
  intro i hi
  unfold State.wordAt
  apply BitVec.eq_of_getLsbD_eq
  intro k hk
  rw [BitVec.getLsbD_extractLsb']
  simp only [BitVec.getLsbD_append]
  match i, hi with
  | 0, _ => simp [hk]
  | 1, _ => simp [hk]
  | 2, _ => simp [hk, show ¬ (16 + k < 8) by omega, show ¬(16 + k - 8 < 8) by omega, show 16 + k - 8 - 8 = k by omega]
  | 3, _ => simp [hk, show ¬ (24 + k < 8) by omega, show ¬(24 + k - 8 < 8) by omega, show ¬(24 + k - 8 - 8 < 8) by omega, show 24 + k - 8 - 8 - 8= k by omega]

/-- The popped word, byte by byte (R48). -/
theorem popWord_byte (s : State) (sp : Word) : ∀ i < 4, (popWord s sp).extractLsb' (8 * i) 8 = s.byteAt (popAddr sp i) := by
  intro i hi
  unfold popWord
  apply BitVec.eq_of_getLsbD_eq
  intro k hk
  rw [BitVec.getLsbD_extractLsb']
  simp only [BitVec.getLsbD_append]
  match i, hi with
  | 0, _ => simp [hk]
  | 1, _ => simp [hk]
  | 2, _ => simp [hk, show ¬ (16 + k < 8) by omega, show ¬(16 + k - 8 < 8) by omega, show 16 + k - 8 - 8 = k by omega]
  | 3, _ => simp [hk, show ¬ (24 + k < 8) by omega, show ¬(24 + k - 8 < 8) by omega, show ¬(24 + k - 8 - 8 < 8) by omega, show 24 + k - 8 - 8 - 8= k by omega]

theorem wordBytes_get (v : Word) (i : Nat) (h : i < 4) : (wordBytes v)[i]'(by simpa using h) = v.extractLsb' (8 * i) 8 := by
  match i, h with
  | 0, _ => rfl
  | 1, _ => rfl
  | 2, _ => rfl
  | 3, _ => rfl

theorem pushOrder_get (v : Word) (i : Nat) (h : i < 4) : (pushOrder v)[i]'(by simpa using h) = v.extractLsb' (24 - 8 * i) 8 := by
  match i, h with
  | 0, _ => rfl
  | 1, _ => rfl
  | 2, _ => rfl
  | 3, _ => rfl

theorem bytesAt_length (s : State) (a n) : (s.bytesAt a n).length = n := by
  induction n generalizing a with
  | zero => rfl
  | succ n ih => simp [State.bytesAt, ih]

theorem bytesAt_get (s : State) (a n i) (h : i < (s.bytesAt a n).length) : (s.bytesAt a n)[i] = s.byteAt (a + i) := by
  induction n generalizing a i with
  | zero => simp [State.bytesAt] at h
  | succ n ih =>
    cases i with
    | zero => rfl
    | succ i =>
      simp only [State.bytesAt, List.getElem_cons_succ]
      rw [ih]; congr 1; omega

/-! ## The first fault of a push or a pop -/

/-- The first index at which the search finds something decides it. -/
theorem findSome_range_first (f : Nat → Option Raised) (n i : Nat) (hi : i < n) (hn : ∀ j < i, f j = none) (e) (he : f i = some e) : (List.range n).findSome? f = some e := by
  induction n with
  | zero => omega
  | succ n ih =>
    rw [List.range_succ, List.findSome?_append]
    by_cases h : i < n
    · rw [ih h]; rfl
    · have : i = n := by omega
      subst this
      have : (List.range i).findSome? f = none := by
        rw [List.findSome?_eq_none_iff]; simpa using hn
      rw [this]; simp [he]

theorem push32_error {s : State} {e} {v} (h : firstPushFault s 4 = some e) : push32 s v = .error e := by
  rw [push32_eq, h]

theorem pop32_error {s : State} {e} (h : firstPopFault s s.sp 4 = some e) : pop32 s = .error e := by
  rw [pop32_eq, h]

/-- The fault of two pops in a row is that of the first, else that of the second. -/
theorem firstPopFault_split {s : State} {sp : Word} {m n : Nat} : firstPopFault s sp (m + n) = (firstPopFault s sp m).or (firstPopFault s (sp + BitVec.ofNat 32 m) n) := by
  unfold firstPopFault
  rw [List.range_add, List.findSome?_append, List.findSome?_map]
  congr 2
  funext i
  simp [popAddr_add]

/-- The same for two pushes. -/
theorem firstPushFault_split {s t : State} {m n : Nat} (hc : t.cfg = s.cfg) (hs : t.sp = s.sp - BitVec.ofNat 32 m) : firstPushFault s (m + n) = (firstPushFault s m).or (firstPushFault t n) := by
  unfold firstPushFault
  rw [List.range_add, List.findSome?_append, List.findSome?_map]
  congr 2
  funext i
  simp only [Function.comp]
  rw [hs, pushAddr_sub]
  unfold writeFault State.inDdt
  rw [hc]

theorem firstPopFault_congr {s t : State} (h : t.cfg = s.cfg) (sp n) : firstPopFault t sp n = firstPopFault s sp n := by
  unfold firstPopFault readFault; rw [h]

theorem firstPushFault_congr {s t : State} (h : t.cfg = s.cfg) (h2 : t.sp = s.sp) (n) : firstPushFault t n = firstPushFault s n := by
  unfold firstPushFault writeFault; unfold State.inDdt; rw [h, h2]

theorem canPush_congr {s t : State} (h : t.cfg = s.cfg) (n) (hs : t.sp = s.sp) : t.canPush n ↔ s.canPush n := by
  unfold State.canPush State.writable State.inDdt; rw [h, hs]

/-- After `m` bytes are pushed, the rest of `m + n` can be. -/
theorem canPush_sub {s t : State} {m n : Nat} (h : s.canPush (m + n)) (hc : t.cfg = s.cfg)
    (hs : t.sp = s.sp - BitVec.ofNat 32 m) : t.canPush n := fun i hi => by
  have := h (m + i) (by omega)
  rw [← pushAddr_sub, ← hs] at this
  unfold State.writable State.inDdt at *
  rw [hc]; exact this

/-- If `m` bytes can be pushed and then `n` more, all can. -/
theorem canPush_add {s t : State} {m n : Nat} (h : s.canPush m) (h2 : t.canPush n) (hc : t.cfg = s.cfg)
    (hs : t.sp = s.sp - BitVec.ofNat 32 m) : s.canPush (m + n) := fun i hi => by
  by_cases him : i < m
  · exact h i him
  · have := h2 (i - m) (by omega)
    rw [hs, pushAddr_sub, show m + (i - m) = i by omega] at this
    unfold State.writable State.inDdt at *
    rw [hc] at this; exact this

end Sys2Proof.Machine
end

