-- ==== Sys2Proof/Laws/Codec.lean ====
section
/-! SUPPORT. The fields of a slot as numbers, the packing of fields, and the opcode map read in both directions. -/

namespace Sys2Proof

/-! ## Fields by bit position -/

theorem modeField_toNat (b : Byte) : (modeField b).toNat = b.toNat / 64 := by
  have := b.isLt
  simp only [modeField, BitVec.extractLsb'_toNat, Nat.shiftRight_eq_div_pow]
  omega

theorem midField_val (b : Byte) : (midField b).val = b.toNat / 8 % 8 := by
  simp only [midField, BitVec.val_toFin, BitVec.extractLsb'_toNat, Nat.shiftRight_eq_div_pow]

theorem lowField_val (b : Byte) : (lowField b).val = b.toNat % 8 := by
  simp only [lowField, BitVec.val_toFin, BitVec.extractLsb'_toNat, Nat.shiftRight_zero]

theorem wideField_val (b : Byte) : (wideField b).val = b.toNat % 16 := by
  simp only [wideField, BitVec.val_toFin, BitVec.extractLsb'_toNat, Nat.shiftRight_zero]

theorem imm16_toNat (w : Slot) : w.imm16.toNat = w.b2.toNat * 256 + w.b3.toNat := by
  have := w.b3.isLt
  simp only [Slot.imm16, BitVec.toNat_append, Nat.shiftLeft_eq]
  rw [← Nat.shiftLeft_eq, Nat.shiftLeft_add_eq_or_of_lt (by omega), Nat.shiftLeft_eq]

/-! ## Packing -/

theorem packFields_toNat (m : BitVec 2) (d b : Gpr) : (packFields m d b).toNat = m.toNat * 64 + d.val * 8 + b.val := by
  have hd := d.isLt
  have hb := b.isLt
  have hm := m.isLt
  have h1 : m.toNat <<< 3 ||| d.val = m.toNat * 8 + d.val := by
    rw [← Nat.shiftLeft_add_eq_or_of_lt (by omega), Nat.shiftLeft_eq]
  have h2 : (m.toNat * 8 + d.val) <<< 3 ||| b.val = (m.toNat * 8 + d.val) * 8 + b.val := by
    rw [← Nat.shiftLeft_add_eq_or_of_lt (by omega), Nat.shiftLeft_eq]
  simp only [packFields, BitVec.toNat_append, BitVec.toNat_ofNat]
  rw [Nat.mod_eq_of_lt (by omega), Nat.mod_eq_of_lt (by omega), h1, h2]
  omega

@[simp] theorem modeField_pack (m : BitVec 2) (d b : Gpr) : modeField (packFields m d b) = m := by
  apply BitVec.eq_of_toNat_eq
  have := m.isLt
  rw [modeField_toNat, packFields_toNat]
  omega

@[simp] theorem midField_pack (m : BitVec 2) (d b : Gpr) : midField (packFields m d b) = d := by
  apply Fin.ext
  rw [midField_val, packFields_toNat]
  omega

@[simp] theorem lowField_pack (m : BitVec 2) (d b : Gpr) : lowField (packFields m d b) = b := by
  apply Fin.ext
  rw [lowField_val, packFields_toNat]
  omega

@[simp] theorem slotOf_imm16 (op : Opcode) (b : Byte) (v : Half) : (slotOf op b v).imm16 = v := by
  apply BitVec.eq_of_toNat_eq
  have := v.isLt
  rw [imm16_toNat]
  simp only [slotOf, BitVec.extractLsb'_toNat, Nat.shiftRight_eq_div_pow]
  omega

/-- The embedded value of a slot, split into its two bytes again. -/
theorem imm16_high (w : Slot) : w.imm16.extractLsb' 8 8 = w.b2 := by
  apply BitVec.eq_of_toNat_eq
  have h2 := w.b2.isLt
  have h3 := w.b3.isLt
  rw [BitVec.extractLsb'_toNat, imm16_toNat, Nat.shiftRight_eq_div_pow]
  omega

theorem imm16_low (w : Slot) : w.imm16.extractLsb' 0 8 = w.b3 := by
  apply BitVec.eq_of_toNat_eq
  have h3 := w.b3.isLt
  rw [BitVec.extractLsb'_toNat, imm16_toNat, Nat.shiftRight_eq_div_pow]
  omega

/-! ## The opcode map -/

@[simp] theorem Opcode.ofByte_toByte (op : Opcode) : Opcode.ofByte op.toByte = some op := by cases op <;> rfl

theorem Opcode.toByte_of_ofByte {b : Byte} {op : Opcode} (h : Opcode.ofByte b = some op) : op.toByte = b := by
  apply BitVec.eq_of_toNat_eq
  unfold Opcode.ofByte at h
  split at h <;> first
    | (rename_i hb; obtain rfl : _ = op := by simpa using h
       rw [hb]; rfl)
    | simp at h

theorem Opcode.ofByte_none {b : Byte} : Opcode.ofByte b = none ↔ b = 0 ∨ 0x14 ≤ b.toNat := by
  have h0 : b = 0 ↔ b.toNat = 0 := ⟨fun h => by rw [h]; rfl, fun h => BitVec.eq_of_toNat_eq h⟩
  rw [h0]
  unfold Opcode.ofByte
  constructor
  · intro h
    by_contra hc
    generalize b.toNat = n at h hc
    have h1 : 1 ≤ n := by omega
    have h2 : n ≤ 19 := by omega
    interval_cases n <;> simp at h
  · intro h
    split <;> first | rfl | omega

@[simp] theorem Metric.ofCode_code (c : Metric) : Metric.ofCode c.code = some c := by cases c <;> rfl

theorem Metric.code_of_ofCode {k : Gpr} {c : Metric} (h : Metric.ofCode k = some c) : c.code = k := by
  revert h; revert k; cases c <;> decide

theorem Metric.ofCode_none {k : Gpr} : Metric.ofCode k = none ↔ k = 7 := by revert k; decide

theorem FileReg.ofIndex_index {k : FileReg} (h : k.pushable = true) : FileReg.ofIndex k.index = some k := by
  cases k with
  | gpr i => simp [FileReg.index, FileReg.ofIndex]
  | sp => rfl
  | fp => rfl
  | pc => simp [FileReg.pushable] at h
  | sr => rfl

theorem FileReg.index_of_ofIndex {k : Fin 16} {r : FileReg} (h : FileReg.ofIndex k = some r) :
    r.index = k ∧ r.pushable = true := by
  unfold FileReg.ofIndex at h
  split at h
  · obtain rfl : _ = r := by simpa using h
    exact ⟨by simp [FileReg.index], rfl⟩
  · split at h
    · obtain rfl : _ = r := by simpa using h
      exact ⟨Fin.ext (by simp_all [FileReg.index]), rfl⟩
    · split at h
      · obtain rfl : _ = r := by simpa using h
        exact ⟨Fin.ext (by simp_all [FileReg.index]), rfl⟩
      · split at h
        · obtain rfl : _ = r := by simpa using h
          exact ⟨Fin.ext (by simp_all [FileReg.index]), rfl⟩
        · simp at h

theorem FileReg.ofIndex_none {k : Fin 16} : FileReg.ofIndex k = none ↔ k.val = 10 ∨ 12 ≤ k.val := by
  revert k; decide

/-! ## What is decoded from what is encoded -/

theorem mk_imm16 (a b : Byte) (v : Half) : (Slot.mk a b (v.extractLsb' 8 8) (v.extractLsb' 0 8)).imm16 = v := by
  apply BitVec.eq_of_toNat_eq
  have := v.isLt
  rw [imm16_toNat]
  simp only [BitVec.extractLsb'_toNat, Nat.shiftRight_eq_div_pow]
  omega

/-- The fields of an encoded `LOD` or `STO`. -/
theorem decodeMem_encodeMem (op d m) : decodeMem (encodeMem op d m) = m ∧ midField (encodeMem op d m).b1 = d ∧ (encodeMem op d m).b0 = op.toByte := by
  cases m with
  | reg b => simp [encodeMem, decodeMem, slotOf]
  | regReg b o => simp [encodeMem, decodeMem]
  | regImm b v => simp [encodeMem, decodeMem, slotOf, mk_imm16]
  | abs v => simp [encodeMem, decodeMem, slotOf, mk_imm16]

/-- The fields of an encoded format A instruction. -/
theorem decodeAlu_encodeAlu (mk op d o) : decodeAlu mk (encodeAlu op d o) = .ok (mk d o) ∧ (encodeAlu op d o).b0 = op.toByte := by
  cases o with
  | reg b => simp [encodeAlu, decodeAlu, slotOf]
  | imm v => simp [encodeAlu, decodeAlu, slotOf, mk_imm16]

/-- The fields of an encoded `JMP` or `CAL`. -/
theorem decodeJump_slotOf (mk op c t) : decodeJump mk (slotOf op (packFields 0 0 (Metric.code c)) t) = .ok (mk c t) := by
  unfold decodeJump
  rw [show lowField (slotOf op (packFields 0 0 (Metric.code c)) t).b1 = Metric.code c from lowField_pack _ _ _]
  simp

theorem Opcode.ofByte_of_eq {w : Slot} {op : Opcode} (h : w.b0 = op.toByte) : Opcode.ofByte w.b0 = some op := by
  rw [h]; simp

/-! ## The used bits of a slot (R87) -/

theorem byte_and_F8 (b : Byte) : b &&& 248#8 = packFields (modeField b) (midField b) 0 := by
  revert b; decide

theorem byte_and_38 (b : Byte) : b &&& 56#8 = packFields 0 (midField b) 0 := by revert b; decide

theorem byte_and_3F (b : Byte) : b &&& 63#8 = packFields 0 (midField b) (lowField b) := by revert b; decide

theorem byte_and_07 (b : Byte) : b &&& 7#8 = packFields 0 0 (lowField b) := by revert b; decide

theorem byte_and_0F (b : Byte) : b &&& 15#8 = BitVec.ofNat 8 (wideField b).val := by revert b; decide

theorem byte_and_00 (b : Byte) : b &&& 0#8 = 0 := by revert b; decide

theorem byte_and_FF (b : Byte) : b &&& 255#8 = b := by revert b; decide

theorem byte_pack (b : Byte) : packFields (modeField b) (midField b) (lowField b) = b := by revert b; decide

theorem slotOf_imm16_eq (w : Slot) (op) (h0 : Opcode.toByte op = w.b0) (b1 : Byte) : slotOf op b1 w.imm16 = {w with b1 := b1} := by
  simp [slotOf, imm16_high, imm16_low, h0]

/-- Encoding what a `LOD` or `STO` slot decodes to clears its ignored bits. -/
theorem encodeMem_decodeMem (w : Slot) (op) (h0 : Opcode.toByte op = w.b0) (hop : op = .lod ∨ op = .sto) :
    encodeMem op (midField w.b1) (decodeMem w) = { b0 := w.b0, b1 := w.b1 &&& (usedBits op w).1, b2 := w.b2 &&& (usedBits op w).2.1,
                                                   b3 := w.b3 &&& (usedBits op w).2.2 } := by
  have hm := (modeField w.b1).isLt
  have hb := byte_pack w.b1
  have hp := byte_and_F8 w.b1
  have hu : usedBits op w = (match (modeField w.b1).toNat with
    | 0 => (0xFF, 0x00, 0x00)
    | 1 => (0xFF, 0x07, 0x00)
    | 2 => (0xFF, 0xFF, 0xFF)
    | _ => (0xF8, 0xFF, 0xFF)) := by rcases hop with rfl | rfl <;> rfl
  rw [hu]
  obtain h | h | h | h : modeField w.b1 = 0#2 ∨ modeField w.b1 = 1#2 ∨ modeField w.b1 = 2#2 ∨ modeField w.b1 = 3#2 := by
    generalize modeField w.b1 = m; revert m; decide
  all_goals rw [h] at hb hp
  · simp [decodeMem, h, encodeMem, slotOf, h0, hb, byte_and_FF]
  · simp [decodeMem, h, encodeMem, h0, hb, byte_and_FF, byte_and_07]
  · simp [decodeMem, h, encodeMem, slotOf_imm16_eq w op h0, hb, byte_and_FF]
  · simp [decodeMem, h, encodeMem, slotOf_imm16_eq w op h0, hp, byte_and_FF]

/-- The same for a format A slot. -/
theorem encodeAlu_decodeAlu (w : Slot) (op) (h0 : Opcode.toByte op = w.b0) (mk i) (h : decodeAlu mk w = .ok i)
   (hu : usedBits op w = (match (modeField w.b1).toNat with
    | 0 => (0xFF, 0x00, 0x00)
    | _ => (0xF8, 0xFF, 0xFF))) (hi : ∀ d o, encode (mk d o) = encodeAlu op d o) :
    encode i = { b0 := w.b0, b1 := w.b1 &&& (usedBits op w).1, b2 := w.b2 &&& (usedBits op w).2.1,
                 b3 := w.b3 &&& (usedBits op w).2.2 } := by
  have hm := (modeField w.b1).isLt
  have hb := byte_pack w.b1
  have hp := byte_and_F8 w.b1
  rw [hu]
  unfold decodeAlu at h
  obtain hx | hx | hx | hx : modeField w.b1 = 0#2 ∨ modeField w.b1 = 1#2 ∨ modeField w.b1 = 2#2 ∨ modeField w.b1 = 3#2 := by
    generalize modeField w.b1 = m; revert m; decide
  all_goals (rw [hx] at hb hp h; simp at h)
  · subst h; rw [hi]; simp [hx, encodeAlu, slotOf, h0, byte_and_FF, hb]
  · subst h; rw [hi]; simp [hx, encodeAlu, slotOf_imm16_eq w op h0, hp, byte_and_FF]

/-- The same for a `JMP` or `CAL` slot. -/
theorem encodeJump_decodeJump (w : Slot) (op) (h0 : Opcode.toByte op = w.b0) (mk i) (h : decodeJump mk w = .ok i)
  (hi : ∀ d o, encode (mk d o) = slotOf op (packFields 0 0 (Metric.code d)) o) :
    encode i = { b0 := w.b0, b1 := w.b1 &&& 7#8, b2 := w.b2, b3 := w.b3 } := by
  unfold decodeJump at h
  split at h
  · rename_i c hc
    have := Metric.code_of_ofCode hc
    simp at h; subst h; rw [hi, slotOf_imm16_eq w op h0, this, byte_and_07]
  · simp at h

theorem usedBits_alu_mode (w : Slot) (op) (h : 2 ≤ (modeField w.b1).toNat)
    (hu : usedBits op w = (match (modeField w.b1).toNat with
    | 0 => (0xFF, 0x00, 0x00)
    | _ => (0xF8, 0xFF, 0xFF))) : modeField (w.b1 &&& (usedBits op w).1) = modeField w.b1 := by
  rw [hu]
  split
  · omega
  · show modeField (w.b1 &&& 248#8) = _
    rw [byte_and_F8]; simp

/-- The decoder answers only well-formed instructions. -/
theorem decode_wellFormed (w : Slot) (i : Instr) (h : decode w = .ok i) : i.wellFormed = true := by
  have push : decodePush w = .ok i → i.wellFormed = true := by
    intro h
    unfold decodePush at h
    split at h
    · cases h; rfl
    · split at h
      · rename_i k hk
        cases h
        exact (FileReg.index_of_ofIndex hk).2
      · cases h
  have alu : ∀ mk : Gpr → AluOperand → Instr, (∀ d o, (mk d o).wellFormed = true) → decodeAlu mk w = .ok i → i.wellFormed = true := by
    intro mk hmk h
    unfold decodeAlu at h; split at h <;> cases h <;> exact hmk _ _
  have jump : ∀ mk : Metric → Half → Instr, (∀ d o, (mk d o).wellFormed = true) → decodeJump mk w = .ok i → i.wellFormed = true := by
    intro mk hmk h
    unfold decodeJump at h; split at h <;> cases h; exact hmk _ _
  unfold decode at h
  split at h <;> first
    | (cases h; rfl)
    | contradiction
    | exact push h
    | exact alu _ (fun _ _ => rfl) h
    | exact jump _ (fun _ _ => rfl) h

end Sys2Proof
end

