-- ==== Sys2Proof/Laws/Asm.lean ====
section
/-! SUPPORT. The encoder block: the label table, patching, well-formed instructions from every parser, one induction
over an assembly, and what an emission or a definition does. -/

namespace Sys2Proof.Asm

@[simp] theorem asm_bind_ok {α β : Type} (a : α) (f : α → Except AsmError β) : (Except.ok a >>= f) = f a := rfl
@[simp] theorem asm_bind_error {α β : Type} (e : AsmError) (f : α → Except AsmError β) :
    ((Except.error e : Except AsmError α) >>= f) = .error e := rfl

/-- A computation that succeeds succeeded in its first part. -/
theorem asm_bind_eq_ok {α β : Type} {x : Except AsmError α} {f : α → Except AsmError β} {b : β} (h : (x >>= f) = .ok b) :
    ∃ a, x = .ok a ∧ f a = .ok b := by
  cases x with
  | error e => cases h
  | ok a => exact ⟨a, rfl, h⟩

/-! ## The label table -/

theorem lookup_setEntry (name n : Token) (e : LabelEntry) (ls : List (Token × LabelEntry)) :
    (setEntry name e ls).lookup n = if n = name then some e else ls.lookup n := by
  induction ls with
  | nil =>
    by_cases h : n = name
    · simp [setEntry, h]
    · simp [setEntry, h]
  | cons l ls ih =>
    obtain ⟨m, f⟩ := l
    simp only [setEntry]
    by_cases hm : m = name
    · subst hm
      by_cases h : n = m
      · simp [h]
      · have : (n == m) = false := by simpa using h
        simp [List.lookup_cons, this, h]
    · rw [if_neg hm, List.lookup_cons, List.lookup_cons, ih]
      by_cases h : n = m
      · subst h; simp [hm]
      · have : (n == m) = false := by simpa using h
        simp [this]

theorem keys_setEntry (name : Token) (e : LabelEntry) (ls : List (Token × LabelEntry)) :
    (setEntry name e ls).map Prod.fst =
      if name ∈ ls.map Prod.fst then ls.map Prod.fst else ls.map Prod.fst ++ [name] := by
  induction ls with
  | nil => simp [setEntry]
  | cons l ls ih =>
    obtain ⟨m, f⟩ := l
    simp only [setEntry]
    by_cases hm : m = name
    · subst hm; simp
    · rw [if_neg hm]
      simp only [List.map_cons, ih, List.mem_cons]
      have : ¬name = m := fun h => hm h.symm
      simp only [this, false_or]
      split <;> simp

theorem nodup_setEntry {name : Token} {e : LabelEntry} {ls : List (Token × LabelEntry)}
    (h : (ls.map Prod.fst).Nodup) : ((setEntry name e ls).map Prod.fst).Nodup := by
  rw [keys_setEntry]
  split
  · exact h
  · rename_i hn
    rw [List.nodup_append]
    exact ⟨h, by simp, fun a ha b hb => by
      obtain rfl : b = name := by simpa using hb
      exact fun hab => hn (hab ▸ ha)⟩

/-! ## Patching -/

@[simp] theorem patchSite_length (a : Half) (buf : List Byte) (k : Nat) : (patchSite a buf k).length = buf.length := by
  simp [patchSite]

theorem getElem?_patchSite (a : Half) (buf : List Byte) (k j : Nat) (h : k + 1 < buf.length) :
    (patchSite a buf k)[j]? =
      if j = k + 1 then some (a.extractLsb' 0 8) else if j = k then some (a.extractLsb' 8 8) else buf[j]? := by
  unfold patchSite
  rw [List.getElem?_set, List.getElem?_set]
  by_cases h1 : j = k + 1
  · subst h1; simp [h]
  · by_cases h2 : j = k
    · subst h2; simp [show j < buf.length by omega]
    · simp [h1, h2, Ne.symm h1, Ne.symm h2]

theorem patchAll_length (a : Half) (sites : List Nat) (buf : List Byte) :
    (sites.foldl (patchSite a) buf).length = buf.length := by
  induction sites generalizing buf with
  | nil => rfl
  | cons k sites ih => simp [ih]

/-- All sites at once: sites are address fields of slots, so they never overlap. -/
theorem getElem?_patchAll (a : Half) (sites : List Nat) (buf : List Byte)
    (h : ∀ k ∈ sites, k % 4 = 2 ∧ k + 1 < buf.length) (j : Nat) :
    (sites.foldl (patchSite a) buf)[j]? =
      if j % 4 = 2 ∧ j ∈ sites then some (a.extractLsb' 8 8)
      else if j % 4 = 3 ∧ j - 1 ∈ sites then some (a.extractLsb' 0 8) else buf[j]? := by
  induction sites generalizing buf with
  | nil => simp
  | cons k sites ih =>
    obtain ⟨hk, hl⟩ := h k (by simp)
    simp only [List.foldl_cons]
    rw [ih _ (fun m hm => by rw [patchSite_length]; exact h m (by simp [hm])), getElem?_patchSite _ _ _ _ hl]
    by_cases h2 : j % 4 = 2
    · have h4 : ¬j = k + 1 := by omega
      simp only [h2, h4, true_and, if_false, List.mem_cons]
      by_cases hm : j ∈ sites
      · simp [hm]
      · simp [hm]
    · by_cases h3 : j % 4 = 3
      · have h4 : ¬j = k := by omega
        have h5 : j = k + 1 ↔ j - 1 = k := by omega
        simp only [h3, h4, h5, List.mem_cons]
        by_cases hm : j - 1 ∈ sites
        · simp [hm]
        · simp [hm]
      · have h4 : ¬j = k := by omega
        have h5 : ¬j = k + 1 := by omega
        simp [h2, h3, h4, h5]

theorem slot_bytes_length (w : Slot) : w.bytes.length = 4 := rfl

/-! ## The instruction parsers give well-formed instructions -/

/-- The instruction of a statement is well-formed; one whose target is a label always is. -/
def AsmInstr.wellFormed : AsmInstr → Bool
  | .plain i => i.wellFormed
  | .jmpLabel _ _ => true
  | .calLabel _ _ => true

theorem pushRegOf_pushable {t : Token} {k : FileReg} (h : pushRegOf t = some k) : k.pushable = true := by
  unfold pushRegOf at h
  split at h
  · cases h; rfl
  · unfold auxNames at h
    simp only [List.lookup_cons, List.lookup_nil] at h
    split at h
    · cases h; rfl
    · split at h
      · cases h; rfl
      · split at h
        · cases h; rfl
        · cases h

theorem parsePsh_wellFormed {ts us : List Token} {i : Instr} (h : parsePsh ts = .ok (i, us)) : i.wellFormed = true := by
  unfold parsePsh at h
  obtain ⟨⟨t, ts1⟩, -, h⟩ := asm_bind_eq_ok h
  dsimp only at h
  split at h
  · obtain ⟨v, -, h⟩ := asm_bind_eq_ok h
    cases h; rfl
  · split at h
    · rename_i k hk
      cases h
      exact pushRegOf_pushable hk
    · cases h

theorem parseAlu_eq {mk : Gpr → AluOperand → Instr} {ts us : List Token} {i : Instr} (h : parseAlu mk ts = .ok (i, us)) : ∃ d o, i = mk d o := by
  unfold parseAlu at h
  obtain ⟨⟨d, ts1⟩, -, h⟩ := asm_bind_eq_ok h
  obtain ⟨⟨t, ts2⟩, -, h⟩ := asm_bind_eq_ok h
  dsimp only at h
  split at h
  · obtain ⟨v, -, h⟩ := asm_bind_eq_ok h
    cases h; exact ⟨_, _, rfl⟩
  · split at h
    · cases h; exact ⟨_, _, rfl⟩
    · cases h

theorem parseLod_wellFormed {ts us : List Token} {i : Instr} (h : parseLod ts = .ok (i, us)) : i.wellFormed = true := by
  unfold parseLod at h
  obtain ⟨⟨d, ts1⟩, -, h⟩ := asm_bind_eq_ok h
  obtain ⟨⟨t, ts2⟩, -, h⟩ := asm_bind_eq_ok h
  dsimp only at h
  split at h
  · obtain ⟨v, -, h⟩ := asm_bind_eq_ok h
    cases h; rfl
  · obtain ⟨⟨m, ts3⟩, -, h⟩ := asm_bind_eq_ok h
    cases h; rfl

theorem asPlain_ok {r : Except AsmError (Instr × List Token)} {a : AsmInstr} {us : List Token} (h : asPlain r = .ok (a, us)) :
    ∃ i, r = .ok (i, us) ∧ a = .plain i := by
  unfold asPlain at h
  obtain ⟨⟨i, ts⟩, hr, h⟩ := asm_bind_eq_ok h
  cases h; exact ⟨i, hr, rfl⟩

theorem parseInstr_wellFormed {cfg : AsmConfig} {op : Opcode} {ts us : List Token} {a : AsmInstr}
    (h : parseInstr cfg op ts = .ok (a, us)) : a.wellFormed = true := by
  have plain : ∀ {r : Except AsmError (Instr × List Token)}, (∀ i us, r = .ok (i, us) → i.wellFormed = true) →
      asPlain r = .ok (a, us) → a.wellFormed = true := by
    intro r hr h
    obtain ⟨i, h1, rfl⟩ := asPlain_ok h
    exact hr i us h1
  have jump : ∀ {p : Metric → Half → Instr} {n : Metric → Token → AsmInstr}, (∀ c v, (p c v).wellFormed = true) →
      (∀ c v, (n c v).wellFormed = true) → parseJump cfg p n ts = .ok (a, us) → a.wellFormed = true := by
    intro p n hp hn h
    unfold parseJump at h
    obtain ⟨⟨t, ts1⟩, -, h⟩ := asm_bind_eq_ok h
    dsimp only at h
    split at h
    · cases h
    · obtain ⟨⟨u, ts2⟩, -, h⟩ := asm_bind_eq_ok h
      dsimp only at h
      split at h
      · obtain ⟨v, -, h⟩ := asm_bind_eq_ok h
        cases h; exact hp _ _
      · split at h
        · cases h; exact hn _ _
        · cases h
  cases op <;> simp only [parseInstr] at h
  case lod => exact plain (fun i us h => parseLod_wellFormed h) h
  case ldi =>
    refine plain (fun i us h => ?_) h
    unfold parseLdi at h
    obtain ⟨⟨d, ts1⟩, -, h⟩ := asm_bind_eq_ok h
    obtain ⟨⟨t, ts2⟩, -, h⟩ := asm_bind_eq_ok h
    obtain ⟨v, -, h⟩ := asm_bind_eq_ok h
    cases h; rfl
  case sto =>
    refine plain (fun i us h => ?_) h
    unfold parseSto at h
    obtain ⟨⟨d, ts1⟩, -, h⟩ := asm_bind_eq_ok h
    obtain ⟨⟨t, ts2⟩, -, h⟩ := asm_bind_eq_ok h
    obtain ⟨v, -, h⟩ := asm_bind_eq_ok h
    cases h; rfl
  case psh => exact plain (fun i us h => parsePsh_wellFormed h) h
  case pop =>
    refine plain (fun i us h => ?_) h
    unfold parsePop at h
    obtain ⟨⟨d, ts1⟩, -, h⟩ := asm_bind_eq_ok h
    cases h; rfl
  case cmp =>
    refine plain (fun i us h => ?_) h
    unfold parseCmp at h
    obtain ⟨⟨d, ts1⟩, -, h⟩ := asm_bind_eq_ok h
    obtain ⟨⟨d, ts1⟩, -, h⟩ := asm_bind_eq_ok h
    cases h; rfl
  case jmp => exact jump (fun _ _ => rfl) (fun _ _ => rfl) h
  case cal => exact jump (fun _ _ => rfl) (fun _ _ => rfl) h
  case ret => cases h; rfl
  case int =>
    refine plain (fun i us h => ?_) h
    unfold parseInt at h
    obtain ⟨⟨d, ts1⟩, -, h⟩ := asm_bind_eq_ok h
    obtain ⟨v, -, h⟩ := asm_bind_eq_ok h
    cases h; rfl
  all_goals exact plain (fun i us h => by obtain ⟨d, o, rfl⟩ := parseAlu_eq h; rfl) h

/-! ## Induction over an assembly -/

/-- A relation that holds of every emission and every definition, and is closed under composition, holds of every
assembly. -/
theorem assembleText_induct {R : AsmState → AsmState → Prop} (refl : ∀ st, R st st)
    (trans : ∀ {a b c}, R a b → R b c → R a c)
    (hemit : ∀ (i : AsmInstr) st, i.wellFormed = true → R st (emit i st))
    (hdef : ∀ name st u, defineLabel name st = .ok u → R st u) (cfg : AsmConfig)
    (files : List Char → Option (List Char)) (depth : Nat) (text : List Char) (st u : AsmState)
    (h : assembleText cfg (includeFile cfg files depth) text st = .ok u) : R st u := by
  have text_of : ∀ (inc : Token → AsmState → Except AsmError AsmState), (∀ name st u, inc name st = .ok u → R st u) →
      ∀ n ts st u, loop cfg inc n ts st = .ok u → R st u := by
    intro inc hinc n
    induction n with
    | zero =>
      intro ts st u h
      cases ts with
      | nil => cases h; exact refl _
      | cons t ts => cases h
    | succ n ih =>
      intro ts st u h
      cases ts with
      | nil => cases h; exact refl _
      | cons t ts =>
        simp only [loop] at h
        obtain ⟨⟨st1, ts1⟩, hs, h⟩ := asm_bind_eq_ok h
        refine trans ?_ (ih _ _ _ h)
        unfold statement at hs
        split at hs
        · obtain ⟨⟨name, ts2⟩, -, hs⟩ := asm_bind_eq_ok hs
          dsimp only at hs
          split at hs
          · obtain ⟨st2, hi, hs⟩ := asm_bind_eq_ok hs
            cases hs
            exact hinc _ _ _ hi
          · cases hs
        · split at hs
          · obtain ⟨⟨i, ts2⟩, hp, hs⟩ := asm_bind_eq_ok hs
            cases hs
            exact hemit i st (parseInstr_wellFormed hp)
          · obtain ⟨name, -, hs⟩ := asm_bind_eq_ok hs
            obtain ⟨st2, hd, hs⟩ := asm_bind_eq_ok hs
            cases hs
            exact hdef _ _ _ hd
  have inc_of : ∀ d name st u, includeFile cfg files d name st = .ok u → R st u := by
    intro d
    induction d with
    | zero =>
      intro name st u h
      simp only [includeFile] at h
      split at h <;> cases h
    | succ d ih =>
      intro name st u h
      simp only [includeFile] at h
      split at h
      · cases h
      · exact text_of _ ih _ _ _ _ h
  exact text_of _ (inc_of depth) _ _ _ _ h

/-! ## Emission and definition -/

/-- All a definition can do (R182). -/
theorem defineLabel_cases {name : Token} {st u : AsmState} (h : defineLabel name st = .ok u) :
    st.off ≤ 0xFFFF ∧ u.labels = setEntry name (.resolved (BitVec.ofNat 16 st.off)) st.labels ∧
    ((st.entry name = none ∧ u.buf = st.buf) ∨
      ∃ sites, st.entry name = some (.unresolved sites) ∧ u.buf = sites.foldl (patchSite (BitVec.ofNat 16 st.off)) st.buf) := by
  unfold defineLabel at h
  split at h
  · cases h
  · refine ⟨by omega, ?_⟩
    split at h
    · rename_i he; cases h; exact ⟨rfl, .inl ⟨he, rfl⟩⟩
    · rename_i he; cases h; exact ⟨rfl, .inr ⟨_, he, rfl⟩⟩
    · cases h

theorem metric_byte (c : Metric) : packFields 0 0 c.code = BitVec.ofNat 8 c.code.val := by cases c <;> rfl

theorem half_hi (a : Half) : a.extractLsb' 8 8 = BitVec.ofNat 8 (a.toNat / 256) := by
  apply BitVec.eq_of_toNat_eq; rw [BitVec.extractLsb'_toNat, BitVec.toNat_ofNat, Nat.shiftRight_eq_div_pow]

theorem half_lo (a : Half) : a.extractLsb' 0 8 = BitVec.ofNat 8 (a.toNat % 256) := by
  apply BitVec.eq_of_toNat_eq; rw [BitVec.extractLsb'_toNat, BitVec.toNat_ofNat]; simp

/-- A reference leaves every entry, or adds its own site to that of its name (R183). -/
theorem referLabel_entry (name : Token) (st : AsmState) (n : Token) :
    (referLabel name st).2.lookup n = st.entry n ∨ (n = name ∧ ∃ old, (referLabel name st).2.lookup n = some (.unresolved (old ++ [st.off + 2])) ∧ ((st.entry name = none ∧ old = []) ∨ st.entry name = some (.unresolved old))) := by
  unfold referLabel
  split
  · exact .inl rfl
  · rename_i sites hs
    by_cases h : n = name
    · exact .inr ⟨h, sites, by rw [lookup_setEntry, if_pos h], .inr hs⟩
    · exact .inl (by rw [lookup_setEntry, if_neg h]; rfl)
  · rename_i hs
    by_cases h : n = name
    · exact .inr ⟨h, [], by rw [lookup_setEntry, if_pos h]; rfl, .inl ⟨hs, rfl⟩⟩
    · exact .inl (by rw [lookup_setEntry, if_neg h]; rfl)

theorem referLabel_nodup (name : Token) (st : AsmState) (h : (st.labels.map Prod.fst).Nodup) : ((referLabel name st).2.map Prod.fst).Nodup := by
  unfold referLabel
  split
  · exact h
  · exact nodup_setEntry h
  · exact nodup_setEntry h

/-- What an emission leaves of a state: one slot that decodes is appended, and no entry changes, but for the name a jump
or call refers to, which waits at the new slot's address field (R183). -/
def Emitted (st u : AsmState) (w : Slot) : Prop :=
  u.buf = st.buf ++ w.bytes ∧ (∃ j, decode w = .ok j) ∧
  ((st.labels.map Prod.fst).Nodup → (u.labels.map Prod.fst).Nodup) ∧
  ((∀ n, u.entry n = st.entry n) ∨
    (w.b0 = 0x10 ∨ w.b0 = 0x11) ∧ ∃ name old, u.entry name = some (.unresolved (old ++ [st.off + 2])) ∧
      ((st.entry name = none ∧ old = []) ∨ st.entry name = some (.unresolved old)) ∧
      ∀ n, n ≠ name → u.entry n = st.entry n)

theorem emitted_reference {st u : AsmState} {w : Slot} {name : Token} (hw : w.b0 = 0x10 ∨ w.b0 = 0x11)
    (hd : ∃ j, decode w = .ok j) (hb : u.buf = st.buf ++ w.bytes) (hl : u.labels = (referLabel name st).2) :
    Emitted st u w := by
  refine ⟨hb, hd, fun h => by rw [hl]; exact referLabel_nodup name st h, ?_⟩
  have he : ∀ n, u.entry n = (referLabel name st).2.lookup n := fun n => by unfold AsmState.entry; rw [hl]
  have other : ∀ n, n ≠ name → u.entry n = st.entry n := fun n hn => by
    rw [he]
    exact (referLabel_entry name st n).resolve_right fun h => hn h.1
  rcases referLabel_entry name st name with h | ⟨-, old, h1, h2⟩
  · refine .inl fun n => ?_
    by_cases hn : n = name
    · rw [hn, he, h]
    · exact other n hn
  · exact .inr ⟨hw, name, old, by rw [he, h1], h2, other⟩

/-- All an emission can do. -/
theorem emit_cases (i : AsmInstr) (st : AsmState) (hd : ∀ j : Instr, j.wellFormed = true → decode (encode j) = .ok j)
    (hi : i.wellFormed = true) : ∃ w, Emitted st (emit i st) w := by
  cases i with
  | plain i => exact ⟨encode i, rfl, ⟨i, hd i hi⟩, id, .inl fun n => rfl⟩
  | jmpLabel c name =>
    exact ⟨encode (.jmp c (referLabel name st).1), emitted_reference (.inl rfl) ⟨_, hd _ rfl⟩ rfl rfl⟩
  | calLabel c name =>
    exact ⟨encode (.cal c (referLabel name st).1), emitted_reference (.inr rfl) ⟨_, hd _ rfl⟩ rfl rfl⟩

/-! ## The end of an assembly -/

theorem mem_of_lookup {n : Token} {e : LabelEntry} {ls : List (Token × LabelEntry)} (h : ls.lookup n = some e) :
    (n, e) ∈ ls := by
  induction ls with
  | nil => cases h
  | cons p ls ih =>
    obtain ⟨m, f⟩ := p
    rw [List.lookup_cons] at h
    split at h
    · rename_i hn
      obtain rfl : n = m := by simpa using hn
      cases h
      exact List.mem_cons_self
    · exact List.mem_cons_of_mem _ (ih h)

theorem lookup_of_mem {n : Token} {e : LabelEntry} {ls : List (Token × LabelEntry)} (hd : (ls.map Prod.fst).Nodup)
    (h : (n, e) ∈ ls) : ls.lookup n = some e := by
  induction ls with
  | nil => cases h
  | cons p ls ih =>
    obtain ⟨m, f⟩ := p
    rw [List.map_cons, List.nodup_cons] at hd
    rcases List.mem_cons.mp h with h | h
    · cases h
      simp
    · have hne : (n == m) = false := by
        refine beq_eq_false_iff_ne.mpr fun he => hd.1 ?_
        show m ∈ _
        rw [← he]
        exact List.mem_map_of_mem (f := Prod.fst) h
      rw [List.lookup_cons, hne]
      exact ih hd.2 h

/-- The label an end of input names is one that still waits for its definition (R186). -/
theorem firstPending_some {st : AsmState} {name : Token} (hd : (st.labels.map Prod.fst).Nodup)
    (h : st.firstPending = some name) : ∃ sites, st.entry name = some (.unresolved sites) := by
  unfold AsmState.firstPending at h
  obtain ⟨⟨n, e⟩, hf, rfl⟩ := Option.map_eq_some_iff.mp h
  cases e with
  | resolved a => simpa [LabelEntry.pending] using List.find?_some hf
  | unresolved sites => exact ⟨sites, lookup_of_mem hd (List.mem_of_find?_eq_some hf)⟩

/-- No label is named exactly when none waits for its definition. -/
theorem firstPending_none {st : AsmState} (h : st.firstPending = none) (name : Token) (sites : List Nat) :
    st.entry name ≠ some (.unresolved sites) := fun he => by
  unfold AsmState.firstPending at h
  have := List.find?_eq_none.mp (Option.map_eq_none_iff.mp h) _ (mem_of_lookup he)
  simp [LabelEntry.pending] at this

/-- All the end of an assembly can answer with an image (R186, R190). -/
theorem finishAssembly_cases {progSize : Nat} {st : AsmState} {image : List Byte}
    (h : finishAssembly progSize st = .ok image) :
    st.firstPending = none ∧ st.buf.length ≤ progSize ∧ image = st.buf := by
  unfold finishAssembly at h
  split at h
  · cases h
  · split at h
    · cases h
    · cases h
      exact ⟨‹_›, by omega, rfl⟩

end Sys2Proof.Asm
end

