-- ==== Sys2Proof/Laws/Exec.lean ====
section
/-! SUPPORT. What each instruction can do, said once: the flags bit by bit, format A, the frames of `CAL`, `RET` and
`INT` in one equation each, and the device's silence about everything but the window. -/

namespace Sys2Proof.Machine

/-! ## Flags bit by bit -/

theorem withFlags_bit0 (sr : Word) (z gt : Bool) : (withFlags sr z gt).getLsbD 0 = z := by
  cases z <;> cases gt <;> simp [withFlags]

theorem withFlags_bit1 (sr : Word) (z gt : Bool) : (withFlags sr z gt).getLsbD 1 = gt := by
  cases z <;> cases gt <;> simp [withFlags]

theorem mask_bit (k : Nat) (h : 2 ≤ k) : (0xFFFFFFFC#32).getLsbD k = decide (k < 32) := by
  by_cases hk : k < 32
  · have : ∀ k < 32, 2 ≤ k → (0xFFFFFFFC#32).getLsbD k = true := by decide
    simp [hk, this k hk h]
  · rw [BitVec.getLsbD_of_ge _ k (by omega)]
    simp [hk]

theorem small_bit {v : Word} (hv : v.toNat < 4) {k : Nat} (h : 2 ≤ k) : v.getLsbD k = false := by
  rw [← BitVec.testBit_toNat]
  apply Nat.testBit_lt_two_pow
  calc v.toNat < 4 := hv
    _ = 2 ^ 2 := rfl
    _ ≤ 2 ^ k := Nat.pow_le_pow_right (by omega) h

theorem withFlags_high (sr : Word) (z gt : Bool) {k : Nat} (h : 2 ≤ k) :
    (withFlags sr z gt).getLsbD k = sr.getLsbD k := by
  have hz : (if z then 1#32 else 0#32).getLsbD k = false := small_bit (by cases z <;> decide) h
  have hg : (if gt then 2#32 else 0#32).getLsbD k = false := small_bit (by cases gt <;> decide) h
  simp only [withFlags, BitVec.getLsbD_or, BitVec.getLsbD_and, hz, hg, mask_bit k h, Bool.or_false]
  by_cases hk : k < 32
  · simp [hk]
  · simp [hk, BitVec.getLsbD_of_ge sr k (by omega)]

theorem setFlags_sr (s : State) (r : Word) : (setFlags s r).sr = withFlags s.sr (r == 0) (decide (0 < r.toInt)) := rfl

theorem setFlagsCmp_sr (s : State) (a b : Word) :
    (setFlagsCmp s a b).sr = withFlags s.sr (a == b) (decide (b.toInt < a.toInt)) := rfl

theorem withFlags_legal {sr : Word} (h : sr = 0 ∨ sr = 1 ∨ sr = 2) {z gt : Bool} (hzg : ¬(z = true ∧ gt = true)) :
    withFlags sr z gt = 0 ∨ withFlags sr z gt = 1 ∨ withFlags sr z gt = 2 := by
  rcases h with rfl | rfl | rfl <;> cases z <;> cases gt <;> first | decide | simp at hzg

theorem setFlags_srLegal {s : State} (h : s.srLegal) (r : Word) : (setFlags s r).srLegal := by
  refine withFlags_legal h fun ⟨h1, h2⟩ => ?_
  obtain rfl : r = 0 := by simpa using h1
  simp at h2

theorem setFlagsCmp_srLegal {s : State} (h : s.srLegal) (a b : Word) : (setFlagsCmp s a b).srLegal := by
  refine withFlags_legal h fun ⟨h1, h2⟩ => ?_
  obtain rfl : a = b := by simpa using h1
  simp at h2

/-! ## Format A -/

/-- What a format A instruction with result `r` leaves. -/
def aluResult (s : State) (d : Gpr) (r : Word) : State := (setFlags (s.setX d r) r).advance

theorem aluLeaves_aluResult (s : State) (d : Gpr) (r : Word) : AluLeaves s (aluResult s d r) d r := by
  refine ⟨rfl, ?_, ?_, fun k hk => withFlags_high _ _ _ hk⟩
  · rw [show (aluResult s d r).sr = withFlags s.sr (r == 0) (decide (0 < r.toInt)) from rfl, withFlags_bit0]
    simp
  · rw [show (aluResult s d r).sr = withFlags s.sr (r == 0) (decide (0 < r.toInt)) from rfl, withFlags_bit1]
    simp

theorem execAlu_ok {op : Word → Word → Except Raised Word} {d : Gpr} {o : AluOperand} {s : State} {r : Word}
    (h : op (s.getX d) (aluOperand s o) = .ok r) : execAlu op d o s = .next (aluResult s d r) := by
  simp only [execAlu, h, bind_ok, finish_ok, aluResult]

theorem execAlu_error {op : Word → Word → Except Raised Word} {d : Gpr} {o : AluOperand} {s : State} {e : Raised}
    (h : op (s.getX d) (aluOperand s o) = .error e) : execAlu op d o s = .next (s.afterFault e) := by
  simp only [execAlu, h, bind_error, finish_error]

/-- A format A instruction leaves a result and its flags, or only a fault record. -/
theorem execAlu_cases {op : Word → Word → Except Raised Word} {d : Gpr} {o : AluOperand} {s t : State}
    (h : execAlu op d o s = .next t) : (∃ r, t = aluResult s d r) ∨ ∃ e, t = s.afterFault e := by
  cases hr : op (s.getX d) (aluOperand s o) with
  | ok r => rw [execAlu_ok hr] at h; exact .inl ⟨r, by simpa using h.symm⟩
  | error e => rw [execAlu_error hr] at h; exact .inr ⟨e, by simpa using h.symm⟩

/-! ## Two and three pushes as one list -/

theorem canPush_mono {s : State} {m n : Nat} (h : s.canPush n) (hmn : m ≤ n) : s.canPush m :=
  fun i hi => h i (by omega)

theorem canPopFrom_mono {s : State} {sp : Word} {m n : Nat} (h : s.canPopFrom sp n) (hmn : m ≤ n) :
    s.canPopFrom sp m := fun i hi => h i (by omega)

theorem push_push (s : State) (a b : Word) :
    (push32 s a >>= fun t => push32 t b) = pushList s (pushOrder a ++ pushOrder b) := by
  rw [pushList_append, push32_eq_pushList]
  congr 1
  funext t
  exact push32_eq_pushList t b

theorem interruptEntry_eq (s : State) :
    interruptEntry s = pushList s (pushOrder (s.pc + 2) ++ pushOrder s.sr) := by
  rw [← push_push]
  unfold interruptEntry
  cases h : push32 s (s.pc + 2) with
  | error e => rfl
  | ok t =>
    obtain ⟨-, rfl⟩ := push32_cases h
    rfl

/-- Entry in one equation (R151). -/
theorem interruptEntry_ok {s : State} (h : s.canPush 8) :
    interruptEntry s = .ok { s with
      mem := s.mem.writeDown s.sp (pushOrder (s.pc + 2) ++ pushOrder s.sr), sp := s.sp - 8 } := by
  rw [interruptEntry_eq, pushList_ok (by simpa using h)]; rfl

theorem interruptEntry_error {s : State} {e : Raised} (h : firstPushFault s 8 = some e) :
    interruptEntry s = .error e := by
  rw [interruptEntry_eq, pushList_eq]
  rw [show (pushOrder (s.pc + 2) ++ pushOrder s.sr).length = 8 from rfl, h]

theorem takeCall_ok {s : State} (h : s.canPush 8) (target : Half) :
    takeCall target s = .ok { s with
      mem := s.mem.writeDown s.sp (pushOrder s.fp ++ pushOrder (s.pc + 4)), sp := s.sp - 8, fp := s.sp - 8,
      pc := zext32 target } := by
  have hp : (push32 s s.fp >>= fun t => push32 t (s.pc + 4)) = .ok { s with
      mem := s.mem.writeDown s.sp (pushOrder s.fp ++ pushOrder (s.pc + 4)), sp := s.sp - 8 } := by
    rw [push_push, pushList_ok (by simpa using h)]; rfl
  unfold takeCall
  cases h1 : push32 s s.fp with
  | error e => rw [h1] at hp; cases hp
  | ok t =>
    rw [h1, bind_ok] at hp
    rw [bind_ok, hp]
    rfl

theorem takeCall_error {s : State} {e : Raised} (h : firstPushFault s 8 = some e) (target : Half) :
    takeCall target s = .error e := by
  have hp : (push32 s s.fp >>= fun t => push32 t (s.pc + 4)) = .error e := by
    rw [push_push, pushList_eq]
    rw [show (pushOrder s.fp ++ pushOrder (s.pc + 4)).length = 8 from rfl, h]
  unfold takeCall
  cases h1 : push32 s s.fp with
  | error e' => rw [h1] at hp; exact hp
  | ok t =>
    rw [h1, bind_ok] at hp
    rw [bind_ok, hp]
    rfl

/-! ## Pops in a row -/

theorem popWord_congr {s t : State} (h : t.mem = s.mem) (sp : Word) : popWord t sp = popWord s sp := by
  simp only [popWord, State.byteAt, h]

theorem canPopFrom_congr {s t : State} (h : t.cfg = s.cfg) (sp : Word) (n : Nat) :
    t.canPopFrom sp n ↔ s.canPopFrom sp n := by
  simp only [State.canPopFrom, h]

theorem canPopFrom_add {s : State} {sp : Word} {m n : Nat} (h : s.canPopFrom sp (m + n)) :
    s.canPopFrom (sp + BitVec.ofNat 32 m) n := fun i hi => by
  rw [popAddr_add]
  exact h (m + i) (by omega)

/-- Exit in one equation (R156). -/
theorem interruptExit_ok {saved : State} (u : State) (h : saved.canPopFrom saved.sp 8) :
    interruptExit saved u = .ok { u with
      sp := saved.sp + 8, sr := popWord saved saved.sp, pc := popWord saved (saved.sp + 4) + 2 } := by
  unfold interruptExit
  rw [pop32_ok (canPopFrom_mono h (by omega)), bind_ok]
  dsimp only
  rw [pop32_ok (s := { saved with sp := saved.sp + 4 })
    ((canPopFrom_congr (s := saved) rfl _ _).mpr (canPopFrom_add (m := 4) (n := 4) h)), bind_ok]
  simp only [Except.ok.injEq, State.mk.injEq, true_and, and_true]
  exact ⟨by rw [BitVec.add_assoc]; rfl, rfl⟩

/-- `RET` in one equation (R144). -/
theorem takeReturn_ok {s : State} (h1 : s.canPopFrom s.sp 4) (h2 : s.canPopFrom s.fp 8)
    (h3 : { s with sp := s.fp + 8 }.canPush 4) :
    takeReturn s = .ok { s with
      mem := s.mem.writeDown (s.fp + 8) (pushOrder (popWord s s.sp)), sp := s.fp + 4, pc := popWord s s.fp,
      fp := popWord s (s.fp + 4) } := by
  unfold takeReturn
  rw [pop32_ok h1, bind_ok]
  dsimp only
  rw [pop32_ok (s := { s with sp := s.fp }) ((canPopFrom_congr (s := s) rfl _ _).mpr (canPopFrom_mono h2 (by omega))),
    bind_ok]
  dsimp only
  rw [pop32_ok (s := { s with sp := s.fp + 4, pc := popWord { s with sp := s.fp } s.fp })
    ((canPopFrom_congr (s := s) rfl _ _).mpr (canPopFrom_add (m := 4) (n := 4) h2)), bind_ok]
  dsimp only
  rw [push32_ok (s := { s with
    sp := s.fp + 4 + 4, pc := popWord { s with sp := s.fp } s.fp,
    fp := popWord { s with sp := s.fp + 4, pc := popWord { s with sp := s.fp } s.fp } (s.fp + 4) })]
  · have e : s.fp + 4 + 4 = s.fp + 8 := by rw [BitVec.add_assoc]; rfl
    simp only [e, Except.ok.injEq, State.mk.injEq, true_and, and_true]
    have e2 : s.fp + 8 - 4 = s.fp + 4 := by
      rw [← e]
      exact BitVec.add_sub_cancel _ _
    exact ⟨e2, rfl, rfl⟩
  · have e : s.fp + 4 + 4 = s.fp + 8 := by rw [BitVec.add_assoc]; rfl
    intro i hi
    simpa only [e] using h3 i hi

/-- A return that succeeds met all three hypotheses of `takeReturn_ok`. -/
theorem takeReturn_cases {s t : State} (h : takeReturn s = .ok t) :
    s.canPopFrom s.sp 4 ∧ s.canPopFrom s.fp 8 ∧ { s with sp := s.fp + 8 }.canPush 4 := by
  unfold takeReturn at h
  cases h1 : pop32 s with
  | error e => rw [h1] at h; cases h
  | ok p1 =>
    obtain ⟨res, s1⟩ := p1
    obtain ⟨c1, -, rfl⟩ := pop32_cases h1
    rw [h1, bind_ok] at h
    dsimp only at h
    cases h2 : pop32 { s with sp := s.fp } with
    | error e => rw [h2] at h; cases h
    | ok p2 =>
      obtain ⟨ra, s2⟩ := p2
      obtain ⟨c2, -, rfl⟩ := pop32_cases h2
      rw [h2, bind_ok] at h
      dsimp only at h
      cases h3 : pop32 { s with sp := s.fp + 4, pc := ra } with
      | error e => rw [h3] at h; cases h
      | ok p3 =>
        obtain ⟨of, s3⟩ := p3
        obtain ⟨c3, -, rfl⟩ := pop32_cases h3
        rw [h3, bind_ok] at h
        obtain ⟨c4, -⟩ := push32_cases h
        have e : s.fp + 4 + 4 = s.fp + 8 := by rw [BitVec.add_assoc]; rfl
        refine ⟨c1, fun i hi => ?_, fun i hi => ?_⟩
        · by_cases hi4 : i < 4
          · exact c2 i hi4
          · have := c3 (i - 4) (by omega)
            dsimp only at this
            rw [show s.fp + 4 = s.fp + BitVec.ofNat 32 4 from rfl, popAddr_add] at this
            rwa [show 4 + (i - 4) = i by omega] at this
        · simpa only [e] using c4 i hi

/-! ## Restoring after an interrupt -/

/-- Bytes pushed below `sp` can be popped again from where the push left `sp`. -/
theorem canPopFrom_of_canPush {s : State} {n : Nat} (h : s.canPush n) :
    s.canPopFrom (s.sp - BitVec.ofNat 32 n) n := fun i hi => by
  rw [popAddr_sub _ hi]
  exact (h (n - 1 - i) (by omega)).1

/-- The first of two pushed words, popped from 4 above the lower one; the lower one popped from where the push left
`sp`. -/
theorem popWord_two {s u : State} {v w : Word}
    (h : ∀ i, (hi : i < 8) → u.byteAt (pushAddr s.sp i) = (pushOrder v ++ pushOrder w)[i]) :
    popWord u (s.sp - 4) = v ∧ popWord u (s.sp - 8) = w := by
  constructor
  · refine popWord_pushed (k := 0) fun i hi => ?_
    rw [Nat.zero_add, h i (by omega)]
    match i, hi with
    | 0, _ | 1, _ | 2, _ | 3, _ => rfl
  · refine popWord_pushed (k := 4) fun i hi => ?_
    rw [h (4 + i) (by omega)]
    match i, hi with
    | 0, _ | 1, _ | 2, _ | 3, _ => rfl

theorem sub8_add4 (sp : Word) : sp - 8 + 4 = sp - 4 := by
  rw [show (8 : Word) = 4 + 4 from rfl]
  ring

/-! ## Every instruction has a next state -/

theorem execAlu_next (op : Word → Word → Except Raised Word) (d : Gpr) (o : AluOperand) (s : State) :
    ∃ t, execAlu op d o s = .next t := finish_next _ _

theorem exec_next (i : Instr) (s : State) : ∃ t, exec i s = .next t := by
  cases i <;> simp only [exec]
  case lod => exact finish_next _ _
  case ldi => exact ⟨_, rfl⟩
  case sto => exact finish_next _ _
  case pshLit => exact finish_next _ _
  case pshReg k =>
    unfold execPshReg
    split
    · exact finish_next _ _
    · exact ⟨_, rfl⟩
  case pop => exact finish_next _ _
  case cmp => exact ⟨_, rfl⟩
  case jmp => exact ⟨_, rfl⟩
  case cal => exact finish_next _ _
  case ret => exact finish_next _ _
  case int => exact finish_next _ _
  all_goals exact execAlu_next _ _ _ _

/-! ## Small arithmetic -/

theorem zext32_toNat (v : Half) : (zext32 v).toNat = v.toNat := by
  unfold zext32
  rw [BitVec.zeroExtend, BitVec.toNat_setWidth]
  exact Nat.mod_eq_of_lt (by have := v.isLt; omega)

theorem add4_add4 (w : Word) : w + 4 + 4 = w + 8 := by rw [BitVec.add_assoc]; rfl

theorem sub4_add4 (sp : Word) : sp - 4 + 4 = sp := BitVec.sub_add_cancel _ _

theorem sub8_add8 (sp : Word) : sp - 8 + 8 = sp := BitVec.sub_add_cancel _ _

theorem sub8_sub4 (sp : Word) : sp - 8 - 4 = sp - 12 := by rw [show (12:Word) = 8 + 4 from rfl]; ring

theorem progEnd_toNat {c : Config} (h : c.Legal) : (BitVec.ofNat 32 c.progEnd).toNat = c.progEnd := by
  rw [BitVec.toNat_ofNat, Nat.mod_eq_of_lt]
  obtain ⟨h1, h2, h3, h4, h5⟩ := h
  unfold Config.memSize Config.devmapEnd Config.devmapBase Config.ramEnd Config.ramBase Config.ddtEnd Config.ddtBase at h5
  unfold Config.ddtSize at h5
  unfold Config.progEnd at *
  omega

/-- `-2^31` is the word with bit 31 alone. -/
theorem toInt_intMin (a : Word) : a.toInt = -2^31 ↔ a = 0x80000000#32 := by
  rw [← BitVec.toInt_inj]; rfl

theorem toInt_m1 (a : Word) : a.toInt = -1 ↔ a = 0xFFFFFFFF#32 := by
  rw [← BitVec.toInt_inj]; rfl

/-- The truncated quotient of two words is a word, but for `-2^31` by `-1` (R115). -/
theorem tdiv_fits (a b : Int) (ha : -2^31 ≤ a) (ha2 : a < 2^31) (h : ¬(a = -2^31 ∧ b = -1)) : -2^31 ≤ a.tdiv b ∧ a.tdiv b < 2^31 := by
  have h1 : (a.tdiv b).natAbs = a.natAbs / b.natAbs := Int.natAbs_tdiv a b
  have h2 : a.natAbs / b.natAbs ≤ a.natAbs := Nat.div_le_self _ _
  by_cases hb : b.natAbs ≤ 1
  · obtain rfl | rfl | rfl : b = 0 ∨ b = 1 ∨ b = -1 := by omega
    · simp
    · simp; omega
    · simp; omega
  · have h3 : a.natAbs / b.natAbs ≤ a.natAbs / 2 := Nat.div_le_div_left (by omega) (by omega)
    omega

/-! ## The nine format A instructions -/

theorem exec_add (d o s) : exec (.add d o) s = execAlu (fun a b => .ok (a + b)) d o s := rfl

theorem exec_sub (d o s) : exec (.sub d o) s = execAlu (fun a b => .ok (a - b)) d o s := rfl

theorem exec_mul (d o s) : exec (.mul d o) s = execAlu (fun a b => .ok (a * b)) d o s := rfl

theorem exec_div (d o s) : exec (.div d o) s = execAlu (divide s.pc) d o s := rfl

theorem exec_and (d o s) : exec (.and d o) s = execAlu (fun a b => .ok (a &&& b)) d o s := rfl

theorem exec_orr (d o s) : exec (.orr d o) s = execAlu (fun a b => .ok (a ||| b)) d o s := rfl

theorem exec_xor (d o s) : exec (.xor d o) s = execAlu (fun a b => .ok (a ^^^ b)) d o s := rfl

theorem exec_shl (d o s) : exec (.shl d o) s = execAlu shiftLeft d o s := rfl

theorem exec_shr (d o s) : exec (.shr d o) s = execAlu shiftRight d o s := rfl

/-- A result with a property, from the operation. -/
theorem execAlu_leaves {op : Word → Word → Except Raised Word} {d : Gpr} {o : AluOperand} {s : State} {r : Word}
    {P : Word → Prop} (h : op (s.getX d) (aluOperand s o) = .ok r) (hp : P r) :
    ∃ t r, execAlu op d o s = .next t ∧ AluLeaves s t d r ∧ P r := ⟨_, _, execAlu_ok h, aluLeaves_aluResult _ _ _, hp⟩

/-! ## The interrupt actions -/

theorem outputAction_ok {s : State} (h : (s.getX 1).toNat = 0 ∨ (s.getX 0).toNat + (s.getX 1).toNat ≤ s.cfg.memSize) :
    outputAction s = .ok { s with out := s.out ++ s.bytesAt (s.getX 0).toNat (s.getX 1).toNat } := by
  unfold outputAction
  split
  · rename_i h; simp [h, State.bytesAt]
  · rename_i h0
    rw [checkBounds_eq, if_neg (by omega)]; rfl

theorem outputAction_error {s : State} (h0 : (s.getX 1).toNat ≠ 0) (h : s.cfg.memSize < (s.getX 0).toNat + (s.getX 1).toNat) :
    outputAction s = .error ⟨.outOfBounds, max (s.getX 0).toNat s.cfg.memSize⟩ := by
  unfold outputAction
  rw [if_neg h0, checkBounds_eq, if_pos h]; rfl

/-- The state after the entry of an interrupt (R151). -/
def entered (s : State) : State :=
  { s with mem := s.mem.writeDown s.sp (pushOrder (s.pc + 2) ++ pushOrder s.sr), sp := s.sp - 8 }

theorem interruptEntry_cases {s t : State} (h : interruptEntry s = .ok t) : s.canPush 8 ∧ t = entered s := by
  cases hf : firstPushFault s 8 with
  | some e => rw [interruptEntry_error hf] at h; cases h
  | none =>
    have hp := firstPushFault_none.mp hf
    rw [interruptEntry_ok hp] at h
    exact ⟨hp, (Except.ok.inj h).symm⟩

/-- Exit restores what entry saved, whatever the action between them did (R156). -/
theorem interruptExit_entered {s : State} (u : State) (hp : s.canPush 8) :
    interruptExit (entered s) u = .ok { u with sp := s.sp, sr := s.sr, pc := s.pc + 4 } := by
  obtain ⟨h1, h2⟩ := popWord_two (s := s) (u := entered s)
    (holdsPushed_writeDown s (bs := pushOrder (s.pc + 2) ++ pushOrder s.sr) (by simp)).1
  rw [interruptExit_ok u ((canPopFrom_congr (s := s) (t := entered s) rfl (s.sp - 8) 8).mpr (canPopFrom_of_canPush hp)),
    show (entered s).sp = s.sp - 8 from rfl, h2, sub8_add4, h1]
  simp only [Except.ok.injEq, State.mk.injEq, true_and, and_true]
  exact ⟨BitVec.sub_add_cancel _ _, by rw [BitVec.add_assoc]; rfl⟩

/-- The keyboard interrupt in one equation (R150, R154, R156). -/
theorem interrupt_keyboard {s : State} (hp : s.canPush 8) :
    interrupt 1 s = .ok { s with
      mem := deviceWrite s.cfg (entered s).mem (s.deviceInputs.headD []), pc := s.pc + 4
      kbdRequests := s.kbdRequests + 1, deviceInputs := s.deviceInputs.tail } := by
  unfold interrupt
  rw [interruptEntry_ok hp, bind_ok]
  show interruptExit (entered s) (keyboardAction (entered s)) = _
  rw [interruptExit_entered _ hp, keyboardAction, State.deviceAct_eq]
  rfl

/-! ## What each instruction does -/

/-- What each instruction does to the state when it raises nothing. -/
def Effect (i : Instr) (s t : State) : Prop :=
  match i with
  | .lod d _ => ∃ v, t = (s.setX d v).advance
  | .ldi d v => t = (s.setX d (zext32 v)).advance
  | .sto r m =>
    t = (s.putBytes (effAddr s m).toNat (wordBytes (s.getX r))).advance ∧
    (effAddr s m).toNat + 4 ≤ s.cfg.memSize ∧
    ∀ a, (effAddr s m).toNat ≤ a → a < (effAddr s m).toNat + 4 → ¬s.inDdt a
  | .pshLit _ | .pshReg _ =>
    s.canPush 4 ∧ ∃ v, t = { s with mem := s.mem.writeDown s.sp (pushOrder v), sp := s.sp - 4, pc := s.pc + 4 }
  | .pop d => ∃ v, t = { s with x := s.x.set d v, sp := s.sp + 4, pc := s.pc + 4 }
  | .add d _ | .sub d _ | .mul d _ | .div d _ | .and d _ | .orr d _ | .xor d _ | .shl d _ | .shr d _ =>
    ∃ r, t = aluResult s d r
  | .cmp a b => t = (setFlagsCmp s (s.getX a) (s.getX b)).advance
  | .jmp _ _ => ∃ p, t = { s with pc := p }
  | .cal c a =>
    (metricHolds c s.sr = true ∧ s.canPush 8 ∧
      t = { s with mem := s.mem.writeDown s.sp (pushOrder s.fp ++ pushOrder (s.pc + 4)), sp := s.sp - 8,
                   fp := s.sp - 8, pc := zext32 a }) ∨
    t = s.advance
  | .ret =>
    { s with sp := s.fp + 8 }.canPush 4 ∧
    t = { s with mem := s.mem.writeDown (s.fp + 8) (pushOrder (popWord s s.sp)), sp := s.fp + 4,
                 pc := popWord s s.fp, fp := popWord s (s.fp + 4) }
  | .int n =>
    s.canPush 8 ∧
    match n.toNat with
    | 0 =>
      s.canPush 12 ∧
      t = { s with mem := (entered s).mem.writeDown (s.sp - 8) (pushOrder (s.getX 0)), sp := s.sp - 12,
                   pc := BitVec.ofNat 32 s.cfg.progEnd, status := .halted (some (s.getX 0)) }
    | 1 =>
      t = { s with mem := (keyboardAction (entered s)).mem, kbdRequests := s.kbdRequests + 1,
                   deviceInputs := s.deviceInputs.tail, pc := s.pc + 4 }
    | 2 => ∃ bs, t = { s with mem := (entered s).mem, out := s.out ++ bs, pc := s.pc + 4 }
    | _ => t = { s with mem := (entered s).mem, pc := s.pc + 4 }

theorem pushValue_cases {v : Word} {s t : State} (h : pushValue v s = .next t) :
    (s.canPush 4 ∧ t = { s with mem := s.mem.writeDown s.sp (pushOrder v), sp := s.sp - 4, pc := s.pc + 4 }) ∨
    ∃ e, t = s.afterFault e := by
  rcases finish_cases h with h | ⟨e, -, h⟩
  · cases hp : push32 s v with
    | error e => rw [hp] at h; cases h
    | ok u =>
      obtain ⟨hc, rfl⟩ := push32_cases hp
      rw [hp, bind_ok] at h
      exact .inl ⟨hc, (Except.ok.inj h).symm⟩
  · exact .inr ⟨e, h⟩

/-- All an interrupt can do when it raises nothing (R150). -/
theorem interrupt_cases {n : Byte} {s t : State} (h : interrupt n s = .ok t) : Effect (.int n) s t := by
  unfold interrupt at h
  cases he : interruptEntry s with
  | error e => rw [he] at h; cases h
  | ok u =>
    obtain ⟨hp, rfl⟩ := interruptEntry_cases he
    rw [he, bind_ok] at h
    have fin : ∀ {v : State}, interruptExit (entered s) v = .ok t → t = { v with sp := s.sp, sr := s.sr, pc := s.pc + 4 } := by
      intro v hv
      rw [interruptExit_entered v hp] at hv
      exact (Except.ok.inj hv).symm
    refine ⟨hp, ?_⟩
    generalize n.toNat = k at h ⊢
    match k, h with
    | 0, h =>
      change haltAction (entered s) = .ok t at h
      unfold haltAction at h
      cases hq : push32 { entered s with pc := BitVec.ofNat 32 (entered s).cfg.progEnd } ((entered s).getX 0) with
      | error e => rw [hq] at h; cases h
      | ok v =>
        obtain ⟨hc, rfl⟩ := push32_cases hq
        rw [hq, bind_ok] at h
        refine ⟨canPush_add (n := 4) hp hc rfl rfl, ?_⟩
        have h := Except.ok.inj h
        rw [← h]
        simp only [entered, sub8_sub4]
        rfl
    | 1, h => exact (fin h).trans (by simp [keyboardAction, entered])
    | 2, h =>
      change (outputAction (entered s) >>= interruptExit (entered s)) = .ok t at h
      by_cases hr : ((entered s).getX 1).toNat = 0 ∨ ((entered s).getX 0).toNat + ((entered s).getX 1).toNat ≤ (entered s).cfg.memSize
      · rw [outputAction_ok hr, bind_ok] at h
        exact ⟨_, fin h⟩
      · rw [outputAction_error (by omega) (by omega)] at h; cases h
    | k + 3, h => exact fin h

/-- Every instruction has its effect, or only records a fault. -/
theorem exec_effect {i : Instr} {s t : State} (h : exec i s = .next t) :
    Effect i s t ∨ ∃ e, t = s.afterFault e := by
  have done : ∀ {r : Except Raised State}, (∀ u, r = .ok u → Effect i s u) → finish s r = .next t →
      Effect i s t ∨ ∃ e, t = s.afterFault e := by
    intro r hr hf
    rcases finish_cases hf with h | ⟨e, -, h⟩
    · exact .inl (hr t h)
    · exact .inr ⟨e, h⟩
  cases i
  case lod d m =>
    refine done (fun u hu => ?_) h
    cases hv : memRead4 s (effAddr s m) with
    | error e => rw [hv] at hu; cases hu
    | ok v => rw [hv, bind_ok] at hu; exact ⟨v, (Except.ok.inj hu).symm⟩
  case ldi d v => exact .inl (Host.Outcome.next.inj h).symm
  case sto r m =>
    refine done (fun u hu => ?_) h
    cases hv : memWrite4 s (effAddr s m) (s.getX r) with
    | error e => rw [hv] at hu; cases hu
    | ok v =>
      obtain ⟨rfl, h1, h2⟩ := memWrite_cases hv
      rw [hv, bind_ok] at hu
      exact ⟨(Except.ok.inj hu).symm, h1, h2⟩
  case pshLit v =>
    rcases pushValue_cases h with ⟨h1, h2⟩ | h
    · exact .inl ⟨h1, _, h2⟩
    · exact .inr h
  case pshReg k =>
    simp only [exec, execPshReg] at h
    split at h
    · rcases pushValue_cases h with ⟨h1, h2⟩ | h
      · exact .inl ⟨h1, _, h2⟩
      · exact .inr h
    · exact .inr ⟨_, by simpa using h.symm⟩
  case pop d =>
    refine done (fun u hu => ?_) h
    cases hv : pop32 s with
    | error e => rw [hv] at hu; cases hu
    | ok p =>
      obtain ⟨v, w⟩ := p
      obtain ⟨-, -, rfl⟩ := pop32_cases hv
      rw [hv, bind_ok] at hu
      exact ⟨v, (Except.ok.inj hu).symm⟩
  case cmp => exact .inl (Host.Outcome.next.inj h).symm
  case jmp c a =>
    refine .inl ?_
    simp only [exec, execJmp, Host.Outcome.next.injEq] at h
    split at h
    · exact ⟨_, h.symm⟩
    · exact ⟨_, h.symm⟩
  case cal c a =>
    refine done (fun u hu => ?_) h
    split at hu
    · rename_i hm
      cases hf : firstPushFault s 8 with
      | some e => rw [takeCall_error hf] at hu; cases hu
      | none =>
        have hp := firstPushFault_none.mp hf
        rw [takeCall_ok hp] at hu
        exact .inl ⟨hm, hp, by simpa using hu.symm⟩
    · exact .inr (by simpa using hu.symm)
  case ret =>
    refine done (fun u hu => ?_) h
    obtain ⟨h1, h2, h3⟩ := takeReturn_cases hu
    rw [takeReturn_ok h1 h2 h3] at hu
    exact ⟨h3, by simpa using hu.symm⟩
  case int n => exact done (fun u hu => interrupt_cases hu) h
  case add => exact execAlu_cases (exec_add _ _ s ▸ h)
  case sub => exact execAlu_cases (exec_sub _ _ s ▸ h)
  case mul => exact execAlu_cases (exec_mul _ _ s ▸ h)
  case div => exact execAlu_cases (exec_div _ _ s ▸ h)
  case and => exact execAlu_cases (exec_and _ _ s ▸ h)
  case orr => exact execAlu_cases (exec_orr _ _ s ▸ h)
  case xor => exact execAlu_cases (exec_xor _ _ s ▸ h)
  case shl => exact execAlu_cases (exec_shl _ _ s ▸ h)
  case shr => exact execAlu_cases (exec_shr _ _ s ▸ h)

end Sys2Proof.Machine
end

