-- ==== Sys2Proof/Laws/Step.lean ====
section
/-! SUPPORT. What a step can do, said once, and what each instruction keeps: the configuration, the run status, the
memory invariant, the descriptor table, the output stream and the request counter. -/

namespace Sys2Proof.Machine

/-! ## A step -/

theorem step_running {s : State} (h : s.status = .running) : step s = betweenSteps (runningStep s) := by
  unfold step; rw [h]

theorem runningStep_next (s : State) : ∃ t, runningStep s = .next t := by
  unfold runningStep
  split
  · exact ⟨_, rfl⟩
  · exact ⟨_, rfl⟩
  · split
    · exact ⟨_, rfl⟩
    · exact exec_next _ _

/-- A next state comes from a next state, after the device has acted if the run goes on. -/
theorem betweenSteps_next {r : Host.Outcome State Fault Refusal} {t : State} (h : betweenSteps r = .next t) :
    ∃ u, r = .next u ∧ t = if u.status = .running then u.deviceAct else u := by
  cases r with
  | next u => exact ⟨u, rfl, by simpa [betweenSteps] using h.symm⟩
  | fault f => cases h
  | refused f => cases h

theorem slotAtPc_eq (s : State) : fetchSlot s = slotAtPc s := rfl

/-- All a step can do (R236): the normal end, a fault of the fetch, the decoder or the instruction, or the effect of the decoded
instruction and then the device's action. -/
theorem step_cases {s t : State} (h : step s = .next t) :
    s.status = .running ∧
    ((s.pc.toNat = s.cfg.progEnd ∧ t = { s with status := .halted none }) ∨
     (∃ e, t = s.afterFault e) ∨
     ∃ i u, s.pcLegal ∧ decode (slotAtPc s) = .ok i ∧ exec i s = .next u ∧ Effect i s u ∧
       t = if u.status = .running then u.deviceAct else u) := by
  unfold step at h
  split at h
  · rename_i hs
    refine ⟨hs, ?_⟩
    obtain ⟨u, hu, ht⟩ := betweenSteps_next h
    have fault : ∀ e, runningStep s = .next (s.afterFault e) → t = s.afterFault e := by
      intro e he
      rw [he] at hu
      have hu := Host.Outcome.next.inj hu
      subst hu
      rw [ht, if_neg (by simp [State.afterFault])]
    unfold runningStep at hu fault
    unfold fetch at hu fault
    by_cases h1 : s.pc.toNat = s.cfg.progEnd
    · rw [if_pos h1] at hu
      have hu := Host.Outcome.next.inj hu
      refine .inl ⟨h1, ?_⟩
      rw [ht, ← hu]; rfl
    · rw [if_neg h1] at hu fault
      by_cases h2 : s.cfg.progEnd < s.pc.toNat
      · rw [if_pos h2] at fault; exact .inr (.inl ⟨_, fault _ rfl⟩)
      · rw [if_neg h2] at hu fault
        by_cases h3 : s.pc.toNat % 4 ≠ 0
        · rw [if_pos h3] at fault; exact .inr (.inl ⟨_, fault _ rfl⟩)
        · rw [if_neg h3] at hu fault
          dsimp only at hu fault
          cases hd : decode (fetchSlot s) with
          | error f => rw [hd] at fault; exact .inr (.inl ⟨_, fault _ rfl⟩)
          | ok i =>
            rw [hd] at hu fault
            dsimp only at hu fault
            rcases exec_effect hu with he | ⟨e, rfl⟩
            · exact .inr (.inr ⟨i, u, ⟨by omega, by omega⟩, hd, hu, he, ht⟩)
            · exact .inr (.inl ⟨e, fault _ hu⟩)
  · cases h
  · cases h

/-- The slot at a legal `pc` is fetched (R16). -/
theorem fetch_slot {s : State} (h : s.pcLegal) : fetch s = .slot (slotAtPc s) := by
  obtain ⟨h1, h2⟩ := h
  unfold fetch
  rw [if_neg (by omega), if_neg (by omega), if_neg (by omega)]
  rfl

/-- A fetched slot was fetched at a legal `pc`. -/
theorem pcLegal_of_fetch {s : State} {w : Slot} (h : fetch s = .slot w) : s.pcLegal ∧ slotAtPc s = w := by
  unfold fetch at h
  split at h
  · cases h
  · split at h
    · cases h
    · split at h
      · cases h
      · cases h
        exact ⟨⟨by omega, by omega⟩, rfl⟩

/-! ## The word the host places -/

/-- The table word decodes as its slot does. -/
theorem tableSlot_decode {w i} (h : decodeTableWord 32 w = some i) : decode (tableSlot 32 w) = .ok i := by
  unfold decodeTableWord at h
  split at h
  · rename_i j hj; rw [hj]; simpa using h
  · cases h

/-- A legal machine made ready fetches. -/
theorem readyToFetch_fetches (s : State) (h : s.cfg.Legal) : s.readyToFetch.fetches = true := by
  unfold State.readyToFetch
  split
  · assumption
  · simp [State.fetches, Config.progEnd]; exact Nat.lt_of_lt_of_le (by omega) h.2.1

/-! ## What an effect keeps -/

/-- No instruction writes the configuration (R31). -/
theorem effect_cfg {i s t} (h : Effect i s t) : t.cfg = s.cfg := by
  cases i <;> simp only [Effect] at h
  case lod => obtain ⟨v, rfl⟩ := h; rfl
  case ldi => rw [h]; rfl
  case sto => rw [h.1]; rfl
  case pshLit => obtain ⟨-, v, rfl⟩ := h; rfl
  case pshReg => obtain ⟨-, v, rfl⟩ := h; rfl
  case pop => obtain ⟨v, rfl⟩ := h; rfl
  case cmp => rw [h]; rfl
  case jmp => obtain ⟨v, rfl⟩ := h; rfl
  case cal => rcases h with ⟨-, -, rfl⟩ | rfl <;> rfl
  case ret => rw [h.2]
  case int n =>
    obtain ⟨-, h⟩ := h
    split at h
    · rw [h.2]
    · rw [h]
    · obtain ⟨bs, rfl⟩ := h; rfl
    · rw [h]
  all_goals (obtain ⟨r, rfl⟩ := h; rfl)

/-- Only halt changes the run status (R153). -/
theorem effect_status {i s t} (h : Effect i s t) : t.status = s.status ∨ i = .int 0 ∧ t.status = .halted (some (s.getX 0)) := by
  cases i <;> simp only [Effect] at h
  case lod => obtain ⟨v, rfl⟩ := h; exact .inl rfl
  case ldi => rw [h]; exact .inl rfl
  case sto => rw [h.1]; exact .inl rfl
  case pshLit => obtain ⟨-, v, rfl⟩ := h; exact .inl rfl
  case pshReg => obtain ⟨-, v, rfl⟩ := h; exact .inl rfl
  case pop => obtain ⟨v, rfl⟩ := h; exact .inl rfl
  case cmp => rw [h]; exact .inl rfl
  case jmp => obtain ⟨v, rfl⟩ := h; exact .inl rfl
  case cal => rcases h with ⟨-, -, h⟩ | h <;> rw [h] <;> exact .inl rfl
  case ret => rw [h.2]; exact .inl rfl
  case int n =>
    obtain ⟨-, h⟩ := h
    split at h
    · rename_i h0; rw [h.2]; exact .inr ⟨by rw [show n = 0 from BitVec.eq_of_toNat_eq h0], rfl⟩
    · rw [h]; exact .inl rfl
    · obtain ⟨bs, rfl⟩ := h; exact .inl rfl
    · rw [h]; exact .inl rfl
  all_goals (obtain ⟨r, rfl⟩ := h; exact .inl rfl)

theorem runningStep_cfg {s u} (h : runningStep s = .next u) : u.cfg = s.cfg := by
  unfold runningStep at h
  split at h
  · rw [← Host.Outcome.next.inj h]
  · rw [← Host.Outcome.next.inj h]
  · split at h
    · rw [← Host.Outcome.next.inj h]
    · rcases exec_effect h with h | ⟨e, rfl⟩
      · exact effect_cfg h
      · rfl

theorem afterEffect_status {u : State} : (if u.status = .running then u.deviceAct else u).status = u.status := by
  split <;> simp

theorem deviceAct_memOk {u : State} (h : u.memOk) : u.deviceAct.memOk := by
  refine ⟨?_, fun c hc => ?_⟩
  · rw [State.deviceAct_mem]; exact deviceWrite_wf _ h.1 _
  · rw [State.deviceAct_mem] at hc
    rw [State.deviceAct_cfg]
    rcases mem_deviceWrite hc with h1 | h1
    · exact h1.2
    · exact h.2 c h1

/-- A push that fits keeps the memory invariant. -/
theorem writeDown_memOk {s : State} (h : s.memOk) (sp : Word) (bs : List Byte) (hp : State.canPush { s with sp := sp } bs.length) :
    (s.mem.writeDown sp bs).wf ∧ ∀ c ∈ s.mem.writeDown sp bs, c.1 < s.cfg.memSize := by
  refine ⟨Memory.wf_writeDown h.1 _ _, fun c hc => ?_⟩
  rcases Memory.mem_writeDown hc with ⟨i, hi, he⟩ | hc
  · rw [he]; exact (hp i hi).1
  · exact h.2 c hc

theorem entered_memOk {s : State} (h : s.memOk) (hp : s.canPush 8) : (entered s).memOk := writeDown_memOk h _ _ hp

/-- Every instruction keeps the memory invariant. -/
theorem effect_memOk {i s t} (h : Effect i s t) (hm : s.memOk) : t.memOk := by
  cases i <;> simp only [Effect] at h
  case lod => obtain ⟨v, rfl⟩ := h; exact hm
  case ldi => rw [h]; exact hm
  case sto r m => 
    rw [h.1]
    refine ⟨Memory.wf_writeList hm.1 _ _, fun c hc => ?_⟩
    rcases Memory.mem_writeList hc with h1 | h1
    · have := h.2.1; rw [wordBytes_length] at h1; show c.1 < s.cfg.memSize; omega
    · exact hm.2 c h1
  case pshLit => obtain ⟨hp, v, rfl⟩ := h; exact writeDown_memOk hm _ _ hp
  case pshReg => obtain ⟨hp, v, rfl⟩ := h; exact writeDown_memOk hm _ _ hp
  case pop => obtain ⟨v, rfl⟩ := h; exact hm
  case cmp => rw [h]; exact hm
  case jmp => obtain ⟨v, rfl⟩ := h; exact hm
  case cal =>
    rcases h with ⟨-, hp, h⟩ | h
    · rw [h]; exact writeDown_memOk hm _ _ hp
    · rw [h]; exact hm
  case ret => rw [h.2]; exact writeDown_memOk hm _ _ h.1
  case int n =>
    obtain ⟨hp, h⟩ := h
    have he := entered_memOk hm hp
    split at h
    · rw [h.2]; exact writeDown_memOk he _ _ (canPush_sub (s := s) (m := 8) (n := 4) h.1 rfl rfl)
    · rw [h]
      have : (keyboardAction (entered s)).memOk := deviceAct_memOk (u := { entered s with kbdRequests := _ }) he
      refine ⟨this.1, fun c hc => ?_⟩
      have := this.2 c hc
      simpa [keyboardAction, entered] using this
    · obtain ⟨bs, rfl⟩ := h; exact he
    · rw [h]; exact he
  all_goals (obtain ⟨r, rfl⟩ := h; exact hm)

/-- The descriptor table and the device-mapped window are disjoint (R41). -/
theorem ddt_not_window {s : State} {a} (h : s.inDdt a) : ¬s.inWindow a := by
  unfold State.inDdt State.inWindow Config.devmapBase Config.ramEnd Config.ramBase at *
  omega

theorem writeDown_ddt {s : State} {sp : Word} {bs : List Byte} {a} (ha : s.inDdt a) (hp : State.canPush { s with sp := sp } bs.length) :
    (s.mem.writeDown sp bs).read a = s.byteAt a :=
  Memory.read_writeDown_other fun i hi he => by subst he; exact (hp i hi).2 ha

theorem deviceAct_ddt {u : State} {a} (ha : u.inDdt a) : u.deviceAct.byteAt a = u.byteAt a :=
  State.byteAt_deviceAct u (ddt_not_window ha)

/-- No instruction changes a byte of the descriptor table (R42). -/
theorem effect_ddt {i s t a} (h : Effect i s t) (ha : s.inDdt a) : t.byteAt a = s.byteAt a := by
  cases i <;> simp only [Effect] at h
  case lod => obtain ⟨v, rfl⟩ := h; rfl
  case ldi => rw [h]; rfl
  case sto r m => 
    rw [h.1, State.advance_byteAt, State.byteAt_putBytes, dif_neg]
    rintro ⟨h1, h2⟩
    exact h.2.2 a h1 h2 ha
  case pshLit => obtain ⟨hp, v, rfl⟩ := h; exact writeDown_ddt ha hp
  case pshReg => obtain ⟨hp, v, rfl⟩ := h; exact writeDown_ddt ha hp
  case pop => obtain ⟨v, rfl⟩ := h; rfl
  case cmp => rw [h]; rfl
  case jmp => obtain ⟨v, rfl⟩ := h; rfl
  case cal =>
    rcases h with ⟨-, hp, h⟩ | h
    · rw [h]; exact writeDown_ddt ha hp
    · rw [h]; rfl
  case ret => rw [h.2]; exact writeDown_ddt ha h.1
  case int n =>
    obtain ⟨hp, h⟩ := h
    have he : (entered s).byteAt a = s.byteAt a := writeDown_ddt ha hp
    split at h
    · rw [h.2]
      exact (writeDown_ddt (s := entered s) (bs := pushOrder (s.getX 0)) (sp := s.sp - 8) ha (canPush_sub (s := s) (t := { entered s with sp := s.sp - 8 }) (m := 8) (n := 4) h.1 rfl rfl)).trans he
    · rw [h]
      exact (deviceAct_ddt (u := { entered s with kbdRequests := _ }) ha).trans he
    · obtain ⟨bs, rfl⟩ := h; exact he
    · rw [h]; exact he
  all_goals (obtain ⟨r, rfl⟩ := h; rfl)

/-- Only `INT #2` appends to the output stream (R26). -/
theorem effect_out {i s t} (h : Effect i s t) : ∃ bs, t.out = s.out ++ bs ∧ (bs ≠ [] → i = .int 2) := by
  have keep : t.out = s.out → ∃ bs, t.out = s.out ++ bs ∧ (bs ≠ [] → i = .int 2) := fun h => ⟨[], by simp [h], by simp⟩
  cases i <;> simp only [Effect] at h
  case lod => obtain ⟨v, rfl⟩ := h; exact keep rfl
  case ldi => rw [h] at keep ⊢; exact keep rfl
  case sto => obtain ⟨rfl, -⟩ := h; exact keep rfl
  case pshLit => obtain ⟨-, v, rfl⟩ := h; exact keep rfl
  case pshReg => obtain ⟨-, v, rfl⟩ := h; exact keep rfl
  case pop => obtain ⟨v, rfl⟩ := h; exact keep rfl
  case cmp => rw [h] at keep ⊢; exact keep rfl
  case jmp => obtain ⟨v, rfl⟩ := h; exact keep rfl
  case cal => rcases h with ⟨-, -, h⟩ | h <;> (subst h; exact keep rfl)
  case ret => obtain ⟨-, rfl⟩ := h; exact keep rfl
  case int n =>
    obtain ⟨-, h⟩ := h
    split at h
    · obtain ⟨-, rfl⟩ := h; exact keep rfl
    · subst h; exact keep rfl
    · rename_i h2; obtain ⟨bs, rfl⟩ := h; exact ⟨bs, rfl, fun _ => by rw [show n = 2 from BitVec.eq_of_toNat_eq h2]⟩
    · subst h; exact keep rfl
  all_goals (obtain ⟨r, rfl⟩ := h; exact keep rfl)

/-- Only `INT #1` counts a request (R28). -/
theorem effect_kbd {i s t} (h : Effect i s t) : t.kbdRequests = s.kbdRequests ∨ t.kbdRequests = s.kbdRequests + 1 ∧ i = .int 1 := by
  cases i <;> simp only [Effect] at h
  case lod => obtain ⟨v, rfl⟩ := h; exact .inl rfl
  case ldi => rw [h]; exact .inl rfl
  case sto => rw [h.1]; exact .inl rfl
  case pshLit => obtain ⟨-, v, rfl⟩ := h; exact .inl rfl
  case pshReg => obtain ⟨-, v, rfl⟩ := h; exact .inl rfl
  case pop => obtain ⟨v, rfl⟩ := h; exact .inl rfl
  case cmp => rw [h]; exact .inl rfl
  case jmp => obtain ⟨v, rfl⟩ := h; exact .inl rfl
  case cal => rcases h with ⟨-, -, h⟩ | h <;> rw [h] <;> exact .inl rfl
  case ret => rw [h.2]; exact .inl rfl
  case int n =>
    obtain ⟨-, h⟩ := h
    split at h
    · rw [h.2]; exact .inl rfl
    · rename_i h1; rw [h]; exact .inr ⟨rfl, by rw [show n = 1 from BitVec.eq_of_toNat_eq h1]⟩
    · obtain ⟨bs, rfl⟩ := h; exact .inl rfl
    · rw [h]; exact .inl rfl
  all_goals (obtain ⟨r, rfl⟩ := h; exact .inl rfl)

theorem getX_set (s : State) (j d : Gpr) (v : Word) (h : (s.x.set d v)[j] ≠ s.x[j]) : d = j := by
  by_contra hne
  apply h
  exact State.getX_setX_other s hne v

/-! ## The device collaborator -/

/-- The device can put any bytes at any part of its window (R58). -/
theorem deviceWrite_all (c : Config) (f : Nat → Byte) (n : Nat) (m : Memory) (base : Nat) (hb : c.devmapBase ≤ base) (he : base + n ≤ c.devmapEnd) :
   ∀ a, base ≤ a → a < base + n → (deviceWrite c m ((List.range' base n).map fun a => (a, f a))).read a = f a := by
  induction n generalizing m base with
  | zero => intro a h1 h2; omega
  | succ n ih =>
    intro a h1 h2
    simp only [List.range'_succ, List.map_cons, deviceWrite]
    by_cases hx : base + 1 ≤ a
    · exact ih _ (base + 1) (by omega) (by omega) a hx (by omega)
    · obtain rfl : a = base := by omega
      have keep : ∀ (n b : Nat) (m : Memory), a < b → (deviceWrite c m ((List.range' b n).map fun a => (a, f a))).read a = m.read a := by
        intro n
        induction n with
        | zero => intros; rfl
        | succ n ih =>
          intro b m hab
          simp only [List.range'_succ, List.map_cons, deviceWrite]
          rw [ih _ _ (by omega)]
          split
          · exact Memory.read_write_other _ (by omega) _
          · rfl
      rw [keep _ _ _ (by omega), if_pos ⟨by omega, by omega⟩, Memory.read_write_same]

end Sys2Proof.Machine
end

