-- ==== Sys2Proof/Laws/Device.lean ====
section
/-! SUPPORT. The device's pending inputs do not reach an instruction: replacing them changes nothing of its next state
but themselves and, for `INT #1`, the device-mapped window. -/

namespace Sys2Proof.Machine

/-- The state with other pending device inputs. -/
def State.withInputs (d : List (List Host.Cell)) (s : State) : State := { s with deviceInputs := d }
/-- The same for what an instruction leaves or raises. -/
def mapInputs (d : List (List Host.Cell)) : Except Raised State → Except Raised State
  | .ok s => .ok (State.withInputs d s)
  | .error e => .error e

theorem finish_withInputs {d s r t} (h : finish s r = .next t) : finish (State.withInputs d s) (mapInputs d r) = .next (State.withInputs d t) := by
  cases r with
  | ok u => obtain rfl := Host.Outcome.next.inj h; rfl
  | error e => obtain rfl := Host.Outcome.next.inj h; rfl

theorem push32_withInputs (d s v) : push32 (State.withInputs d s) v = mapInputs d (push32 s v) := by
  rw [push32_eq, push32_eq, show firstPushFault (State.withInputs d s) 4 = firstPushFault s 4 from rfl]
  cases firstPushFault s 4 <;> rfl

theorem pop32_withInputs (d s) : pop32 (State.withInputs d s) = (pop32 s).map (fun p => (p.1, State.withInputs d p.2)) := by
  rw [pop32_eq, pop32_eq, show firstPopFault (State.withInputs d s) (State.withInputs d s).sp 4 = firstPopFault s s.sp 4 from rfl]
  cases firstPopFault s s.sp 4 <;> rfl

theorem memWrite_withInputs (d s a bs) : memWrite (State.withInputs d s) a bs = mapInputs d (memWrite s a bs) := by
  have hf : ∀ n a, firstInDdt (State.withInputs d s) a n = firstInDdt s a n := by
    intro n
    induction n with
    | zero => intro a; rfl
    | succ n ih => intro a; simp only [firstInDdt, ih]; rfl
  unfold memWrite checkDescriptor
  rw [hf, show checkBounds (State.withInputs d s) a.toNat bs.length = checkBounds s a.toNat bs.length from rfl]
  cases checkBounds s a.toNat bs.length with
  | error e => rfl
  | ok u =>
    simp only [bind_ok]
    cases firstInDdt s a.toNat bs.length <;> rfl

theorem bind_withInputs {d} {r : Except Raised State} {f g : State → Except Raised State} (h : ∀ t, g (State.withInputs d t) = mapInputs d (f t)) :
    (mapInputs d r >>= g) = mapInputs d (r >>= f) := by
  cases r with
  | ok t => exact h t
  | error e => rfl

theorem bind_pop_withInputs {d} {r : Except Raised (Word × State)} {f g : Word × State → Except Raised State} (h : ∀ v t, g (v, State.withInputs d t) = mapInputs d (f (v, t))) :
    (r.map (fun p => (p.1, State.withInputs d p.2)) >>= g) = mapInputs d (r >>= f) := by
  cases r with
  | ok p => obtain ⟨v, t⟩ := p; exact h v t
  | error e => rfl

theorem effAddr_withInputs (d s m) : effAddr (State.withInputs d s) m = effAddr s m := by cases m <;> rfl
theorem aluOperand_withInputs (d s m) : aluOperand (State.withInputs d s) m = aluOperand s m := by cases m <;> rfl

theorem execAlu_withInputs {d op r o s t} (h : execAlu op r o s = .next t) : execAlu op r o (State.withInputs d s) = .next (State.withInputs d t) := by
  unfold execAlu at *
  rw [aluOperand_withInputs, show (State.withInputs d s).getX r = s.getX r from rfl]
  cases hop : op (s.getX r) (aluOperand s o) with
  | error e => rw [hop] at h; obtain rfl := Host.Outcome.next.inj h; rfl
  | ok v => rw [hop] at h; obtain rfl := Host.Outcome.next.inj h; rfl

theorem bytesAt_withInputs (d s a n) : (State.withInputs d s).bytesAt a n = s.bytesAt a n := by
  induction n generalizing a with
  | zero => rfl
  | succ n ih => simp only [State.bytesAt, ih]; rfl

theorem exit_withInputs (d saved u) :
    interruptExit (State.withInputs d saved) (State.withInputs d u) = mapInputs d (interruptExit saved u) := by
  unfold interruptExit
  rw [pop32_withInputs]
  refine bind_pop_withInputs fun v t => ?_
  dsimp only
  rw [pop32_withInputs]
  exact bind_pop_withInputs fun v t => rfl

theorem exec_withInputs {d i s t} (hi : i ≠ .int 1) (h : exec i s = .next t) : exec i (State.withInputs d s) = .next (State.withInputs d t) := by
  cases i
  case lod r m =>
    simp only [exec, execLod] at h ⊢
    rw [← finish_withInputs h]
    rw [effAddr_withInputs]
    cases hm : memRead4 s (effAddr s m) with
    | error e => rw [show memRead4 (State.withInputs d s) (effAddr s m) = _ from hm]; rfl
    | ok v => rw [show memRead4 (State.withInputs d s) (effAddr s m) = _ from hm]; rfl
  case ldi => obtain rfl := Host.Outcome.next.inj h; rfl
  case sto r m =>
    simp only [exec, execSto] at h ⊢
    rw [← finish_withInputs h]
    rw [effAddr_withInputs]
    congr 1
    unfold memWrite4
    rw [memWrite_withInputs]
    exact bind_withInputs fun t => rfl
  case pshLit v =>
    refine Eq.trans ?_ (finish_withInputs h)
    simp only [exec, execPshLit, pushValue]
    rw [push32_withInputs]
    congr 1
    exact bind_withInputs fun t => rfl
  case pshReg k =>
    simp only [exec, execPshReg] at h ⊢
    split at h
    · rename_i hk
      rw [if_pos hk]
      refine Eq.trans ?_ (finish_withInputs h)
      unfold pushValue
      rw [push32_withInputs]
      congr 1
      rw [show fileReg (State.withInputs d s) k = fileReg s k by cases k <;> rfl]
      exact bind_withInputs fun t => rfl
    · rename_i hk
      rw [if_neg hk]; obtain rfl := Host.Outcome.next.inj h; rfl
  case pop r =>
    refine Eq.trans ?_ (finish_withInputs h)
    simp only [exec, execPop]
    rw [pop32_withInputs]
    congr 1
    exact bind_pop_withInputs fun v t => rfl
  case cmp => obtain rfl := Host.Outcome.next.inj h; rfl
  case jmp =>
    simp only [exec, execJmp] at h ⊢
    obtain rfl := Host.Outcome.next.inj h
    rw [show (State.withInputs d s).sr = s.sr from rfl]
    split <;> rfl
  case cal c a =>
    simp only [exec, execCal] at h ⊢
    rw [← finish_withInputs h]
    congr 1
    rw [show (State.withInputs d s).sr = s.sr from rfl]
    split
    · unfold takeCall
      rw [push32_withInputs]
      refine bind_withInputs fun t => ?_
      rw [push32_withInputs]
      exact bind_withInputs fun t => rfl
    · rfl
  case ret =>
    refine Eq.trans ?_ (finish_withInputs h)
    simp only [exec, execRet, takeReturn]
    congr 1
    rw [pop32_withInputs]
    refine bind_pop_withInputs fun v t => ?_
    dsimp only
    rw [show ({ State.withInputs d t with sp := (State.withInputs d t).fp } : State) = State.withInputs d { t with sp := t.fp } from rfl, pop32_withInputs]
    refine bind_pop_withInputs fun v2 t => ?_
    dsimp only
    rw [show ({ State.withInputs d t with pc := v2 } : State) = State.withInputs d { t with pc := v2 } from rfl, pop32_withInputs]
    refine bind_pop_withInputs fun v3 t => ?_
    exact push32_withInputs d { t with fp := v3 } v
  case int n =>
    refine Eq.trans ?_ (finish_withInputs h)
    simp only [exec, execInt, interrupt]
    congr 1
    have hentry : interruptEntry (State.withInputs d s) = mapInputs d (interruptEntry s) := by
      unfold interruptEntry
      rw [push32_withInputs]
      exact bind_withInputs fun t => push32_withInputs d t t.sr
    rw [hentry]
    refine bind_withInputs fun t => ?_
    split
    · unfold haltAction
      rw [show ({ State.withInputs d t with pc := BitVec.ofNat 32 (State.withInputs d t).cfg.progEnd } : State) = State.withInputs d { t with pc := BitVec.ofNat 32 t.cfg.progEnd } from rfl, push32_withInputs]
      exact bind_withInputs fun t => rfl
    · rename_i h1
      exact absurd (show n = 1 from BitVec.eq_of_toNat_eq h1) (by simpa using hi)
    · have ho : outputAction (State.withInputs d t) = mapInputs d (outputAction t) := by
        unfold outputAction
        rw [bytesAt_withInputs, show (State.withInputs d t).getX 1 = t.getX 1 from rfl, show (State.withInputs d t).getX 0 = t.getX 0 from rfl, show checkBounds (State.withInputs d t) = checkBounds t from rfl]
        split
        · rfl
        · cases checkBounds t (t.getX 0).toNat (t.getX 1).toNat <;> rfl
      rw [ho]
      exact bind_withInputs fun u => exit_withInputs d t u
    · exact exit_withInputs d t t
  case add => exact execAlu_withInputs (exec_add _ _ s ▸ h)
  case sub => exact execAlu_withInputs (exec_sub _ _ s ▸ h)
  case mul => exact execAlu_withInputs (exec_mul _ _ s ▸ h)
  case div => exact execAlu_withInputs (exec_div _ _ s ▸ h)
  case and => exact execAlu_withInputs (exec_and _ _ s ▸ h)
  case orr => exact execAlu_withInputs (exec_orr _ _ s ▸ h)
  case xor => exact execAlu_withInputs (exec_xor _ _ s ▸ h)
  case shl => exact execAlu_withInputs (exec_shl _ _ s ▸ h)
  case shr => exact execAlu_withInputs (exec_shr _ _ s ▸ h)

/-- Two states that differ only in the device's inputs: equal in everything else but the bytes of the window. -/
def SameOffDevice (s t : State) : Prop :=
  t = { s with mem := t.mem, deviceInputs := t.deviceInputs } ∧ ∀ a, ¬s.inWindow a → t.byteAt a = s.byteAt a

/-- What the device will do is invisible to every instruction outside the window (R52, R58). -/
theorem exec_sameOffDevice {i s t} (d) (h : exec i s = .next t) :
    ∃ u, exec i (State.withInputs d s) = .next u ∧ SameOffDevice t u := by
  by_cases hi : i = .int 1
  · subst hi
    cases hf : firstPushFault s 8 with
    | some e =>
      have he : ∀ s' : State, firstPushFault s' 8 = some e → exec (.int 1) s' = .next (s'.afterFault e) := by
        intro s' hs'
        simp only [exec, execInt, interrupt]
        rw [interruptEntry_error hs']
        rfl
      rw [he s hf] at h
      obtain rfl := Host.Outcome.next.inj h
      exact ⟨_, he (State.withInputs d s) hf, rfl, fun a ha => rfl⟩
    | none =>
      have hp := firstPushFault_none.mp hf
      simp only [exec, execInt] at h ⊢
      rw [interrupt_keyboard hp] at h
      rw [interrupt_keyboard (s := State.withInputs d s) hp]
      obtain rfl := Host.Outcome.next.inj h
      refine ⟨_, rfl, rfl, fun a ha => ?_⟩
      show Memory.read (deviceWrite s.cfg _ _) a = Memory.read (deviceWrite s.cfg _ _) a
      rw [read_deviceWrite _ _ _ ha, read_deviceWrite _ _ _ ha]
      rfl
  · exact ⟨_, exec_withInputs hi h, rfl, fun a ha => rfl⟩

end Sys2Proof.Machine
end

