-- ==== Sys2Proof/Laws/PerInstr.lean ====
section
/-! SUPPORT. Statements made per instruction. `OpcodeByte`: the first byte of an encoding is the row's opcode byte in the
opcode table (spec/30_encoding.md R72), whatever the operands. -/

namespace Sys2Proof.Laws.OpcodeByte

/-- The opcode byte of each instruction, from the table. -/
def byte : Instr → Byte
  | .lod _ _ => 0x01
  | .ldi _ _ => 0x02
  | .sto _ _ => 0x03
  | .pshLit _ => 0x04
  | .pshReg _ => 0x04
  | .pop _ => 0x05
  | .add _ _ => 0x06
  | .sub _ _ => 0x07
  | .mul _ _ => 0x08
  | .div _ _ => 0x09
  | .and _ _ => 0x0A
  | .orr _ _ => 0x0B
  | .xor _ _ => 0x0C
  | .shl _ _ => 0x0D
  | .shr _ _ => 0x0E
  | .cmp _ _ => 0x0F
  | .jmp _ _ => 0x10
  | .cal _ _ => 0x11
  | .ret => 0x12
  | .int _ => 0x13

/-- The encoding starts with the instruction's opcode byte. -/
def Statement (i : Instr) : Prop := (encode i).b0 = byte i

theorem lod (d : Gpr) (m : MemOperand) : Statement (.lod d m) := by cases m <;> rfl

theorem ldi (d : Gpr) (v : Half) : Statement (.ldi d v) := rfl

theorem sto (r : Gpr) (m : MemOperand) : Statement (.sto r m) := by cases m <;> rfl

theorem pshLit (v : Half) : Statement (.pshLit v) := rfl

theorem pshReg (k : FileReg) : Statement (.pshReg k) := rfl

theorem pop (d : Gpr) : Statement (.pop d) := rfl

theorem add (d : Gpr) (o : AluOperand) : Statement (.add d o) := by cases o <;> rfl

theorem sub (d : Gpr) (o : AluOperand) : Statement (.sub d o) := by cases o <;> rfl

theorem mul (d : Gpr) (o : AluOperand) : Statement (.mul d o) := by cases o <;> rfl

theorem div (d : Gpr) (o : AluOperand) : Statement (.div d o) := by cases o <;> rfl

theorem and (d : Gpr) (o : AluOperand) : Statement (.and d o) := by cases o <;> rfl

theorem orr (d : Gpr) (o : AluOperand) : Statement (.orr d o) := by cases o <;> rfl

theorem xor (d : Gpr) (o : AluOperand) : Statement (.xor d o) := by cases o <;> rfl

theorem shl (d : Gpr) (o : AluOperand) : Statement (.shl d o) := by cases o <;> rfl

theorem shr (d : Gpr) (o : AluOperand) : Statement (.shr d o) := by cases o <;> rfl

theorem cmp (a b : Gpr) : Statement (.cmp a b) := rfl

theorem jmp (c : Metric) (a : Half) : Statement (.jmp c a) := rfl

theorem cal (c : Metric) (a : Half) : Statement (.cal c a) := rfl

theorem ret : Statement (.ret) := rfl

theorem int (n : Byte) : Statement (.int n) := rfl

end Sys2Proof.Laws.OpcodeByte
end

