-- ==== Sys2Proof/Laws/Raised.lean ====
section
/-! SUPPORT. What each access, stack and interrupt operation can raise (spec/60_exceptions.md R203): the cause, and where
its extra value lies. -/

namespace Sys2Proof.Machine

/-- The raised fault is `OutOfBounds` at an address that does not exist (R204). -/
def OobAt (s : State) (e : Raised) : Prop := e.cause = .outOfBounds ∧ s.cfg.memSize ≤ e.info

/-- The raised fault is `DescriptorWrite` at an address of the descriptor table (R213). -/
def DescAt (s : State) (e : Raised) : Prop := e.cause = .descriptorWrite ∧ s.inDdt e.info

/-- All a 4-byte read can raise (R44). -/
theorem memRead4_raises {s a e} (h : memRead4 s a = .error e) : OobAt s e := by
  by_cases hb : a.toNat + 4 ≤ s.cfg.memSize
  · rw [memRead4_ok hb] at h; cases h
  · rw [memRead4_error (by omega)] at h
    cases h
    exact ⟨rfl, by simp⟩

/-- All a write can raise (R45). -/
theorem memWrite_raises {s a bs e} (h : memWrite s a bs = .error e) : OobAt s e ∨ DescAt s e := by
  by_cases hb : a.toNat + bs.length ≤ s.cfg.memSize
  · cases hf : firstInDdt s a.toNat bs.length with
    | some d =>
      rw [memWrite_descriptor hb hf] at h; cases h
      exact .inr ⟨rfl, (firstInDdt_some hf).2.2.1⟩
    | none =>
      rw [memWrite_ok hb (firstInDdt_none.mp hf)] at h; cases h
  · rw [memWrite_outOfBounds (by omega)] at h; cases h; exact .inl ⟨rfl, by simp⟩

/-- All a push can raise (R47). -/
theorem firstPushFault_raises {s n e} (h : firstPushFault s n = some e) : OobAt s e ∨ DescAt s e := by
  unfold firstPushFault at h
  obtain ⟨i, -, h⟩ := List.exists_of_findSome?_eq_some h
  unfold writeFault at h
  split at h
  · cases h; exact .inl ⟨rfl, by simpa⟩
  · split at h
    · cases h; exact .inr ⟨rfl, by simpa⟩
    · cases h

/-- All a pop can raise (R48). -/
theorem firstPopFault_raises {s sp n e} (h : firstPopFault s sp n = some e) : OobAt s e := by
  unfold firstPopFault at h
  obtain ⟨i, -, h⟩ := List.exists_of_findSome?_eq_some h
  unfold readFault at h
  split at h
  · cases h; exact ⟨rfl, by simpa⟩
  · cases h

theorem push32_raises {s v e} (h : push32 s v = .error e) : OobAt s e ∨ DescAt s e := by
  rw [push32_eq] at h
  split at h
  · rename_i hf; cases h; exact firstPushFault_raises hf
  · cases h

theorem pop32_raises {s e} (h : pop32 s = .error e) : OobAt s e := by
  rw [pop32_eq] at h
  split at h
  · rename_i hf; cases h; exact firstPopFault_raises hf
  · cases h

theorem OobAt_congr {s u e} (hc : u.cfg = s.cfg) (h : OobAt u e) : OobAt s e := by unfold OobAt at *; rwa [hc] at h

theorem DescAt_congr {s u e} (hc : u.cfg = s.cfg) (h : DescAt u e) : DescAt s e := by unfold DescAt State.inDdt at *; rwa [hc] at h

theorem raised_congr {s u e} (hc : u.cfg = s.cfg) (h : OobAt u e ∨ DescAt u e) : OobAt s e ∨ DescAt s e := h.imp (OobAt_congr hc) (DescAt_congr hc)

/-- All a return can raise (R144). -/
theorem takeReturn_raises {s e} (h : takeReturn s = .error e) : OobAt s e ∨ DescAt s e := by
  by_cases h1 : s.canPopFrom s.sp 4
  · cases hf : firstPopFault s s.fp 8 with
    | none =>
      have h2 := firstPopFault_none.mp hf
      by_cases h3 : { s with sp := s.fp + 8 }.canPush 4
      · rw [takeReturn_ok h1 h2 h3] at h; cases h
      · unfold takeReturn at h
        rw [pop32_ok h1, bind_ok] at h
        dsimp only at h
        cases p2 : pop32 { s with sp := s.fp } with
        | error e => rw [p2] at h; cases h; exact .inl (OobAt_congr (u := { s with sp := s.fp }) rfl (pop32_raises p2))
        | ok p =>
          obtain ⟨v, u⟩ := p
          obtain ⟨-, -, rfl⟩ := pop32_cases p2
          rw [p2, bind_ok] at h; dsimp only at h
          cases p3 : pop32 { s with sp := s.fp + 4, pc := v } with
          | error e => rw [p3] at h; cases h; exact .inl (OobAt_congr (by rfl) (pop32_raises p3))
          | ok p =>
            obtain ⟨v, u⟩ := p
            obtain ⟨-, -, rfl⟩ := pop32_cases p3
            rw [p3, bind_ok] at h
            exact raised_congr (by rfl) (push32_raises h)
    | some e' =>
      unfold takeReturn at h
      rw [pop32_ok h1, bind_ok] at h
      dsimp only at h
      cases p2 : pop32 { s with sp := s.fp } with
      | error e => rw [p2] at h; cases h; exact .inl (OobAt_congr (u := { s with sp := s.fp }) rfl (pop32_raises p2))
      | ok p =>
        obtain ⟨v, u⟩ := p
        obtain ⟨-, -, rfl⟩ := pop32_cases p2
        rw [p2, bind_ok] at h; dsimp only at h
        cases p3 : pop32 { s with sp := s.fp + 4, pc := v } with
        | error e => rw [p3] at h; cases h; exact .inl (OobAt_congr (by rfl) (pop32_raises p3))
        | ok p =>
          obtain ⟨v, u⟩ := p
          obtain ⟨-, -, rfl⟩ := pop32_cases p3
          rw [p3, bind_ok] at h
          exact raised_congr (by rfl) (push32_raises h)
  · unfold takeReturn at h
    cases p2 : pop32 s with
    | error e => rw [p2] at h; cases h; exact .inl (pop32_raises p2)
    | ok p => obtain ⟨v, u⟩ := p; exact absurd (pop32_cases p2).1 h1

/-- All an interrupt exit can raise (R156). -/
theorem interruptExit_raises {s u e} (h : interruptExit s u = .error e) : OobAt s e := by
  unfold interruptExit at h
  cases p2 : pop32 s with
  | error e => rw [p2] at h; cases h; exact pop32_raises p2
  | ok p =>
    obtain ⟨v, u⟩ := p
    obtain ⟨-, -, rfl⟩ := pop32_cases p2
    rw [p2, bind_ok] at h; dsimp only at h
    cases p3 : pop32 { s with sp := s.sp + 4 } with
    | error e => rw [p3] at h; cases h; exact OobAt_congr (by rfl) (pop32_raises p3)
    | ok p => rw [p3, bind_ok] at h; cases h

/-- All an interrupt can raise (R150). -/
theorem interrupt_raises {n s e} (h : interrupt n s = .error e) : OobAt s e ∨ DescAt s e := by
  unfold interrupt at h
  cases hf : firstPushFault s 8 with
  | some e' => rw [interruptEntry_error hf] at h; cases h; exact firstPushFault_raises hf
  | none =>
    rw [interruptEntry_ok (firstPushFault_none.mp hf), bind_ok] at h
    split at h
    · unfold haltAction at h
      cases p : push32 { s with
              pc := BitVec.ofNat 32 s.cfg.progEnd, mem := s.mem.writeDown s.sp (pushOrder (s.pc + 2) ++ pushOrder s.sr), sp := s.sp - 8 } (s.getX 0) with
      | error e => 
        have hp : push32 _ _ = _ := p
        erw [p] at h; cases h; exact raised_congr (by rfl) (push32_raises p)
      | ok t => erw [p] at h; cases h
    · exact .inl (OobAt_congr (by rfl) (interruptExit_raises h))
    · unfold outputAction at h
      split at h
      · exact .inl (OobAt_congr (by rfl) (interruptExit_raises h))
      · rw [checkBounds_eq] at h
        split at h
        · cases h; exact .inl ⟨rfl, by simp⟩
        · exact .inl (OobAt_congr (by rfl) (interruptExit_raises h))
    · exact .inl (OobAt_congr (by rfl) (interruptExit_raises h))

end Sys2Proof.Machine
end

