-- ==== Sys2Proof/Tests/Slice0.lean ====
section
/-! SUPPORT. Tests. Every expected value is copied from spec/95_test_vectors.md (the vector's name is in the comment) or
from the rule cited; none comes from running the model. -/

namespace Sys2Proof.Tests

open Sys2Proof.Machine

/-! ## Helpers -/

/-- The reset state with bytes stored from address `a`. -/
def put (a : Nat) (bs : List Byte) (s : State) : State := s.putBytes a bs

/-- The bytes `a` to `a + n - 1` after one step, with the registers named by the vectors. -/
def next? (s : State) : Option State :=
  match step s with
  | .next t => some t
  | .fault _ => none
  | .refused _ => none

/-- One step from a state satisfies a Boolean test. -/
def stepTo (s : State) (p : State → Bool) : Bool :=
  match next? s with
  | some t => p t
  | none => false

/-- The status after a machine fault of the instruction at `slot`. -/
def faultedWith (c : FaultCause) (slot : Word) (info : Nat) (s : State) (t : State) : Bool :=
  t == { s with status := .faulted ⟨c, slot, info⟩ }

/-- Run an ALU instruction (opcode `op`, mode REG, `R0` and `R1`) on two operands: `R0`, `SR` and status after. -/
def alu (op : Byte) (a b : Word) : Option (Word × Word × RunStatus) :=
  (next? (put 0 [op, 0x01, 0, 0] ((State.reset.setX 0 a).setX 1 b))).map (fun t => (t.getX 0, t.sr, t.status))

/-- A row of the table of section 4: operands, result, `SR`. -/
def aluRow (op : Byte) (r : Word × Word × Word × Word) : Bool :=
  alu op r.1 r.2.1 == some (r.2.2.1, r.2.2.2, .running)

/-! ## Well-formedness -/

/-- R77: `PSH PC` is no instruction. -/
theorem test_wellFormed_refuses_push_pc : (Instr.pshReg .pc).wellFormed = false := by decide

theorem test_wellFormed_accepts_push_sr : (Instr.pshReg .sr).wellFormed = true := by decide

/-! ## Decoding: the words of section 2, E1 to E28, and the ignored bits -/

theorem test_decode_lod :
    decode ⟨0x01, 0x01, 0, 0⟩ = .ok (.lod 0 (.reg 1)) ∧ decode ⟨0x01, 0x41, 0x02, 0⟩ = .ok (.lod 0 (.regReg 1 2)) ∧
    decode ⟨0x01, 0x9A, 0, 0x09⟩ = .ok (.lod 3 (.regImm 2 9)) ∧ decode ⟨0x01, 0xC0, 0, 0⟩ = .ok (.lod 0 (.abs 0)) ∧
    decode ⟨0x01, 0x01, 0xFF, 0xFF⟩ = .ok (.lod 0 (.reg 1)) ∧
    decode ⟨0x01, 0x41, 0xFA, 0x77⟩ = .ok (.lod 0 (.regReg 1 2)) := by decide

theorem test_decode_ldi :
    decode ⟨0x02, 0, 0, 5⟩ = .ok (.ldi 0 5) ∧ decode ⟨0x02, 0x38, 0xFF, 0xFF⟩ = .ok (.ldi 7 0xFFFF) ∧
    decode ⟨0x02, 0xC5, 0, 5⟩ = .ok (.ldi 0 5) := by decide

theorem test_decode_sto :
    decode ⟨0x03, 0xC8, 0x20, 0⟩ = .ok (.sto 1 (.abs 0x2000)) ∧
    decode ⟨0x03, 0x8A, 0, 4⟩ = .ok (.sto 1 (.regImm 2 4)) := by decide

theorem test_decode_psh :
    decode ⟨0x04, 0x80, 0, 7⟩ = .ok (.pshLit 7) ∧ decode ⟨0x04, 3, 0, 0⟩ = .ok (.pshReg (.gpr 3)) ∧
    decode ⟨0x04, 8, 0, 0⟩ = .ok (.pshReg .sp) ∧ decode ⟨0x04, 9, 0, 0⟩ = .ok (.pshReg .fp) ∧
    decode ⟨0x04, 0x0B, 0, 0⟩ = .ok (.pshReg .sr) ∧ decode ⟨0x04, 0x81, 0, 7⟩ = .ok (.pshReg (.gpr 1)) ∧
    decode ⟨0x04, 0xC0, 0, 7⟩ = .ok (.pshReg (.gpr 0)) := by decide

theorem test_decode_pop :
    decode ⟨0x05, 2, 0, 0⟩ = .ok (.pop 2) ∧ decode ⟨0x05, 0xFA, 0x12, 0x34⟩ = .ok (.pop 2) := by decide

theorem test_decode_alu :
    decode ⟨0x06, 0x01, 0, 0⟩ = .ok (.add 0 (.reg 1)) ∧ decode ⟨0x06, 0x01, 0x12, 0x34⟩ = .ok (.add 0 (.reg 1)) ∧
    decode ⟨0x07, 0x48, 0, 1⟩ = .ok (.sub 1 (.imm 1)) ∧ decode ⟨0x08, 0x1B, 0, 0⟩ = .ok (.mul 3 (.reg 3)) ∧
    decode ⟨0x09, 0x40, 0, 2⟩ = .ok (.div 0 (.imm 2)) ∧ decode ⟨0x0A, 0x40, 0, 0xFF⟩ = .ok (.and 0 (.imm 0xFF)) ∧
    decode ⟨0x0B, 0x40, 0x56, 0x78⟩ = .ok (.orr 0 (.imm 0x5678)) ∧
    decode ⟨0x0C, 0x50, 0, 0x0F⟩ = .ok (.xor 2 (.imm 0x0F)) ∧ decode ⟨0x0D, 0x40, 0, 0x10⟩ = .ok (.shl 0 (.imm 16)) ∧
    decode ⟨0x0E, 0x48, 0, 0x1F⟩ = .ok (.shr 1 (.imm 31)) := by decide

theorem test_decode_cmp :
    decode ⟨0x0F, 0x13, 0, 0⟩ = .ok (.cmp 2 3) ∧ decode ⟨0x0F, 0xD3, 0xFF, 0xFF⟩ = .ok (.cmp 2 3) := by decide

theorem test_decode_control :
    decode ⟨0x10, 0x04, 0, 8⟩ = .ok (.jmp .gt 8) ∧ decode ⟨0x10, 0, 0x10, 0⟩ = .ok (.jmp .al 0x1000) ∧
    decode ⟨0x10, 0xFC, 0, 8⟩ = .ok (.jmp .gt 8) ∧ decode ⟨0x11, 0, 0, 0x14⟩ = .ok (.cal .al 0x14) ∧
    decode ⟨0x11, 1, 0, 0x14⟩ = .ok (.cal .eq 0x14) ∧ decode ⟨0x12, 0, 0, 0⟩ = .ok .ret ∧
    decode ⟨0x12, 0xAB, 0xCD, 0xEF⟩ = .ok .ret := by decide

theorem test_decode_int :
    decode ⟨0x13, 0, 0, 0⟩ = .ok (.int 0) ∧ decode ⟨0x13, 2, 0x99, 0x99⟩ = .ok (.int 2) ∧
    decode ⟨0x13, 0xFF, 0, 0⟩ = .ok (.int 255) := by decide

/-- The encodings that do not decode (section 2; R86). -/
theorem test_decode_refuses :
    decode ⟨0, 0, 0, 0⟩ = .error (.illegalOpcode 0) ∧ decode ⟨0x14, 0, 0, 0⟩ = .error (.illegalOpcode 0x14) ∧
    decode ⟨0xFF, 0, 0, 0⟩ = .error (.illegalOpcode 0xFF) ∧ decode ⟨0x06, 0x80, 0, 0⟩ = .error (.reservedMode 0x80) ∧
    decode ⟨0x06, 0xC0, 0, 0⟩ = .error (.reservedMode 0xC0) ∧ decode ⟨0x10, 7, 0, 0⟩ = .error (.reservedMode 7) ∧
    decode ⟨0x04, 0x0A, 0, 0⟩ = .error (.illegalRegister 0x0A) ∧
    decode ⟨0x04, 0x0C, 0, 0⟩ = .error (.illegalRegister 0x0C) := by decide

/-- The canonical encodings of R92. -/
theorem test_encode_examples :
    encode (.ldi 0 5) = ⟨0x02, 0, 0, 5⟩ ∧ encode (.lod 3 (.regImm 2 9)) = ⟨0x01, 0x9A, 0, 9⟩ ∧
    encode (.sto 1 (.abs 0x2000)) = ⟨0x03, 0xC8, 0x20, 0⟩ ∧ encode (.add 0 (.reg 1)) = ⟨0x06, 1, 0, 0⟩ ∧
    encode (.sub 1 (.imm 1)) = ⟨0x07, 0x48, 0, 1⟩ ∧ encode (.cmp 2 3) = ⟨0x0F, 0x13, 0, 0⟩ ∧
    encode (.pshLit 7) = ⟨0x04, 0x80, 0, 7⟩ ∧ encode (.pshReg .fp) = ⟨0x04, 9, 0, 0⟩ ∧
    encode (.pop 2) = ⟨0x05, 2, 0, 0⟩ ∧ encode (.jmp .gt 8) = ⟨0x10, 4, 0, 8⟩ ∧
    encode (.cal .al 0x14) = ⟨0x11, 0, 0, 0x14⟩ ∧ encode .ret = ⟨0x12, 0, 0, 0⟩ ∧
    encode (.int 2) = ⟨0x13, 2, 0, 0⟩ ∧ encode (.lod 0 (.regReg 1 2)) = ⟨0x01, 0x41, 0x02, 0⟩ := by decide

/-- The table numbers the big-endian word (R71). -/
theorem test_decodeTableWord :
    decodeTableWord 32 0x01000000 = some (.lod 0 (.reg 0)) ∧ decodeTableWord 32 0x04800000 = some (.pshLit 0) ∧
    decodeTableWord 32 0x0748ABCD = some (.sub 1 (.imm 0xABCD)) ∧ decodeTableWord 32 0x14000000 = none := by decide

/-! ## Load and store (section 3) -/

/-- M1, M2, M3. -/
theorem test_lod_modes :
    stepTo (put 0 [1, 0x01, 0, 0] (put 0x2000 [0x78, 0x56, 0x34, 0x12] (State.reset.setX 1 0x2000)))
      (fun t => t.getX 0 == 0x12345678 && t.pc == 4 && t.sr == 0) = true ∧
    stepTo (put 0 [1, 0x41, 2, 0]
        (put 0x2004 [0xEF, 0xBE, 0xAD, 0xDE] ((State.reset.setX 1 0x2000).setX 2 4)))
      (fun t => t.getX 0 == 0xDEADBEEF) = true ∧
    stepTo (put 0 [1, 0x99, 0xFF, 0xFF] (put 0x2000 [1, 2, 3, 4] (State.reset.setX 1 0xFFFF2001)))
      (fun t => t.getX 3 == 0x04030201) = true := by decide

/-- M4, M6, M7, M8. -/
theorem test_lod_bounds :
    stepTo (put 0 [1, 0xC0, 0, 0] State.reset) (fun t => t.getX 0 == 0x0000C001) = true ∧
    stepTo (put 0 [1, 0xC0, 0x7F, 0xFC] (put 0x7FFC [0xAA, 0xBB, 0xCC, 0xDD] State.reset))
      (fun t => t.getX 0 == 0xDDCCBBAA) = true ∧
    (let s := put 0 [1, 0xC0, 0x7F, 0xFD] State.reset
     stepTo s (faultedWith .outOfBounds 0 0x8000 s)) = true ∧
    (let s := put 0 [1, 0x01, 0, 0] (State.reset.setX 1 0xFFFFFFFE)
     stepTo s (faultedWith .outOfBounds 0 0xFFFFFFFE s)) = true := by decide

/-- M16. -/
theorem test_ldi_zero_extends :
    stepTo (put 0 [2, 0x38, 0xFF, 0xFF] State.reset) (fun t => t.getX 7 == 0xFFFF && t.sr == 0) = true := by decide

/-- M9, M10. -/
theorem test_sto_bytes :
    stepTo (put 0 [3, 0xC8, 0x20, 0] (State.reset.setX 1 0x11223344))
      (fun t => t.bytesAt 0x2000 4 == [0x44, 0x33, 0x22, 0x11] && t.sr == 0) = true ∧
    stepTo (put 0 [3, 0x8A, 0, 4] ((State.reset.setX 1 0xCAFEBABE).setX 2 0x2100))
      (fun t => t.bytesAt 0x2104 4 == [0xBE, 0xBA, 0xFE, 0xCA]) = true := by decide

/-- M11 to M14: no partial write. -/
theorem test_sto_faults :
    (let s := put 0 [3, 0xC8, 0x10, 0] (State.reset.setX 1 1)
     stepTo s (faultedWith .descriptorWrite 0 0x1000 s)) = true ∧
    (let s := put 0 [3, 0xC8, 0x0F, 0xFE] (State.reset.setX 1 0xAABBCCDD)
     stepTo s (faultedWith .descriptorWrite 0 0x1000 s)) = true ∧
    (let s := put 0 [3, 0xC8, 0x10, 0x3E] (State.reset.setX 1 0xAABBCCDD)
     stepTo s (faultedWith .descriptorWrite 0 0x103E s)) = true ∧
    (let s := put 0 [3, 0xC8, 0x7F, 0xFE] (State.reset.setX 1 0xAABBCCDD)
     stepTo s (faultedWith .outOfBounds 0 0x8000 s)) = true := by decide

/-! ## Arithmetic, logical, shift (section 4) -/

theorem test_add_vectors :
    [(2, 3, 5, 2), (0xFFFFFFFF, 1, 0, 1), (0x7FFFFFFF, 1, 0x80000000, 0), (0x80000000, 0x80000000, 0, 1),
     (5, 0xFFFF, 0x10004, 2)].all (aluRow 0x06) = true := by decide

theorem test_sub_vectors :
    [(5, 5, 0, 1), (0, 1, 0xFFFFFFFF, 0), (0x80000000, 1, 0x7FFFFFFF, 2), (3, 5, 0xFFFFFFFE, 0),
     (1, 0xFFFFFFFF, 2, 2)].all (aluRow 0x07) = true := by decide

theorem test_mul_vectors :
    [(6, 7, 0x2A, 2), (0x10000, 0x10000, 0, 1), (0xFFFFFFFF, 0xFFFFFFFF, 1, 2), (0xFFFFFFFF, 2, 0xFFFFFFFE, 0),
     (0x12345678, 0, 0, 1)].all (aluRow 0x08) = true := by decide

theorem test_div_vectors :
    [(7, 2, 3, 2), (0xFFFFFFF9, 2, 0xFFFFFFFD, 0), (7, 0xFFFFFFFE, 0xFFFFFFFD, 0), (0xFFFFFFF9, 0xFFFFFFFE, 3, 2),
     (1, 2, 0, 1), (0x80000000, 1, 0x80000000, 0), (0x80000000, 2, 0xC0000000, 0),
     (0x7FFFFFFF, 0xFFFFFFFF, 0x80000001, 0)].all (aluRow 0x09) = true := by decide

theorem test_div_faults :
    alu 0x09 5 0 = some (5, 0, .faulted ⟨.divideByZero, 0, 0⟩) ∧
    alu 0x09 0x80000000 0xFFFFFFFF = some (0x80000000, 0, .faulted ⟨.divideOverflow, 0, 0⟩) := by decide

theorem test_and_vectors :
    [(0xF0F0F0F0, 0x0FF00FF0, 0x00F000F0, 2), (0xFFFFFFFF, 0x80000000, 0x80000000, 0),
     (0xAAAA5555, 0xFFFF, 0x5555, 2), (1, 2, 0, 1)].all (aluRow 0x0A) = true := by decide

theorem test_orr_vectors :
    [(0xF0F0F0F0, 0x0F0F0F0F, 0xFFFFFFFF, 0), (0, 0, 0, 1), (0x12340000, 0xFFFF, 0x1234FFFF, 2)].all
      (aluRow 0x0B) = true := by decide

theorem test_xor_vectors :
    [(0xDEADBEEF, 0xDEADBEEF, 0, 1), (0xFFFFFFFF, 0xFFFF, 0xFFFF0000, 0), (0x7FFFFFFF, 0xFFFFFFFF, 0x80000000, 0)].all
      (aluRow 0x0C) = true := by decide

theorem test_shl_vectors :
    [(1, 31, 0x80000000, 0), (1, 0, 1, 2), (0xFFFFFFFF, 4, 0xFFFFFFF0, 0), (0x80000000, 1, 0, 1),
     (3, 30, 0xC0000000, 0)].all (aluRow 0x0D) = true ∧
    alu 0x0D 1 32 = some (1, 0, .faulted ⟨.shiftRange, 0, 0x20⟩) := by decide

theorem test_shr_vectors :
    [(0x80000000, 31, 1, 2), (0x80000000, 0, 0x80000000, 0), (0xFFFFFFFF, 4, 0x0FFFFFFF, 2), (1, 1, 0, 1),
     (0x80000000, 1, 0x40000000, 2)].all (aluRow 0x0E) = true ∧
    alu 0x0E 1 0x80000000 = some (1, 0, .faulted ⟨.shiftRange, 0, 0x80000000⟩) := by decide

/-- Section 4: `ADD R0 #1` on `0xFFFFFFFF`, and `XOR R2 R2`. -/
theorem test_alu_literal_and_same_register :
    stepTo (put 0 [6, 0x40, 0, 1] (State.reset.setX 0 0xFFFFFFFF)) (fun t => t.getX 0 == 0 && t.sr == 1) = true ∧
    stepTo (put 0 [0x0C, 0x12, 0, 0] (State.reset.setX 2 0x1234)) (fun t => t.getX 2 == 0 && t.sr == 1) = true := by
  decide

/-! ## Compare and metrics (section 5) -/

/-- `SR` after `CMP R0 R1`. -/
def cmpRow (r : Word × Word × Word) : Bool :=
  stepTo (put 0 [0x0F, 0x01, 0, 0] ((State.reset.setX 0 r.1).setX 1 r.2.1))
    (fun t => t.sr == r.2.2 && t.getX 0 == r.1 && t.getX 1 == r.2.1)

theorem test_cmp_vectors :
    [(5, 5, 1), (6, 5, 2), (5, 6, 0), (0xFFFFFFFF, 1, 0), (1, 0xFFFFFFFF, 2), (0x80000000, 0x7FFFFFFF, 0),
     (0x7FFFFFFF, 0x80000000, 2), (0, 0, 1), (0x80000000, 0x80000000, 1)].all cmpRow = true := by decide

/-- The table of R141, row by row: `AL EQ NE LT GT LE GE` for `SR` 0 to 7. -/
theorem test_metric_table :
    (List.range 8).map (fun k =>
      [Metric.al, .eq, .ne, .lt, .gt, .le, .ge].map (fun c => metricHolds c (BitVec.ofNat 32 k))) =
    [[true, false, true, true, false, true, false],
     [true, true, false, true, false, true, true],
     [true, false, true, false, true, false, true],
     [true, true, false, false, true, true, true],
     [true, false, true, true, false, true, true],
     [true, true, false, true, false, true, true],
     [true, false, true, false, true, false, true],
     [true, true, false, false, true, true, true]] := by decide

/-! ## Stack (section 6) -/

/-- T1, T2, T3, T4, T5. -/
theorem test_psh_forms :
    stepTo (put 0 [4, 0x80, 0xFF, 0xFF] State.reset)
      (fun t => t.bytesAt 0x3FFC 4 == [0xFF, 0xFF, 0, 0] && t.sp == 0x3FFB && t.fp == 0x3FFF) = true ∧
    stepTo (put 0 [4, 0x81, 0, 7] (State.reset.setX 1 0x99)) (fun t => t.bytesAt 0x3FFC 4 == [0x99, 0, 0, 0]) = true ∧
    stepTo (put 0 [4, 0x90, 0, 0] (State.reset.setX 0 0x55)) (fun t => t.bytesAt 0x3FFC 4 == [0x55, 0, 0, 0]) = true ∧
    stepTo (put 0 [4, 8, 0, 0] State.reset)
      (fun t => t.bytesAt 0x3FFC 4 == [0xFF, 0x3F, 0, 0] && t.sp == 0x3FFB) = true ∧
    stepTo (put 0 [4, 0x0B, 0, 0] { State.reset with sr := 2 })
      (fun t => t.bytesAt 0x3FFC 4 == [2, 0, 0, 0] && t.sr == 2) = true := by decide

/-- T6, T7, T8. -/
theorem test_psh_edges :
    (let s := put 0 [4, 0x0A, 0, 0] State.reset
     stepTo s (faultedWith .illegalRegister 0 0x0A s)) = true ∧
    stepTo (put 0 [4, 0x80, 0, 1] { State.reset with sp := 0x1043 })
      (fun t => t.bytesAt 0x1040 4 == [1, 0, 0, 0] && t.sp == 0x103F) = true ∧
    (let s := put 0 [4, 0x80, 0, 1] { State.reset with sp := 0x1042 }
     stepTo s (faultedWith .descriptorWrite 0 0x103F s)) = true := by decide

/-- T9, T10, T11, T12. -/
theorem test_pop_edges :
    stepTo (put 0 [5, 0, 0, 0] (put 0x4000 [0xDE, 0xC0, 0xAD, 0x0B] State.reset))
      (fun t => t.getX 0 == 0x0BADC0DE && t.sp == 0x4003) = true ∧
    stepTo (put 0 [5, 0, 0, 0] (put 0x7FFC [1, 0, 0, 0] { State.reset with sp := 0x7FFB }))
      (fun t => t.getX 0 == 1 && t.sp == 0x7FFF) = true ∧
    (let s := put 0 [5, 0, 0, 0] { State.reset with sp := 0x7FFC }
     stepTo s (faultedWith .outOfBounds 0 0x8000 s)) = true ∧
    stepTo (put 0 [5, 0, 0, 0] { State.reset with sp := 0xFFFFFFFF })
      (fun t => t.getX 0 == 5 && t.sp == 3) = true := by decide

/-! ## Control transfer (section 7) -/

/-- K1, K2, K3. -/
theorem test_jmp :
    stepTo (put 0x10 [0x10, 4, 0, 8] { State.reset with sr := 2, pc := 0x10 }) (fun t => t.pc == 8) = true ∧
    stepTo (put 0x10 [0x10, 4, 0, 8] { State.reset with sr := 1, pc := 0x10 }) (fun t => t.pc == 0x14) = true ∧
    stepTo (put 0 [0x10, 0, 0, 6] State.reset) (fun t => t.pc == 6) = true := by decide

/-- K7, K8. -/
theorem test_cal :
    stepTo (put 4 [0x11, 0, 0, 0x14] { State.reset with sp := 0x3FFB, fp := 0x3FFB, pc := 4 })
      (fun t => t.bytesAt 0x3FF4 8 == [8, 0, 0, 0, 0xFB, 0x3F, 0, 0] && t.sp == 0x3FF3 && t.fp == 0x3FF3 &&
        t.pc == 0x14) = true ∧
    (let s := put 0 [0x11, 1, 0, 0x14] State.reset
     stepTo s (fun t => t == { s with pc := 4 })) = true := by decide

/-- K11: the first push is not kept. -/
theorem test_cal_fault :
    (let s := put 0 [0x11, 0, 0, 0x14] { State.reset with sp := 0x1046, fp := 0x1046 }
     stepTo s (faultedWith .descriptorWrite 0 0x103F s)) = true := by decide

/-- K9, K10. -/
theorem test_ret :
    (let s := put 0x3FF4 [8, 0, 0, 0, 0xFB, 0x3F, 0, 0] (put 0x14 [0x12, 0, 0, 0]
        { State.reset with sp := 0x3FF3, fp := 0x3FF3, pc := 0x14 })
     stepTo s (fun t => t.pc == 8 && t.fp == 0x3FFB && t.sp == 0x3FF7 && t.bytesAt 0x3FF8 4 == [8, 0, 0, 0])) = true ∧
    (let s := put 0x3FF0 [0x31, 0, 0, 0, 8, 0, 0, 0, 0xFB, 0x3F, 0, 0] (put 0x14 [0x12, 0, 0, 0]
        { State.reset with sp := 0x3FEF, fp := 0x3FF3, pc := 0x14 })
     stepTo s (fun t => t.pc == 8 && t.fp == 0x3FFB && t.sp == 0x3FF7 && t.bytesAt 0x3FF8 4 == [0x31, 0, 0, 0])) = true := by
  decide

/-- K12: `RET` without `CAL`. -/
theorem test_ret_without_call :
    (let s := put 0x4000 [8, 0, 0, 0, 0xFF, 0x3F, 0, 0] (put 0 [0x12, 0, 0, 0] State.reset)
     stepTo s (fun t => t.pc == 8 && t.fp == 0x3FFF && t.sp == 0x4003 && t.bytesAt 0x4004 4 == [8, 0, 0, 0])) = true := by
  decide

/-! ## Interrupt (section 8) -/

/-- I1, I8, I9. -/
theorem test_int_halt :
    stepTo (put 4 [0x13, 0, 0, 0] { State.reset.setX 0 5 with pc := 4 })
      (fun t => t.bytesAt 0x3FF4 12 == [5, 0, 0, 0, 0, 0, 0, 0, 6, 0, 0, 0] && t.sp == 0x3FF3 && t.pc == 0x1000 &&
        t.status == .halted (some 5)) = true ∧
    stepTo (put 0 [0x13, 0, 0, 0] { State.reset.setX 0 9 with sp := 0x104B })
      (fun t => t.bytesAt 0x1040 12 == [9, 0, 0, 0, 0, 0, 0, 0, 2, 0, 0, 0] && t.sp == 0x103F &&
        t.status == .halted (some 9)) = true ∧
    (let s := put 0 [0x13, 0, 0, 0] { State.reset with sp := 0x104A }
     stepTo s (faultedWith .descriptorWrite 0 0x103F s)) = true := by decide

/-- I2 to I7. -/
theorem test_int_actions :
    stepTo (put 0 [0x13, 1, 0, 0] { State.reset with sr := 1 })
      (fun t => t.kbdRequests == 1 && t.pc == 4 && t.sp == 0x3FFF && t.sr == 1 &&
        t.bytesAt 0x3FF8 8 == [1, 0, 0, 0, 2, 0, 0, 0]) = true ∧
    stepTo (put 0 [0x13, 7, 0, 0] { State.reset with sr := 2 })
      (fun t => t.pc == 4 && t.sp == 0x3FFF && t.sr == 2 && t.bytesAt 0x3FF8 8 == [2, 0, 0, 0, 2, 0, 0, 0]) = true ∧
    stepTo (put 0 [0x13, 2, 0, 0] (put 0x7FFE [0x41, 0x42] ((State.reset.setX 0 0x7FFE).setX 1 2)))
      (fun t => t.out == [0x41, 0x42] && t.pc == 4) = true ∧
    (let s := put 0 [0x13, 2, 0, 0] ((State.reset.setX 0 0x7FFE).setX 1 3)
     stepTo s (faultedWith .outOfBounds 0 0x8000 s)) = true ∧
    stepTo (put 0 [0x13, 2, 0, 0] (State.reset.setX 0 0xFFFFFFFF)) (fun t => t.out == [] && t.pc == 4) = true ∧
    stepTo (put 0 [0x13, 2, 0, 0] { (State.reset.setX 0 0x3FF8).setX 1 8 with sr := 2 })
      (fun t => t.out == [2, 0, 0, 0, 2, 0, 0, 0]) = true := by decide

/-! ## Fetch, reset, end of run, devices, boot (section 9; R58, R231) -/

/-- F1, F3, K3, K4, K5. -/
theorem test_fetch :
    stepTo State.reset (faultedWith .illegalOpcode 0 0 State.reset) = true ∧
    stepTo (put 0xFFC [2, 0, 0, 1] { State.reset with pc := 0xFFC }) (fun t => t.pc == 0x1000 && t.getX 0 == 1) = true ∧
    stepTo { State.reset with pc := 6 } (faultedWith .fetchMisaligned 6 6 { State.reset with pc := 6 }) = true ∧
    stepTo { State.reset with pc := 0x1000 } (fun t => t.status == .halted none) = true ∧
    stepTo { State.reset with pc := 0x1004 }
      (faultedWith .fetchOutOfProgram 0x1004 0x1004 { State.reset with pc := 0x1004 }) = true := by decide

/-- F2. -/
theorem test_reset :
    State.reset.pc = 0 ∧ State.reset.sp = 0x3FFF ∧ State.reset.fp = 0x3FFF ∧ State.reset.sr = 0 ∧
    State.reset.out = [] ∧ State.reset.kbdRequests = 0 ∧ State.reset.status = .running := by decide

/-- R25: a run that has ended has no next step. -/
theorem test_no_step_after_the_end :
    next? { State.reset with status := .halted (some 5) } = none ∧
    next? { State.reset with status := .faulted ⟨.divideByZero, 0, 0⟩ } = none := by decide

/-- R58: the device writes inside its window only, once a step and at `INT #1`. -/
theorem test_device :
    stepTo (put 0 [2, 0, 0, 1] { State.reset with deviceInputs := [[(0x4000, 7), (0x3FFF, 8), (0x8000, 9)], []] })
      (fun t => t.byteAt 0x4000 == 7 && t.byteAt 0x3FFF == 0 && t.byteAt 0x8000 == 0 && t.deviceInputs == [[]]) = true ∧
    stepTo (put 0 [0x13, 1, 0, 0] { State.reset with deviceInputs := [[(0x4000, 7)], [(0x4001, 8)]] })
      (fun t => t.byteAt 0x4000 == 7 && t.byteAt 0x4001 == 8 && t.deviceInputs == []) = true := by decide

/-- R231, R233: the image at 0, the descriptor table after the program region. -/
def launch (image : List Byte) : Launch :=
  { cfg := Config.reference, image := image, x := Vector.replicate 8 0, mem := []
    descriptors := ⟨Vector.replicate 4 0x11, Vector.replicate 4 0x22⟩ ::
      List.replicate 7 ⟨Vector.replicate 4 0, Vector.replicate 4 0⟩
    deviceInputs := [] }

theorem test_boot :
    (match boot (launch [2, 0, 0, 5]) with
     | .ok s => s.bytesAt 0 5 == [2, 0, 0, 5, 0] && s.bytesAt 0x1000 9 == [0x11, 0x11, 0x11, 0x11, 0x22, 0x22, 0x22, 0x22, 0]
     | .error _ => false) = true := by decide

/-- The first program's first step (P1). -/
theorem test_withFetchWord :
    stepTo (State.reset.withFetchWord 32 0x02000005) (fun t => t.getX 0 == 5 && t.pc == 4) = true ∧
    stepTo ({ State.reset with pc := 3 }.withFetchWord 32 0x02000005) (fun t => t.getX 0 == 5 && t.pc == 4) = true := by
  decide

/-! ## Witnesses: for every statement with hypotheses, states and operands that meet them, at the edges of each clause -/

/-- One instruction in a state satisfies a Boolean test. -/
def execTo (i : Instr) (s : State) (p : State → Bool) : Bool :=
  match exec i s with
  | .next t => p t
  | .fault _ => false
  | .refused _ => false

/-- The state records a machine fault. -/
def isFaulted (c : FaultCause) (t : State) : Bool :=
  match t.status with
  | .faulted r => r.cause == c
  | _ => false

theorem witness_EncodeDecodeLaws :
    (Instr.pshReg .sr).wellFormed = true ∧ decode ⟨0x04, 0xFB, 0x12, 0x34⟩ = .ok (.pshReg .sr) := by decide

theorem witness_SlotsThatDoNotDecode :
    decode ⟨0x13, 0, 0, 0⟩ = .ok (.int 0) ∧ decode ⟨0x14, 0, 0, 0⟩ = .error (.illegalOpcode 0x14) ∧
    decode ⟨0x06, 0x7F, 0, 0⟩ = .ok (.add 7 (.imm 0)) ∧ decode ⟨0x0E, 0x80, 0, 0⟩ = .error (.reservedMode 0x80) ∧
    decode ⟨0x11, 0x0F, 0, 0⟩ = .error (.reservedMode 0x0F) ∧ decode ⟨0x11, 0x0E, 0, 0⟩ = .ok (.cal .ge 0) ∧
    decode ⟨0x04, 0x8A, 0, 0⟩ = .error (.illegalRegister 0x8A) ∧
    decode ⟨0x04, 0xFF, 0, 0⟩ = .error (.illegalRegister 0xFF) := by decide

theorem witness_IgnoredBitsChangeNothing :
    (Slot.mk 0x0F 0xD3 0xFF 0xFF).cleared = (Slot.mk 0x0F 0x13 0 0).cleared ∧
    decode ⟨0x0F, 0xD3, 0xFF, 0xFF⟩ = .ok (.cmp 2 3) := by decide

theorem witness_PushTestsTheWholeByte :
    decode ⟨0x04, 0x80, 0xFF, 0xFF⟩ = .ok (.pshLit 0xFFFF) ∧ decode ⟨0x04, 0x87, 0, 0⟩ = .ok (.pshReg (.gpr 7)) ∧
    decode ⟨0x04, 0xF8, 0, 0⟩ = .ok (.pshReg .sp) ∧ decode ⟨0x04, 0x19, 0, 0⟩ = .ok (.pshReg .fp) ∧
    decode ⟨0x04, 0x1B, 0, 0⟩ = .ok (.pshReg .sr) ∧ decode ⟨0x04, 0x1C, 0, 0⟩ = .error (.illegalRegister 0x1C) := by
  decide

/-- The four modes, with the highest register numbers. -/
theorem witness_MemoryOperandForms :
    [(0x3E : Byte), 0x7E, 0xBE, 0xFE].map (fun b => (b.toNat / 64, b.toNat / 8 % 8, b.toNat % 8)) =
      [(0, 7, 6), (1, 7, 6), (2, 7, 6), (3, 7, 6)] ∧
    decode ⟨0x03, 0xFE, 0xFF, 0xFF⟩ = .ok (.sto 7 (.abs 0xFFFF)) := by decide

theorem witness_AluOperandForms :
    decode ⟨0x0E, 0x3E, 0xFF, 0xFF⟩ = .ok (.shr 7 (.reg 6)) ∧
    decode ⟨0x06, 0x7E, 0xFF, 0xFF⟩ = .ok (.add 7 (.imm 0xFFFF)) ∧
    (0xBE : Byte).toNat / 64 = 2 ∧ (0xFE : Byte).toNat / 64 = 3 := by decide

theorem witness_OtherFormatsByBitPosition :
    decode ⟨0x02, 0xFF, 0x12, 0x34⟩ = .ok (.ldi 7 0x1234) ∧ decode ⟨0x0F, 0xFE, 0, 0⟩ = .ok (.cmp 7 6) ∧
    decode ⟨0x05, 0xFF, 0, 0⟩ = .ok (.pop 7) ∧ decode ⟨0x11, 0xFE, 0xFF, 0xFF⟩ = .ok (.cal .ge 0xFFFF) ∧
    decode ⟨0x10, 0xF8, 0, 0⟩ = .ok (.jmp .al 0) := by decide

theorem witness_MemReadByWidth :
    (0x7FFF : Word).toNat + 1 ≤ State.reset.cfg.memSize ∧ State.reset.cfg.memSize < (0x8000 : Word).toNat + 1 ∧
    (0x7FFC : Word).toNat + 4 ≤ State.reset.cfg.memSize ∧ State.reset.cfg.memSize < (0x7FFD : Word).toNat + 4 := by decide

/-- The store of 1 and of 4 bytes next to each edge of the descriptor table and of memory. -/
theorem witness_MemWriteByWidth :
    memWrite1 State.reset 0x8000 0 = .error ⟨.outOfBounds, 0x8000⟩ ∧
    memWrite4 State.reset 0x7FFD 0 = .error ⟨.outOfBounds, 0x8000⟩ ∧
    memWrite1 State.reset 0x103F 0 = .error ⟨.descriptorWrite, 0x103F⟩ ∧
    memWrite4 State.reset 0xFFD 0 = .error ⟨.descriptorWrite, 0x1000⟩ ∧
    memWrite4 State.reset 0xFFC 0 = .ok State.reset ∧ memWrite4 State.reset 0x1040 0 = .ok State.reset := by decide

theorem witness_PushWritesDownward :
    State.canPush { State.reset with sp := 0x1043 } 4 ∧
    (∀ j < 3, State.writable State.reset (pushAddr 0x1042 j)) ∧ pushAddr 0x1042 3 < State.reset.cfg.memSize ∧
    State.reset.inDdt (pushAddr 0x1042 3) ∧
    (∀ j < 3, State.writable State.reset (pushAddr 2 j)) ∧ State.reset.cfg.memSize ≤ pushAddr 2 3 := by decide

theorem witness_PopReadsUpward :
    State.canPopFrom State.reset 0x7FFB 4 ∧ (∀ j < 3, popAddr 0x7FFC j < State.reset.cfg.memSize) ∧
    State.reset.cfg.memSize ≤ popAddr 0x7FFC 3 := by decide

theorem witness_PopAfterPush : (match push32 { State.reset with sp := 3 } 5 with
    | .ok t => t.sp == 0xFFFFFFFF
    | .error _ => false) = true := by decide

theorem witness_MetricRule :
    (List.finRange 8).map Metric.ofCode =
      [some .al, some .eq, some .ne, some .lt, some .gt, some .le, some .ge, none] ∧
    decode ⟨0x10, 0xFF, 0, 0⟩ = .error (.reservedMode 0xFF) := by decide

theorem witness_LodLoadsTheWord :
    (effAddr State.reset (.abs 0x7FFC)).toNat + 4 ≤ State.reset.cfg.memSize ∧
    State.reset.cfg.memSize < (effAddr State.reset (.abs 0x7FFD)).toNat + 4 := by decide

theorem witness_StoStoresTheWord :
    ((effAddr State.reset (.abs 0xFFC)).toNat + 4 ≤ State.reset.cfg.memSize ∧
      ∀ d < 4, ¬State.reset.inDdt (0xFFC + d)) ∧
    State.reset.cfg.memSize < (effAddr State.reset (.abs 0x7FFD)).toNat + 4 ∧
    (State.reset.inDdt 0x1000 ∧ ∀ e < 3, ¬State.reset.inDdt (0xFFD + e)) := by decide

theorem witness_PshPushesTheValue :
    State.reset.canPush 4 ∧ firstPushFault { State.reset with sp := 0x1042 } 4 = some ⟨.descriptorWrite, 0x103F⟩ ∧
    firstPushFault { State.reset with sp := 0x8000 } 4 = some ⟨.outOfBounds, 0x8000⟩ := by decide

theorem witness_PopLoadsTheTopWord :
    State.canPopFrom { State.reset with sp := 0x7FFB } 0x7FFB 4 ∧
    firstPopFault { State.reset with sp := 0x7FFC } 0x7FFC 4 = some ⟨.outOfBounds, 0x8000⟩ := by decide

theorem witness_PushPopMovesARegister : State.canPush { State.reset with sp := 0x1043 } 4 := by decide

theorem witness_ShiftsByTheWholeOperand :
    (aluOperand State.reset (.imm 31)).toNat < 32 ∧ 32 ≤ (aluOperand State.reset (.imm 32)).toNat ∧
    32 ≤ (aluOperand (State.reset.setX 1 0x80000000) (.reg 1)).toNat := by decide

theorem witness_DivTruncatesTowardZero :
    (let s := (State.reset.setX 0 0x80000000).setX 1 0xFFFFFFFF
     (aluOperand s (.imm 1) ≠ 0 ∧ ¬((s.getX 0).toInt = -2 ^ 31 ∧ (aluOperand s (.imm 1)).toInt = -1)) ∧
     aluOperand s (.reg 2) = 0 ∧ (s.getX 0).toInt = -2 ^ 31 ∧ (aluOperand s (.reg 1)).toInt = -1) := by decide

theorem witness_JmpTransfersControl : metricHolds .gt 2 = true ∧ metricHolds .gt 1 = false := by decide

theorem witness_CalBuildsTheFrame :
    metricHolds .al State.reset.sr = true ∧ State.canPush { State.reset with sp := 0x1047 } 8 ∧
    firstPushFault { State.reset with sp := 0x1046 } 8 = some ⟨.descriptorWrite, 0x103F⟩ ∧
    metricHolds .eq State.reset.sr = false := by decide

/-- The return that completes, and each of its three faults. -/
theorem witness_RetUnwindsTheFrame :
    (let s := { State.reset with sp := 0x3FF3, fp := 0x3FF3 }
     s.canPopFrom s.sp 4 ∧ s.canPopFrom s.fp 8 ∧ State.canPush { s with sp := s.fp + 8 } 4) ∧
    firstPopFault { State.reset with sp := 0x7FFC } 0x7FFC 4 = some ⟨.outOfBounds, 0x8000⟩ ∧
    firstPopFault { State.reset with fp := 0x7FF8 } 0x7FF8 8 = some ⟨.outOfBounds, 0x8000⟩ ∧
    (let s := { State.reset with fp := 0x1037 }
     s.canPopFrom s.sp 4 ∧ s.canPopFrom s.fp 8 ∧
     firstPushFault { s with sp := s.fp + 8 } 4 = some ⟨.descriptorWrite, 0x103F⟩) := by decide

theorem witness_CallReturnRoundTrip :
    metricHolds .al State.reset.sr = true ∧ State.canPush { State.reset with sp := 0x104B } 12 := by decide

theorem witness_HaltInterruptEndsTheRun :
    State.reset.cfg.Legal ∧ State.canPush { State.reset with sp := 0x104B } 12 ∧
    firstPushFault { State.reset with sp := 0x104A } 12 = some ⟨.descriptorWrite, 0x103F⟩ := by decide

theorem witness_InterruptsWithoutAction :
    3 ≤ (3 : Byte).toNat ∧ 3 ≤ (255 : Byte).toNat ∧ State.canPush { State.reset with sp := 0x1047 } 8 ∧
    firstPushFault { State.reset with sp := 0x1046 } 8 = some ⟨.descriptorWrite, 0x103F⟩ := by decide

theorem witness_OutputInterruptAppends :
    State.reset.canPush 8 ∧ (State.reset.getX 1).toNat = 0 ∧
    (let s := (State.reset.setX 0 0x7FFE).setX 1 2
     (s.getX 0).toNat + (s.getX 1).toNat ≤ s.cfg.memSize) ∧
    (let s := (State.reset.setX 0 0x7FFE).setX 1 3
     s.canPush 8 ∧ (s.getX 1).toNat ≠ 0 ∧ s.cfg.memSize < (s.getX 0).toNat + (s.getX 1).toNat) ∧
    firstPushFault { State.reset with sp := 0x1046 } 8 = some ⟨.descriptorWrite, 0x103F⟩ := by decide

/-- The stack just below the window, and inside it with a device that writes over the saved words: the registers come
back (R22, R156) and the device's bytes stay. -/
theorem witness_KeyboardInterruptCounts :
    State.reset.canPush 8 ∧ ¬State.reset.inWindow 0x3FFF ∧
    (let s := { State.reset with sp := 0x4007, sr := 2, pc := 8, deviceInputs := [[(0x4000, 0xFF), (0x4004, 0xEE)]] }
     s.canPush 8 ∧ execTo (.int 1) s (fun t => t.sr == 2 && t.pc == 12 && t.sp == 0x4007 &&
       t.byteAt 0x4000 == 0xFF && t.byteAt 0x4004 == 0xEE) = true) ∧
    firstPushFault { State.reset with sp := 0x8000 } 8 = some ⟨.outOfBounds, 0x8000⟩ := by decide

theorem witness_StepRunsTheDecodedInstruction :
    State.reset.status = .running ∧ (0x1000 : Word).toNat = State.reset.cfg.progEnd ∧
    State.reset.cfg.progEnd < (0x1001 : Word).toNat ∧
    ((0xFFF : Word).toNat < State.reset.cfg.progEnd ∧ (0xFFF : Word).toNat % 4 ≠ 0) ∧
    State.pcLegal { State.reset with pc := 0xFFC } ∧
    decode (slotAtPc State.reset) = .error (.illegalOpcode 0) ∧
    decode (slotAtPc (put 0 [0x06, 0x80] State.reset)) = .error (.reservedMode 0x80) ∧
    decode (slotAtPc (put 0 [0x04, 0x0A] State.reset)) = .error (.illegalRegister 0x0A) ∧
    decode (slotAtPc (put 0 [0x12] State.reset)) = .ok .ret ∧ execTo .ret State.reset (fun _ => true) = true := by decide

theorem witness_FetchWordRunsNext :
    State.reset.cfg.Legal ∧ decodeTableWord 32 0x0748ABCD = some (.sub 1 (.imm 0xABCD)) ∧
    State.reset.fetches = true := by decide

theorem witness_EndedRunHasNoStep :
    { State.reset with status := .halted (some 5) }.status = .halted (some 5) ∧
    { State.reset with status := .faulted ⟨.shiftRange, 4, 32⟩ }.status = .faulted ⟨.shiftRange, 4, 32⟩ ∧
    State.reset.status = .running := by decide

theorem witness_EveryInstructionHasANextState :
    State.reset.status = .running ∧ execTo (.int 0) State.reset (fun t => t.status == .halted (some 0)) = true := by decide

theorem witness_FaultsArePrecise :
    stepTo (put 0xFFC [0x0D, 0x40, 0, 0x20] { State.reset with pc := 0xFFC }) (isFaulted .shiftRange) = true := by decide

/-- Each cause an instruction can raise. -/
theorem witness_FaultCausesOfInstructions :
    State.reset.status = .running ∧ execTo (.pshReg .pc) State.reset (isFaulted .illegalRegister) = true ∧
    execTo (.div 0 (.reg 1)) State.reset (isFaulted .divideByZero) = true ∧
    execTo (.div 0 (.reg 1)) ((State.reset.setX 0 0x80000000).setX 1 0xFFFFFFFF) (isFaulted .divideOverflow) = true ∧
    execTo (.shr 0 (.imm 32)) State.reset (isFaulted .shiftRange) = true ∧
    execTo (.lod 0 (.abs 0x7FFD)) State.reset (isFaulted .outOfBounds) = true ∧
    execTo (.sto 0 (.abs 0x103F)) State.reset (isFaulted .descriptorWrite) = true := by decide

theorem witness_ThreeWaysToLeaveRunning :
    stepTo (put 0 [0x13] State.reset) (fun t => t.status == .halted (some 0)) = true ∧
    stepTo { State.reset with pc := 0x1000 } (fun t => t.status == .halted none) = true ∧
    stepTo State.reset (isFaulted .illegalOpcode) = true ∧
    stepTo (put 0 [0x12] State.reset) (fun t => t.status == .running) = true := by decide

theorem witness_StepKeepsMemoryCanonical :
    (put 0 [3, 0xC8, 0x20, 0] State.reset).memOk ∧ stepTo (put 0 [3, 0xC8, 0x20, 0] State.reset) (fun _ => true) = true := by
  decide

/-- The two ends of the table, and a store that ends just below it. -/
theorem witness_StepKeepsTheDescriptorTable :
    State.reset.inDdt 0x1000 ∧ State.reset.inDdt 0x103F ∧ ¬State.reset.inDdt 0xFFF ∧ ¬State.reset.inDdt 0x1040 ∧
    stepTo (put 0 [3, 0xC8, 0x0F, 0xFC] State.reset) (fun t => t.status == .running) = true := by decide

theorem witness_StepKeepsTheStatusRegisterLegal :
    (let s := put 0 [0x13, 1] { State.reset with sr := 2 }
     s.srLegal ∧ stepTo s (fun t => t.sr == 2) = true) := by decide

/-- A store into the last slot of the program region. -/
theorem witness_StoreIsSeenByTheNextFetch :
    (let s := put 0xFF8 [3, 0xC8, 0x0F, 0xFC] { State.reset with pc := 0xFF8 }
     s.cfg.Legal ∧ s.status = .running ∧ s.pcLegal ∧ decode (slotAtPc s) = .ok (.sto 1 (.abs 0xFFC)) ∧
     (effAddr s (.abs 0xFFC)).toNat = s.pc.toNat + 4 ∧ s.pc.toNat + 8 ≤ s.cfg.progEnd) := by decide

theorem witness_OutputIsAppendOnly :
    stepTo (put 0 [0x13, 2] (State.reset.setX 1 1)) (fun t => t.out == [0x13]) = true := by decide

theorem witness_OnlyKeyboardCountsRequests :
    stepTo (put 0 [0x13, 1] State.reset) (fun t => t.kbdRequests == 1) = true := by decide

theorem witness_WhoWritesTheRegisters :
    execTo (.cal .al 8) State.reset (fun t => t.fp != 0x3FFF && t.sp != 0x3FFF) = true ∧
    execTo (.cmp 0 0) State.reset (fun t => t.sr != 0) = true ∧
    execTo (.ldi 7 1) State.reset (fun t => t.getX 7 != 0) = true := by decide

theorem witness_DeviceWritesOnlyItsWindow :
    State.reset.inWindow 0x4000 ∧ State.reset.inWindow 0x7FFF ∧ ¬State.reset.inWindow 0x3FFF ∧
    ¬State.reset.inWindow 0x8000 := by decide

theorem witness_DeviceIsInvisibleToAStep :
    stepTo (put 0 [2, 0, 0, 1] State.reset) (fun _ => true) = true ∧
    stepTo (put 0 [0x13, 1] State.reset) (fun _ => true) = true := by decide

/-- A launch on the smallest machine of R1. -/
def smallLaunch (image : List Byte) : Launch :=
  { cfg := { progSize := 4, devCount := 1, ramSize := 16, devmapSize := 0 }, image := image
    x := Vector.replicate 8 0, mem := [], descriptors := [⟨Vector.replicate 4 1, Vector.replicate 4 2⟩]
    deviceInputs := [] }

theorem witness_BootLoadsTheImage :
    (smallLaunch [1, 2, 3, 4, 5]).cfg.progSize < (smallLaunch [1, 2, 3, 4, 5]).image.length ∧
    ((smallLaunch [1, 2, 3, 4]).image.length ≤ (smallLaunch [1, 2, 3, 4]).cfg.progSize ∧
      (smallLaunch [1, 2, 3, 4]).descriptors.length = (smallLaunch [1, 2, 3, 4]).cfg.devCount) := by decide

theorem witness_BootMemoryIsCanonical :
    (smallLaunch [1, 2, 3, 4]).Legal ∧
    (match boot (smallLaunch [1, 2, 3, 4]) with
     | .ok s => s.mem.length == 12
     | .error _ => false) = true := by decide

/-! ## The encoder block (section 10) -/

open Sys2Proof.Asm

/-- Assemble with the reference parameters and one includable file `lib`, whose text is `f: RET`. -/
def asm (text : String) : Except AsmError (List Byte) :=
  assemble (AsmConfig.reference ".s".toList) 0x1000
    (fun name => if name = "lib.s".toList then some "f: RET".toList else none) text.toList

/-- A1, A2, A3, A4, A5, A6. -/
theorem test_asm_operands :
    asm "LOD R0 #5" = .ok [2, 0, 0, 5] ∧ asm "LDI R0 #$10 LDI R1 #%11" = .ok [2, 0, 0, 0x10, 2, 8, 0, 3] ∧
    asm "LOD R0 R1" = .ok [1, 1, 0, 0] ∧ asm "LOD R0 R1 ADD R0 R0" = .ok [1, 1, 0, 0, 6, 0, 0, 0] ∧
    asm "LOD R0 R1 R2" = .ok [1, 0x41, 2, 0] ∧ asm "STO R1 &$2000 ; comment RET" = .ok [3, 0xC8, 0x20, 0] := by decide

/-- A7 to A11, A16 to A19. -/
theorem test_asm_token_errors :
    asm "ADD SP #1" = .error .unknownRegister ∧ asm "LDI R0 #65536" = .error .badLiteral ∧
    asm "INT #256" = .error .badLiteral ∧ asm "JMP XX &0" = .error .malformedToken ∧
    asm "MOV R0 R1" = .error .unterminatedLabel ∧ asm "JMP AL" = .error .prematureEnd ∧
    asm "ADDER: RET" = .error .malformedToken ∧ asm "PSH PC" = .error .unknownRegister ∧
    asm "POP SP" = .error .unknownRegister := by decide

/-- A12 to A15, A20. -/
theorem test_asm_labels :
    asm "JMP AL done\ndone: RET" = .ok [0x10, 0, 0, 4, 0x12, 0, 0, 0] ∧
    asm "done: RET\nJMP AL done" = .ok [0x12, 0, 0, 0, 0x10, 0, 0, 0] ∧
    asm "a: RET a: RET" = .error .duplicateLabel ∧ asm "JMP AL nowhere" = .error (.undefinedLabel "nowhere".toList) ∧
    asm "x: y: RET JMP NE x CAL GE y" = .ok [0x12, 0, 0, 0, 0x10, 2, 0, 0, 0x11, 6, 0, 0] := by decide

/-- A21, A22. -/
theorem test_asm_include :
    asm "+lib RET" = .ok [0x12, 0, 0, 0, 0x12, 0, 0, 0] ∧ asm "+nolib" = .error .includeFailed := by decide

/-- A23: the statements of R193, with its blanks and comments shortened. -/
theorem test_asm_example :
    asm "LDI R0 #0 ; c\nJMP AL done\nback: ADD R0 #1\ndone: CMP R0 R0\nJMP NE back\nINT #0"
      = .ok [2, 0, 0, 0, 0x10, 0, 0, 0x0C, 6, 0x40, 0, 1, 0x0F, 0, 0, 0, 0x10, 2, 0, 8, 0x13, 0, 0, 0] := by decide

/-! ## Witnesses for the statements about the encoder block -/

/-- An assembly with the jump of a forward reference in its buffer. -/
def waiting : AsmState := { buf := [0x10, 0, 0, 0], labels := [("a".toList, .unresolved [2])] }

/-- An assembly of `n` bytes with no label. -/
def bare (n : Nat) : AsmState := { buf := List.replicate n 0, labels := [] }

theorem bare_ok {n : Nat} (h : n % 4 = 0) : (bare n).Ok :=
  ⟨by simp [bare, h], by simp [bare], fun _ _ h => by simp [bare, AsmState.entry] at h,
    fun _ _ _ _ _ h => by simp [bare, AsmState.entry] at h⟩

theorem bare_off (n : Nat) : (bare n).off = n := by simp [bare, AsmState.off]

theorem waiting_entry {name : Token} {sites : List Nat} (h : waiting.entry name = some (.unresolved sites)) :
    name = "a".toList ∧ sites = [2] := by
  unfold waiting AsmState.entry at h
  simp only [List.lookup_cons, List.lookup_nil] at h
  split at h
  · rename_i hn
    exact ⟨by simpa using hn, by simpa using h.symm⟩
  · cases h

theorem waiting_ok : waiting.Ok := by
  refine ⟨rfl, by decide, fun name sites h => ?_, fun name other sites others k h1 h2 _ _ => ?_⟩
  · rw [(waiting_entry h).2]
    decide
  · rw [(waiting_entry h1).1, (waiting_entry h2).1]

/-- The first offset that is no address, the last that is one, and each kind of entry. -/
theorem witness_DefinitionPatchesPendingSites :
    ((bare 0x10000).Ok ∧ 0xFFFF < (bare 0x10000).off) ∧ ((bare 0xFFFC).Ok ∧ (bare 0xFFFC).off ≤ 0xFFFF) ∧
    waiting.Ok ∧ waiting.off ≤ 0xFFFF ∧ waiting.entry "a".toList = some (.unresolved [2]) ∧
    waiting.entry "b".toList = none ∧
    defineLabel "a".toList waiting = .ok { buf := [0x10, 0, 0, 4], labels := [("a".toList, .resolved 4)] } :=
  ⟨⟨bare_ok rfl, by rw [bare_off]; decide⟩, ⟨bare_ok rfl, by rw [bare_off]; decide⟩, waiting_ok, by decide,
    by decide, by decide, by decide⟩

theorem witness_ReferenceEmitsOrQueues :
    AsmState.entry { buf := [], labels := [("a".toList, .resolved 0x1234)] } "a".toList = some (.resolved 0x1234) ∧
    waiting.entry "a".toList = some (.unresolved [2]) ∧ waiting.entry "b".toList = none ∧
    emit (.calLabel .eq "a".toList) waiting =
      { buf := [0x10, 0, 0, 0, 0x11, 1, 0, 0], labels := [("a".toList, .unresolved [2, 6])] } := by decide

/-- From a state with a pending site: the label is defined after one more slot. -/
theorem witness_LabelTableInvariant :
    waiting.Ok ∧ assembleText (AsmConfig.reference []) (includeFile (AsmConfig.reference []) (fun _ => none) 8)
      "RET a: RET".toList waiting =
        .ok { buf := [0x10, 0, 0, 8, 0x12, 0, 0, 0, 0x12, 0, 0, 0], labels := [("a".toList, .resolved 8)] } :=
  ⟨waiting_ok, by decide⟩

theorem witness_ForwardAndBackwardReferencesAgree :
    AsmState.init.Ok ∧ AsmState.init.entry "a".toList = none ∧
    defineLabel "a".toList ([Instr.ret].foldl (fun u i => emit (.plain i) u) (emit (.jmpLabel .al "a".toList) .init)) =
      .ok { buf := [0x10, 0, 0, 8, 0x12, 0, 0, 0], labels := [("a".toList, .resolved 8)] } :=
  ⟨bare_ok (n := 0) rfl, by decide, by decide⟩

/-- An image that fills its program region exactly, one slot too many, and an undefined label before that (R186). -/
theorem witness_AssembledImagesDecode :
    assemble (AsmConfig.reference []) 8 (fun _ => none) "JMP AL a a: RET".toList = .ok [0x10, 0, 0, 4, 0x12, 0, 0, 0] ∧
    assemble (AsmConfig.reference []) 4 (fun _ => none) "JMP AL a a: RET".toList = .error .programTooLarge ∧
    assemble (AsmConfig.reference []) 4 (fun _ => none) "JMP AL b a: RET".toList = .error (.undefinedLabel ['b']) ∧
    assemble (AsmConfig.reference []) 4 (fun _ => none) "JMP AL b RET RET x".toList = .error .unterminatedLabel := by
  decide

theorem witness_LoadLiteralAlias :
    hasMarker '#' "#5".toList = true ∧ parseLod ["R7".toList, "#5".toList] = .ok (.ldi 7 5, []) := by decide

end Sys2Proof.Tests
end

/-! PROOFS. The statements of spec/10_state.md: the flags, the registers and who writes them, the run status, the output
stream, the request counter, and the reset state. -/

namespace Sys2Proof.Machine

/-! ## Who writes the registers (R13) -/

/-- `i` is one of the nine format A instructions, with destination `d` and second operand `o` (R75). -/
def FormatA (i : Instr) (d : Gpr) (o : AluOperand) : Prop :=
  i = .add d o ∨ i = .sub d o ∨ i = .mul d o ∨ i = .div d o ∨ i = .and d o ∨ i = .orr d o ∨ i = .xor d o ∨
    i = .shl d o ∨ i = .shr d o

/-- The instructions that may write `FP` in the state `s`. -/
def WritesFp (s : State) (i : Instr) : Prop := (∃ c a, i = .cal c a ∧ metricHolds c s.sr = true) ∨ i = .ret

/-- The instructions after which `SP` may differ from what it was in the state `s`. -/
def WritesSp (s : State) (i : Instr) : Prop :=
  (∃ v, i = .pshLit v) ∨ (∃ k, i = .pshReg k) ∨ (∃ d, i = .pop d) ∨
    (∃ c a, i = .cal c a ∧ metricHolds c s.sr = true) ∨ i = .ret ∨ i = .int 0

/-- The instructions after which `SR` may differ. -/
def WritesSr (i : Instr) : Prop := (∃ d o, FormatA i d o) ∨ ∃ a b, i = .cmp a b

/-- The instructions whose destination is the general register `j`. -/
def WritesX (j : Gpr) (i : Instr) : Prop :=
  (∃ m, i = .lod j m) ∨ (∃ v, i = .ldi j v) ∨ i = .pop j ∨ ∃ o, FormatA i j o

/-- From `s` to `t`, the instruction `i` changed no register that it does not write. -/
structure RegisterFrame (i : Instr) (s t : State) : Prop where
  fp : t.fp ≠ s.fp → WritesFp s i
  sp : t.sp ≠ s.sp → WritesSp s i
  sr : t.sr ≠ s.sr → WritesSr i
  x : ∀ j, t.getX j ≠ s.getX j → WritesX j i

/-- The frame of an instruction that leaves every register but `PC`. -/
theorem registerFrame_of_eq {i s t} (hfp : t.fp = s.fp) (hsp : t.sp = s.sp) (hsr : t.sr = s.sr) (hx : t.x = s.x) :
    RegisterFrame i s t where
  fp h := absurd hfp h
  sp h := absurd hsp h
  sr h := absurd hsr h
  x j h := absurd (by rw [State.getX, State.getX, hx]) h

/-- A format A instruction that raises nothing leaves a result and its flags. -/
theorem effect_formatA {i d o s t} (hA : FormatA i d o) (h : Effect i s t) : ∃ r, t = aluResult s d r := by
  rcases hA with rfl | rfl | rfl | rfl | rfl | rfl | rfl | rfl | rfl <;> exact h

theorem registerFrame_aluResult {i d o} (hA : FormatA i d o) (s : State) (r : Word) :
    RegisterFrame i s (aluResult s d r) where
  fp h := absurd rfl h
  sp h := absurd rfl h
  sr _ := .inl ⟨d, o, hA⟩
  x j h := .inr (.inr (.inr ⟨o, getX_set s j d r h ▸ hA⟩))

theorem effect_registerFrame {i s t} (h : Effect i s t) : RegisterFrame i s t := by
  cases i
  case lod d m =>
    obtain ⟨v, rfl⟩ := h
    exact ⟨absurd rfl, absurd rfl, absurd rfl, fun j hj => .inl ⟨m, getX_set s j d v hj ▸ rfl⟩⟩
  case ldi d v =>
    subst h
    exact ⟨absurd rfl, absurd rfl, absurd rfl, fun j hj => .inr (.inl ⟨v, getX_set s j d _ hj ▸ rfl⟩)⟩
  case sto => obtain ⟨rfl, -⟩ := h; exact registerFrame_of_eq rfl rfl rfl rfl
  case pshLit v =>
    obtain ⟨-, w, rfl⟩ := h
    exact ⟨absurd rfl, fun _ => .inl ⟨v, rfl⟩, absurd rfl, fun _ => absurd rfl⟩
  case pshReg k =>
    obtain ⟨-, w, rfl⟩ := h
    exact ⟨absurd rfl, fun _ => .inr (.inl ⟨k, rfl⟩), absurd rfl, fun _ => absurd rfl⟩
  case pop d =>
    obtain ⟨v, rfl⟩ := h
    exact ⟨absurd rfl, fun _ => .inr (.inr (.inl ⟨d, rfl⟩)), absurd rfl,
      fun j hj => .inr (.inr (.inl (getX_set s j d v hj ▸ rfl)))⟩
  case cmp a b =>
    subst h
    exact ⟨absurd rfl, absurd rfl, fun _ => .inr ⟨a, b, rfl⟩, fun _ => absurd rfl⟩
  case jmp => obtain ⟨p, rfl⟩ := h; exact registerFrame_of_eq rfl rfl rfl rfl
  case cal c a =>
    rcases h with ⟨hc, -, rfl⟩ | rfl
    · exact ⟨fun _ => .inl ⟨c, a, rfl, hc⟩, fun _ => .inr (.inr (.inr (.inl ⟨c, a, rfl, hc⟩))), absurd rfl,
        fun _ => absurd rfl⟩
    · exact registerFrame_of_eq rfl rfl rfl rfl
  case ret =>
    obtain ⟨-, rfl⟩ := h
    exact ⟨fun _ => .inr rfl, fun _ => .inr (.inr (.inr (.inr (.inl rfl)))), absurd rfl, fun _ => absurd rfl⟩
  case int n =>
    obtain ⟨-, h⟩ := h
    split at h
    · next h0 =>
      obtain ⟨-, rfl⟩ := h
      obtain rfl : n = 0 := BitVec.eq_of_toNat_eq h0
      exact ⟨absurd rfl, fun _ => .inr (.inr (.inr (.inr (.inr rfl)))), absurd rfl, fun _ => absurd rfl⟩
    · subst h; exact registerFrame_of_eq rfl rfl rfl rfl
    · obtain ⟨bs, rfl⟩ := h; exact registerFrame_of_eq rfl rfl rfl rfl
    · subst h; exact registerFrame_of_eq rfl rfl rfl rfl
  case add d o | sub d o | mul d o | div d o | and d o | orr d o | xor d o | shl d o | shr d o =>
    obtain ⟨r, rfl⟩ := h
    exact registerFrame_aluResult (o := o) (by simp [FormatA]) s r

theorem exec_registerFrame {i s t} (h : exec i s = .next t) : RegisterFrame i s t := by
  rcases exec_effect h with he | ⟨e, rfl⟩
  · exact effect_registerFrame he
  · exact registerFrame_of_eq rfl rfl rfl rfl

/-- Settles O50: the frame of the instruction's effect, or of the fault it records. -/
theorem whoWritesTheRegisters : Obligations.WhoWritesTheRegisters := fun _ _ _ h =>
  have ⟨hfp, hsp, hsr, hx⟩ := exec_registerFrame h
  ⟨hfp, hsp, hsr, hx⟩

/-! ## After the device's action point -/

theorem afterEffect_sr {u : State} : (if u.status = .running then u.deviceAct else u).sr = u.sr := by
  split <;> simp

theorem afterEffect_out {u : State} : (if u.status = .running then u.deviceAct else u).out = u.out := by
  split <;> simp

theorem afterEffect_kbdRequests {u : State} :
    (if u.status = .running then u.deviceAct else u).kbdRequests = u.kbdRequests := by
  split <;> simp

/-! ## The status register stays legal (R24) -/

/-- Of the instructions, only format A and `CMP` write `SR`, and both leave flags that exclude each other. -/
theorem effect_srLegal {i s t} (hs : s.srLegal) (h : Effect i s t) : t.srLegal := by
  by_cases hsr : t.sr = s.sr
  · rwa [State.srLegal, hsr]
  · rcases (effect_registerFrame h).sr hsr with ⟨d, o, hA⟩ | ⟨a, b, rfl⟩
    · obtain ⟨r, rfl⟩ := effect_formatA hA h
      exact setFlags_srLegal (s := s.setX d r) hs r
    · subst h
      exact setFlagsCmp_srLegal hs _ _

/-- Settles O46: the flags that an instruction leaves are never both set, and nothing else of a step writes `SR`. -/
theorem stepKeepsTheStatusRegisterLegal : Obligations.StepKeepsTheStatusRegisterLegal := by
  intro s t hs h
  obtain ⟨-, ⟨-, rfl⟩ | ⟨e, rfl⟩ | ⟨i, u, -, -, -, he, rfl⟩⟩ := step_cases h
  · exact hs
  · exact hs
  · rw [State.srLegal, afterEffect_sr]
    exact effect_srLegal hs he

/-! ## The output stream and the request counter (R26, R28) -/

/-- Settles O48: neither the end of a run, nor a fault, nor the device appends, and an effect only by `INT #2`. -/
theorem outputIsAppendOnly : Obligations.OutputIsAppendOnly := by
  intro s t h
  obtain ⟨-, ⟨-, rfl⟩ | ⟨e, rfl⟩ | ⟨i, u, hpc, hi, -, he, rfl⟩⟩ := step_cases h
  · exact ⟨[], by simp⟩
  · exact ⟨[], by simp [State.afterFault]⟩
  · obtain ⟨bs, hout, hint⟩ := effect_out he
    exact ⟨bs, afterEffect_out.trans hout, fun hbs => ⟨hpc, hint hbs ▸ hi⟩⟩

/-- Settles O49: neither the end of a run, nor a fault, nor the device counts, and an effect only by `INT #1`. -/
theorem onlyKeyboardCountsRequests : Obligations.OnlyKeyboardCountsRequests := by
  intro s t h
  obtain ⟨-, ⟨-, rfl⟩ | ⟨e, rfl⟩ | ⟨i, u, hpc, hi, -, he, rfl⟩⟩ := step_cases h
  · exact .inl rfl
  · exact .inl rfl
  · rw [afterEffect_kbdRequests]
    exact (effect_kbd he).imp_right fun ⟨hk, hint⟩ => ⟨hk, hpc, hint ▸ hi⟩

/-! ## The flags (R20, R21) -/

/-- A word is positive as a signed number exactly when it is not zero and its sign bit is 0. -/
theorem toInt_pos_iff (r : Word) : 0 < r.toInt ↔ r ≠ 0 ∧ r.getLsbD 31 = false := by
  have hz : r = 0 ↔ r.toNat = 0 := by rw [← BitVec.toNat_inj]; rfl
  have hb : r.getLsbD 31 = decide (2 ^ 31 ≤ r.toNat) := BitVec.msb_eq_decide r
  have hr := r.isLt
  rw [BitVec.toInt_eq_toNat_cond, ne_eq, hz, hb, decide_eq_false_iff_not]
  split <;> omega

/-- Settles O14, from the two flag bits and what being positive says of the sign bit. -/
theorem setFlagsRule : Obligations.SetFlagsRule := by
  intro s r
  have hz : (setFlags s r).sr.getLsbD 0 = true ↔ r = 0 := by rw [setFlags_sr, withFlags_bit0, beq_iff_eq]
  have hgt : (setFlags s r).sr.getLsbD 1 = true ↔ 0 < r.toInt := by rw [setFlags_sr, withFlags_bit1, decide_eq_true_iff]
  refine ⟨rfl, hz, hgt, toInt_pos_iff r, fun k hk => withFlags_high _ _ _ hk, fun ⟨h0, h1⟩ => ?_⟩
  exact ((toInt_pos_iff r).mp (hgt.mp h1)).1 (hz.mp h0)

/-- Settles O15, from the two flag bits. -/
theorem setFlagsCmpRule : Obligations.SetFlagsCmpRule := by
  intro s a b
  refine ⟨rfl, ?_, ?_, fun k hk => withFlags_high _ _ _ hk⟩
  · rw [setFlagsCmp_sr, withFlags_bit0, beq_iff_eq]
  · rw [setFlagsCmp_sr, withFlags_bit1, decide_eq_true_iff]

/-! ## The run status (R25) and reset (R32) -/

/-- Settles O38: a running step always ends in a next state, and the device's action keeps it one. -/
theorem endedRunHasNoStep : Obligations.EndedRunHasNoStep := by
  refine fun s => ⟨fun code hs => ?_, fun r hs => ?_, fun hs => ?_⟩
  · rw [step, hs]
  · rw [step, hs]
  · obtain ⟨u, hu⟩ := runningStep_next s
    rw [step_running hs, hu]
    exact ⟨_, rfl⟩

/-- Settles O44: each part is a fact about the reference configuration and the empty memory. -/
theorem resetMeetsTheInvariants : Obligations.ResetMeetsTheInvariants := by
  refine ⟨?cfg, ?mem, ?sr, ?pc, ?status⟩
  case cfg => decide
  case mem => exact ⟨⟨.nil, by simp [State.reset]⟩, by simp [State.reset]⟩
  case sr => exact .inl rfl
  case pc => decide
  case status => rfl

end Sys2Proof.Machine

/-! PROOFS. The statements of spec/20_memory.md: the access and stack primitives, the memory invariant, the descriptor
table, a store seen by the next fetch, and the device collaborator. -/

namespace Sys2Proof.Machine

/-! ## The zones (R41) -/

theorem inWindow_congr {s u : State} (h : u.cfg = s.cfg) (a : Nat) : u.inWindow a ↔ s.inWindow a := by
  rw [State.inWindow, State.inWindow, h]

/-- The program region comes before the descriptor table and the window. -/
theorem program_not_device {s : State} {a : Nat} (h : a < s.cfg.progEnd) : ¬s.inDdt a ∧ ¬s.inWindow a := by
  unfold State.inDdt State.inWindow Config.devmapBase Config.ramEnd Config.ramBase Config.ddtEnd Config.ddtBase
  omega

theorem progEnd_le_memSize (c : Config) : c.progEnd ≤ c.memSize := by
  unfold Config.memSize Config.devmapEnd Config.devmapBase Config.ramEnd Config.ramBase Config.ddtEnd Config.ddtBase
  omega

/-! ## After the device's action point -/

theorem afterEffect_cfg {u : State} : (if u.status = .running then u.deviceAct else u).cfg = u.cfg := by
  split <;> simp

theorem afterEffect_pc {u : State} : (if u.status = .running then u.deviceAct else u).pc = u.pc := by
  split <;> simp

theorem afterEffect_memOk {u : State} (h : u.memOk) : (if u.status = .running then u.deviceAct else u).memOk := by
  split
  · exact deviceAct_memOk h
  · exact h

theorem afterEffect_byteAt {u : State} {a : Nat} (ha : ¬u.inWindow a) :
    (if u.status = .running then u.deviceAct else u).byteAt a = u.byteAt a := by
  split
  · exact State.byteAt_deviceAct u ha
  · rfl

/-! ## What every step keeps (R31, R40, R42) -/

/-- Settles O43: every effect and the device's action keep the memory invariant and the configuration, and the end of
a run and a fault write only the run status. -/
theorem stepKeepsMemoryCanonical : Obligations.StepKeepsMemoryCanonical := by
  intro s t hs h
  obtain ⟨-, ⟨-, rfl⟩ | ⟨e, rfl⟩ | ⟨i, u, -, -, -, he, rfl⟩⟩ := step_cases h
  · exact ⟨hs, rfl⟩
  · exact ⟨hs, rfl⟩
  · exact ⟨afterEffect_memOk (effect_memOk he hs), afterEffect_cfg.trans (effect_cfg he)⟩

/-- Settles O45: no effect writes the table, and the device's window lies outside it. -/
theorem stepKeepsTheDescriptorTable : Obligations.StepKeepsTheDescriptorTable := by
  intro s t a h ha
  obtain ⟨-, ⟨-, rfl⟩ | ⟨e, rfl⟩ | ⟨i, u, -, -, -, he, rfl⟩⟩ := step_cases h
  · rfl
  · rfl
  · have hw : ¬u.inWindow a := (inWindow_congr (effect_cfg he) a).not.mpr (ddt_not_window ha)
    exact (afterEffect_byteAt hw).trans (effect_ddt he ha)

/-! ## The access primitives (R44, R45) -/

/-- The address that the bounds test reports is the first of the access at or above `MEM_SIZE`. -/
theorem max_isFirstMissing {a n m : Nat} (hn : 0 < n) (h : m < a + n) :
    a ≤ max a m ∧ max a m < a + n ∧ m ≤ max a m ∧ ∀ b, a ≤ b → b < max a m → b < m :=
  ⟨by omega, by omega, by omega, fun b hb hlt => by omega⟩

theorem readFault_outOfBounds {s : State} {a : Nat} (h : s.cfg.memSize ≤ a) :
    readFault s a = some ⟨.outOfBounds, a⟩ := if_pos h

theorem writeFault_outOfBounds {s : State} {a : Nat} (h : s.cfg.memSize ≤ a) :
    writeFault s a = some ⟨.outOfBounds, a⟩ := if_pos h

theorem writeFault_descriptor {s : State} {a : Nat} (h : a < s.cfg.memSize) (hd : s.inDdt a) :
    writeFault s a = some ⟨.descriptorWrite, a⟩ := by
  rw [writeFault, if_neg (by omega), if_pos hd]

/-- Settles O9, from what each width reads in bounds and raises out of bounds. -/
theorem memReadByWidth : Obligations.MemReadByWidth := by
  refine fun s addr => ⟨fun h => ?_, fun h => ?_, fun h => ?_, fun h => ?_⟩
  · rw [memRead1_eq, readFault_none.mpr h]
  · rw [memRead1_eq, readFault_outOfBounds (by omega)]
  · exact ⟨_, memRead4_ok h, wordAt_byte s _⟩
  · exact ⟨_, memRead4_error h, max_isFirstMissing (by omega) h⟩

theorem firstInDdt_eq_some {s : State} {a n d : Nat} (had : a ≤ d) (hdn : d < a + n) (hd : s.inDdt d)
    (hmin : ∀ e, a ≤ e → e < d → ¬s.inDdt e) : firstInDdt s a n = some d := by
  cases hf : firstInDdt s a n with
  | none => exact absurd hd (firstInDdt_none.mp hf d had hdn)
  | some d' =>
    obtain ⟨had', -, hd', hmin'⟩ := firstInDdt_some hf
    rcases Nat.lt_trichotomy d d' with hlt | rfl | hlt
    · exact absurd hd (hmin' d had hlt)
    · rfl
    · exact absurd hd' (hmin d' had' hlt)

/-- Both widths of `MemWrite` write a nonempty list of the value's bytes, low byte first. -/
theorem memWrite_width {s : State} {addr v : Word} {n : Nat} {write : Except Raised State}
    (h : (n = 1 ∧ write = memWrite1 s addr (v.extractLsb' 0 8)) ∨ (n = 4 ∧ write = memWrite4 s addr v)) :
    ∃ bs : List Byte, 0 < bs.length ∧ n = bs.length ∧ write = memWrite s addr bs ∧
      ∀ i, (hi : i < bs.length) → bs[i] = v.extractLsb' (8 * i) 8 := by
  rcases h with ⟨rfl, rfl⟩ | ⟨rfl, rfl⟩
  · refine ⟨[v.extractLsb' 0 8], by simp, rfl, rfl, fun i hi => ?_⟩
    obtain rfl : i = 0 := by simpa using hi
    rfl
  · exact ⟨wordBytes v, by simp, rfl, rfl, wordBytes_get v⟩

/-- Settles O10, for the list of bytes that either width writes. -/
theorem memWriteByWidth : Obligations.MemWriteByWidth := by
  intro s addr v n write hw
  obtain ⟨bs, hpos, rfl, rfl, hbs⟩ := memWrite_width hw
  refine ⟨fun h => ?_, fun h d had hdn hd hmin => ?_, fun h hd => ?_⟩
  · exact ⟨_, memWrite_outOfBounds h, max_isFirstMissing hpos h⟩
  · exact memWrite_descriptor h (firstInDdt_eq_some had hdn hd hmin)
  · refine ⟨_, memWrite_ok h hd, fun i hi => ?_, fun a ha => ?_⟩
    · rw [Memory.read_writeList, dif_pos (by omega), hbs]
      congr 2
      omega
    · rw [Memory.read_writeList, dif_neg (by omega)]
      rfl

/-! ## The stack primitives (R47 to R49) -/

/-- The first byte that cannot be written decides the fault of a push. -/
theorem firstPushFault_eq_some {s : State} {n i : Nat} {e : Raised} (hi : i < n)
    (hw : ∀ j < i, s.writable (pushAddr s.sp j)) (he : writeFault s (pushAddr s.sp i) = some e) :
    firstPushFault s n = some e :=
  findSome_range_first _ n i hi (fun j hj => writeFault_none.mpr (hw j hj)) e he

/-- The first byte that does not exist decides the fault of a pop. -/
theorem firstPopFault_eq_some {s : State} {sp : Word} {n i : Nat} (hi : i < n)
    (hr : ∀ j < i, popAddr sp j < s.cfg.memSize) (h : s.cfg.memSize ≤ popAddr sp i) :
    firstPopFault s sp n = some ⟨.outOfBounds, popAddr sp i⟩ :=
  findSome_range_first _ n i hi (fun j hj => readFault_none.mpr (hr j hj)) _ (readFault_outOfBounds h)

/-- Settles O11: the pushed bytes lie at their addresses, or the first fault is the push's. -/
theorem pushWritesDownward : Obligations.PushWritesDownward := by
  refine fun s v => ⟨fun h => ?_, fun i hi hw => ⟨fun hb => ?_, fun hb hd => ?_⟩⟩
  · obtain ⟨hbytes, hframe⟩ := holdsPushed_writeDown s (bs := pushOrder v) (by simp)
    exact ⟨_, push32_ok h v, fun i hi => (hbytes i hi).trans (pushOrder_get v i hi), hframe⟩
  · exact push32_error (firstPushFault_eq_some hi hw (writeFault_outOfBounds hb))
  · exact push32_error (firstPushFault_eq_some hi hw (writeFault_descriptor hb hd))

/-- Settles O12: the popped word byte by byte, or the first fault is the pop's. -/
theorem popReadsUpward : Obligations.PopReadsUpward := by
  refine fun s => ⟨fun h => ?_, fun i hi hr h => ?_⟩
  · exact ⟨_, pop32_ok h, popWord_byte s s.sp⟩
  · exact pop32_error (firstPopFault_eq_some hi hr h)

/-- Settles O13: the pushed bytes are met again, in reverse order, from where the push left `sp`. -/
theorem popAfterPush : Obligations.PopAfterPush := by
  intro s t v h
  obtain ⟨hp, rfl⟩ := push32_cases h
  have hv : popWord { s with mem := s.mem.writeDown s.sp (pushOrder v), sp := s.sp - 4 } (s.sp - 4) = v := by
    refine popWord_pushed (k := 0) fun i hi => ?_
    rw [Nat.zero_add]
    refine ((holdsPushed_writeDown s (bs := pushOrder v) (by simp)).1 i hi).trans ?_
    match i, hi with
    | 0, _ | 1, _ | 2, _ | 3, _ => rfl
  rw [pop32_ok (canPopFrom_of_canPush hp), hv, sub4_add4]

/-! ## A store seen by the next fetch (R46, R60) -/

/-- A step of a decoded instruction is its execution, then the device's action if the run goes on. -/
theorem step_of_exec {s u : State} {i : Instr} (hs : s.status = .running) (hpc : s.pcLegal)
    (hi : decode (slotAtPc s) = .ok i) (hu : exec i s = .next u) :
    step s = .next (if u.status = .running then u.deviceAct else u) := by
  rw [step_running hs, runningStep, fetch_slot hpc]
  simp only [hi, hu, betweenSteps]

theorem exec_sto_ok {r : Gpr} {m : MemOperand} {s : State} (h : (effAddr s m).toNat + 4 ≤ s.cfg.memSize)
    (hd : ∀ a, (effAddr s m).toNat ≤ a → a < (effAddr s m).toNat + 4 → ¬s.inDdt a) :
    exec (.sto r m) s = .next (s.putBytes (effAddr s m).toNat (wordBytes (s.getX r))).advance := by
  rw [exec, execSto, memWrite4, memWrite_ok h hd, bind_ok, finish_ok]

/-- The bytes of a word stored at `pc` are the slot there, low byte first. -/
theorem slotAtPc_of_bytes {t : State} {v : Word} (h : ∀ i < 4, t.byteAt (t.pc.toNat + i) = v.extractLsb' (8 * i) 8) :
    slotAtPc t = { b0 := v.extractLsb' 0 8, b1 := v.extractLsb' 8 8, b2 := v.extractLsb' 16 8,
                   b3 := v.extractLsb' 24 8 } := by
  rw [slotAtPc, h 1 (by omega), h 2 (by omega), h 3 (by omega), ← h 0 (by omega), Nat.add_zero]

theorem byteAt_putBytes_wordBytes (s : State) (a : Nat) (v : Word) {i : Nat} (hi : i < 4) :
    (s.putBytes a (wordBytes v)).byteAt (a + i) = v.extractLsb' (8 * i) 8 := by
  rw [State.byteAt_putBytes, dif_pos ⟨by omega, by rw [wordBytes_length]; omega⟩, wordBytes_get _ _ (by omega),
    Nat.add_sub_cancel_left]

/-- Settles O47: the store completes in the program region, and the device's window lies outside that region. -/
theorem storeIsSeenByTheNextFetch : Obligations.StoreIsSeenByTheNextFetch := by
  intro r m s ⟨_, _, _, _, hsize⟩ hs hpc hi ha hend
  have hmem := progEnd_le_memSize s.cfg
  have hnext : (s.pc + 4).toNat = (effAddr s m).toNat := by
    rw [BitVec.toNat_add, show (4 : Word).toNat = 4 from rfl]
    omega
  have hu := exec_sto_ok (r := r) (m := m) (s := s) (by omega) fun a _ _ => (program_not_device (by omega)).1
  refine ⟨_, step_of_exec hs hpc hi hu, ?_, slotAtPc_of_bytes fun i hi => ?_⟩
  · rw [afterEffect_pc]
    exact hnext.trans ha
  · rw [afterEffect_pc, State.advance_pc, State.putBytes_pc, hnext]
    refine (afterEffect_byteAt ?_).trans (byteAt_putBytes_wordBytes s _ _ hi)
    exact (program_not_device (s := s) (by omega)).2

/-! ## The device collaborator (R52, R58) -/

/-- Settles O51: the action rewrites only the window, and an input that lists every window address fills it. -/
theorem deviceWritesOnlyItsWindow : Obligations.DeviceWritesOnlyItsWindow := by
  refine ⟨fun s => ⟨?_, fun a ha => State.byteAt_deviceAct s ha⟩, fun s f => ?_⟩
  · rw [State.deviceAct_mem]
    exact State.deviceAct_eq s
  · refine ⟨(List.range' s.cfg.devmapBase s.cfg.devmapSize).map fun a => (a, f a), fun a ha => ?_⟩
    exact deviceWrite_all s.cfg f _ s.mem _ le_rfl le_rfl a ha.1 ha.2

/-- The device's action keeps two states apart only in the window and the inputs. -/
theorem deviceAct_sameOffDevice {s t : State} (h : SameOffDevice s t) : SameOffDevice s.deviceAct t.deviceAct := by
  obtain ⟨he, hb⟩ := h
  have hcfg : t.cfg = s.cfg := by rw [he]
  refine ⟨?_, fun a ha => ?_⟩
  · rw [State.deviceAct_eq s, State.deviceAct_eq t, he]
  · have hs : ¬s.inWindow a := by rwa [inWindow_congr (State.deviceAct_cfg s)] at ha
    rw [State.byteAt_deviceAct t ((inWindow_congr hcfg a).not.mpr hs), State.byteAt_deviceAct s hs]
    exact hb a hs

theorem sameOffDevice_withInputs (d : List (List Host.Cell)) (s : State) : SameOffDevice s (s.withInputs d) :=
  ⟨rfl, fun _ _ => rfl⟩

/-- The fetch, the decoder and the instruction see nothing of the device's inputs. -/
theorem runningStep_sameOffDevice {s t : State} (d : List (List Host.Cell)) (h : runningStep s = .next t) :
    ∃ u, runningStep (s.withInputs d) = .next u ∧ SameOffDevice t u := by
  have hfetch : fetch (s.withInputs d) = fetch s := rfl
  unfold runningStep at h ⊢
  rw [hfetch]
  cases hf : fetch s with
  | atEnd =>
    rw [hf] at h
    obtain rfl := Host.Outcome.next.inj h
    exact ⟨_, rfl, sameOffDevice_withInputs d _⟩
  | bad e =>
    rw [hf] at h
    obtain rfl := Host.Outcome.next.inj h
    exact ⟨_, rfl, sameOffDevice_withInputs d _⟩
  | slot w =>
    rw [hf] at h
    cases hd : decode w with
    | error f =>
      simp only [hd] at h ⊢
      obtain rfl := Host.Outcome.next.inj h
      exact ⟨_, rfl, sameOffDevice_withInputs d _⟩
    | ok i =>
      simp only [hd] at h ⊢
      exact exec_sameOffDevice d h

/-- Settles O52: the step before the device acts sees nothing of the inputs, and the device's action then touches only
the window. -/
theorem deviceIsInvisibleToAStep : Obligations.DeviceIsInvisibleToAStep := by
  intro s t inputs h
  have hs : s.status = .running := (step_cases h).1
  rw [step_running hs] at h
  obtain ⟨t', ht', rfl⟩ := betweenSteps_next h
  obtain ⟨u', hu', hsame⟩ := runningStep_sameOffDevice inputs ht'
  have hstep : step (s.withInputs inputs) = .next (if u'.status = .running then u'.deviceAct else u') := by
    rw [step_running (s := s.withInputs inputs) hs, hu']
    rfl
  have hstatus : u'.status = t'.status := by rw [hsame.1]
  have hafter : SameOffDevice (if t'.status = .running then t'.deviceAct else t')
      (if u'.status = .running then u'.deviceAct else u') := by
    rw [hstatus]
    split
    · exact deviceAct_sameOffDevice hsame
    · exact hsame
  have hcfg := afterEffect_cfg.trans (runningStep_cfg ht')
  exact ⟨_, hstep, hafter.1, fun a ha => hafter.2 a ((inWindow_congr hcfg a).not.mpr ha)⟩

end Sys2Proof.Machine

/-! PROOFS. The statements of spec/30_encoding.md: the decoder and the encoder format by format, the two laws between
them, the slots that do not decode, the ignored bits, and the fields by bit position. -/

namespace Sys2Proof

/-! ## The opcodes of the formats that share a layout -/

/-- `op` is a format M opcode, and `mk` builds its instruction (R73). -/
inductive Opcode.IsMem : Opcode → (Gpr → MemOperand → Instr) → Prop
  | lod : IsMem .lod Instr.lod
  | sto : IsMem .sto Instr.sto

/-- `op` is one of the nine format A opcodes, and `mk` builds its instruction (R75). -/
inductive Opcode.IsAlu : Opcode → (Gpr → AluOperand → Instr) → Prop
  | add : IsAlu .add Instr.add
  | sub : IsAlu .sub Instr.sub
  | mul : IsAlu .mul Instr.mul
  | div : IsAlu .div Instr.div
  | and : IsAlu .and Instr.and
  | orr : IsAlu .orr Instr.orr
  | xor : IsAlu .xor Instr.xor
  | shl : IsAlu .shl Instr.shl
  | shr : IsAlu .shr Instr.shr

/-- `op` is a format J opcode, and `mk` builds its instruction (R79). -/
inductive Opcode.IsJump : Opcode → (Metric → Half → Instr) → Prop
  | jmp : IsJump .jmp Instr.jmp
  | cal : IsJump .cal Instr.cal

section
variable {w : Slot} {op : Opcode}

/-- The opcode test of R90: a slot's first byte is unassigned or some opcode's. -/
theorem Slot.opcode_cases (w : Slot) : Opcode.ofByte w.b0 = none ∨ ∃ op : Opcode, w.b0 = op.toByte := by
  cases h : Opcode.ofByte w.b0 with
  | none => exact .inl rfl
  | some op => exact .inr ⟨op, (Opcode.toByte_of_ofByte h).symm⟩

/-! ## The decoder, one equation per format (R90) -/

theorem decode_unassigned (h : Opcode.ofByte w.b0 = none) : decode w = .error (.illegalOpcode w.b0) := by
  simp only [decode, h]

theorem decode_mem {mk} (hf : op.IsMem mk) (h : w.b0 = op.toByte) :
    decode w = .ok (mk (midField w.b1) (decodeMem w)) := by
  cases hf <;> simp only [decode, Opcode.ofByte_of_eq h]

theorem decode_alu {mk} (hf : op.IsAlu mk) (h : w.b0 = op.toByte) : decode w = decodeAlu mk w := by
  cases hf <;> simp only [decode, Opcode.ofByte_of_eq h]

theorem decode_jump {mk} (hf : op.IsJump mk) (h : w.b0 = op.toByte) : decode w = decodeJump mk w := by
  cases hf <;> simp only [decode, Opcode.ofByte_of_eq h]

theorem decode_psh (h : w.b0 = Opcode.psh.toByte) : decode w = decodePush w := by
  simp only [decode, Opcode.ofByte_of_eq h]

theorem decode_ldi (h : w.b0 = Opcode.ldi.toByte) : decode w = .ok (.ldi (midField w.b1) w.imm16) := by
  simp only [decode, Opcode.ofByte_of_eq h]

theorem decode_pop (h : w.b0 = Opcode.pop.toByte) : decode w = .ok (.pop (lowField w.b1)) := by
  simp only [decode, Opcode.ofByte_of_eq h]

theorem decode_cmp (h : w.b0 = Opcode.cmp.toByte) :
    decode w = .ok (.cmp (midField w.b1) (lowField w.b1)) := by
  simp only [decode, Opcode.ofByte_of_eq h]

theorem decode_ret (h : w.b0 = Opcode.ret.toByte) : decode w = .ok .ret := by
  simp only [decode, Opcode.ofByte_of_eq h]

theorem decode_int (h : w.b0 = Opcode.int.toByte) : decode w = .ok (.int w.b1) := by
  simp only [decode, Opcode.ofByte_of_eq h]

/-! ## The tests on `b1` within a format -/

theorem decodeMem_mode0 (h : w.b1.toNat / 64 = 0) : decodeMem w = .reg (lowField w.b1) := by
  simp only [decodeMem, modeField_toNat, h]

theorem decodeMem_mode1 (h : w.b1.toNat / 64 = 1) : decodeMem w = .regReg (lowField w.b1) (lowField w.b2) := by
  simp only [decodeMem, modeField_toNat, h]

theorem decodeMem_mode2 (h : w.b1.toNat / 64 = 2) : decodeMem w = .regImm (lowField w.b1) w.imm16 := by
  simp only [decodeMem, modeField_toNat, h]

theorem decodeMem_mode3 (h : w.b1.toNat / 64 = 3) : decodeMem w = .abs w.imm16 := by
  simp only [decodeMem, modeField_toNat, h]

theorem decodeAlu_mode0 (mk) (h : w.b1.toNat / 64 = 0) :
    decodeAlu mk w = .ok (mk (midField w.b1) (.reg (lowField w.b1))) := by
  simp only [decodeAlu, modeField_toNat, h]

theorem decodeAlu_mode1 (mk) (h : w.b1.toNat / 64 = 1) :
    decodeAlu mk w = .ok (mk (midField w.b1) (.imm w.imm16)) := by
  simp only [decodeAlu, modeField_toNat, h]

theorem decodeAlu_reserved (mk) (h : 2 ≤ w.b1.toNat / 64) : decodeAlu mk w = .error (.reservedMode w.b1) := by
  unfold decodeAlu
  rw [modeField_toNat]
  split
  · omega
  · omega
  · rfl

theorem decodeJump_metric (mk) {c : Metric} (h : c.code.val = w.b1.toNat % 8) :
    decodeJump mk w = .ok (mk c w.imm16) := by
  have hc : lowField w.b1 = c.code := Fin.ext ((lowField_val _).trans h.symm)
  simp only [decodeJump, hc, Metric.ofCode_code]

theorem decodeJump_reserved (mk) (h : w.b1.toNat % 8 = 7) : decodeJump mk w = .error (.reservedMode w.b1) := by
  have hc : lowField w.b1 = 7 := Fin.ext ((lowField_val _).trans h)
  simp only [decodeJump, Metric.ofCode_none.mpr hc]

theorem decodePush_lit (h : w.b1 = pshLit) : decodePush w = .ok (.pshLit w.imm16) := if_pos h

theorem decodePush_reg (h : w.b1 ≠ pshLit) {k : FileReg} (hp : k.pushable = true)
    (hk : k.index.val = w.b1.toNat % 16) : decodePush w = .ok (.pshReg k) := by
  have hi : wideField w.b1 = k.index := Fin.ext ((wideField_val _).trans hk.symm)
  simp only [decodePush, if_neg h, hi, FileReg.ofIndex_index hp]

theorem decodePush_illegal (h : w.b1 ≠ pshLit) (hk : w.b1.toNat % 16 = 10 ∨ 12 ≤ w.b1.toNat % 16) :
    decodePush w = .error (.illegalRegister w.b1) := by
  rw [← wideField_val] at hk
  simp only [decodePush, if_neg h, FileReg.ofIndex_none.mpr hk]

/-! ## The encoder, one equation per shared layout -/

theorem encode_mem {mk} (hf : op.IsMem mk) (d m) : encode (mk d m) = encodeMem op d m := by
  cases hf <;> rfl

theorem encode_alu {mk} (hf : op.IsAlu mk) (d o) : encode (mk d o) = encodeAlu op d o := by
  cases hf <;> rfl

theorem encode_jump {mk} (hf : op.IsJump mk) (c t) : encode (mk c t) = slotOf op (packFields 0 0 c.code) t := by
  cases hf <;> rfl

/-! ## Decoding an encoding (R91, first law) -/

theorem decode_encode_mem {mk} (hf : op.IsMem mk) (d m) : decode (encode (mk d m)) = .ok (mk d m) := by
  obtain ⟨hm, hd, h0⟩ := decodeMem_encodeMem op d m
  rw [encode_mem hf, decode_mem hf h0, hm, hd]

theorem decode_encode_alu {mk} (hf : op.IsAlu mk) (d o) : decode (encode (mk d o)) = .ok (mk d o) := by
  obtain ⟨ho, h0⟩ := decodeAlu_encodeAlu mk op d o
  rw [encode_alu hf, decode_alu hf h0, ho]

theorem decode_encode_jump {mk} (hf : op.IsJump mk) (c t) : decode (encode (mk c t)) = .ok (mk c t) := by
  rw [encode_jump hf, decode_jump hf rfl, decodeJump_slotOf]

/-- The register form of `PSH` has the file index in `b1` (R77, R91). -/
theorem encode_pshReg_b1 (k : FileReg) : (encode (.pshReg k)).b1.toNat = k.index.val := by
  have := k.index.isLt
  exact Nat.mod_eq_of_lt (by omega)

theorem decode_encode_pshReg {k : FileReg} (hk : k.pushable = true) :
    decode (encode (.pshReg k)) = .ok (.pshReg k) := by
  have hb := encode_pshReg_b1 k
  have hi := k.index.isLt
  have hlit : (encode (.pshReg k)).b1 ≠ pshLit := fun h => by
    rw [h, show pshLit.toNat = 128 from rfl] at hb
    omega
  exact (decode_psh rfl).trans (decodePush_reg hlit hk (by omega))

theorem decode_encode {i : Instr} (h : i.wellFormed = true) : decode (encode i) = .ok i := by
  cases i
  case lod d m | sto d m => exact decode_encode_mem (by constructor) d m
  case add d o | sub d o | mul d o | div d o | and d o | orr d o | xor d o | shl d o | shr d o =>
    exact decode_encode_alu (by constructor) d o
  case jmp c t | cal c t => exact decode_encode_jump (by constructor) c t
  case pshReg k => exact decode_encode_pshReg h
  case pshLit v => exact (decode_psh rfl).trans ((decodePush_lit rfl).trans (by rw [encode, slotOf_imm16]))
  case ldi d v => rw [encode, decode_ldi rfl, slotOf_imm16, slotOf, midField_pack]
  case pop d => rw [encode, decode_pop rfl, slotOf, lowField_pack]
  case cmp a b => rw [encode, decode_cmp rfl, slotOf, midField_pack, lowField_pack]
  case ret => exact decode_ret rfl
  case int n => exact decode_int rfl

/-! ## Encoding a decoded slot (R91, second law) -/

theorem cleared_unassigned (h : Opcode.ofByte w.b0 = none) : w.cleared = w := by
  simp only [Slot.cleared, h]

theorem cleared_of_opcode (h : w.b0 = op.toByte) :
    w.cleared = { b0 := w.b0, b1 := w.b1 &&& (usedBits op w).1, b2 := w.b2 &&& (usedBits op w).2.1
                  b3 := w.b3 &&& (usedBits op w).2.2 } := by
  simp only [Slot.cleared, Opcode.ofByte_of_eq h]

/-- A format whose `b2` and `b3` are ignored. -/
theorem cleared_b1_only {m b : Byte} (h : w.b0 = op.toByte) (hu : usedBits op w = (m, 0, 0)) (hb : w.b1 &&& m = b) :
    w.cleared = slotOf op b 0 := by
  rw [cleared_of_opcode h, hu, h, ← hb]
  simp [slotOf]

/-- A format whose `b2` and `b3` are the embedded value. -/
theorem cleared_b1_imm {m b : Byte} (h : w.b0 = op.toByte) (hu : usedBits op w = (m, 0xFF, 0xFF))
    (hb : w.b1 &&& m = b) : w.cleared = slotOf op b w.imm16 := by
  rw [cleared_of_opcode h, hu, slotOf_imm16_eq w op h.symm, ← hb]
  simp [byte_and_FF]

theorem cleared_jump {mk} (hf : op.IsJump mk) (h : w.b0 = op.toByte) :
    w.cleared = slotOf op (packFields 0 0 (lowField w.b1)) w.imm16 :=
  cleared_b1_imm h (by cases hf <;> rfl) (byte_and_07 _)

theorem cleared_pshLit (h : w.b0 = Opcode.psh.toByte) (hl : w.b1 = pshLit) :
    w.cleared = slotOf .psh pshLit w.imm16 :=
  cleared_b1_imm h (if_pos hl) ((byte_and_FF _).trans hl)

theorem cleared_pshReg (h : w.b0 = Opcode.psh.toByte) (hl : w.b1 ≠ pshLit) :
    w.cleared = slotOf .psh (BitVec.ofNat 8 (wideField w.b1).val) 0 :=
  cleared_b1_only h (if_neg hl) (byte_and_0F _)

theorem encode_decode_mem {mk i} (hf : op.IsMem mk) (h0 : w.b0 = op.toByte) (h : decode w = .ok i) :
    encode i = w.cleared := by
  rw [decode_mem hf h0] at h
  cases h
  rw [encode_mem hf, cleared_of_opcode h0]
  exact encodeMem_decodeMem w op h0.symm (by cases hf <;> simp)

theorem encode_decode_alu {mk i} (hf : op.IsAlu mk) (h0 : w.b0 = op.toByte) (h : decode w = .ok i) :
    encode i = w.cleared := by
  rw [decode_alu hf h0] at h
  rw [cleared_of_opcode h0]
  exact encodeAlu_decodeAlu w op h0.symm mk i h (by cases hf <;> rfl) (encode_alu hf)

theorem encode_decode_jump {mk i} (hf : op.IsJump mk) (h0 : w.b0 = op.toByte) (h : decode w = .ok i) :
    encode i = w.cleared := by
  rw [decode_jump hf h0, decodeJump] at h
  split at h
  · next c hc =>
    cases h
    rw [encode_jump hf, cleared_jump hf h0, Metric.code_of_ofCode hc]
  · cases h

theorem encode_decode_psh {i} (h0 : w.b0 = Opcode.psh.toByte) (h : decode w = .ok i) : encode i = w.cleared := by
  rw [decode_psh h0, decodePush] at h
  split at h
  · next hl =>
    cases h
    exact (cleared_pshLit h0 hl).symm
  · next hl =>
    split at h
    · next k hk =>
      cases h
      rw [cleared_pshReg h0 hl, encode, (FileReg.index_of_ofIndex hk).1]
    · cases h

theorem encode_decode {i : Instr} (h : decode w = .ok i) : encode i = w.cleared := by
  obtain h0 | ⟨op, h0⟩ := w.opcode_cases
  · rw [decode_unassigned h0] at h
    cases h
  cases op
  case lod | sto => exact encode_decode_mem (by constructor) h0 h
  case add | sub | mul | div | and | orr | xor | shl | shr => exact encode_decode_alu (by constructor) h0 h
  case jmp | cal => exact encode_decode_jump (by constructor) h0 h
  case psh => exact encode_decode_psh h0 h
  case ldi =>
    cases (decode_ldi h0).symm.trans h
    exact (cleared_b1_imm h0 rfl (byte_and_38 _)).symm
  case pop =>
    cases (decode_pop h0).symm.trans h
    exact (cleared_b1_only h0 rfl (byte_and_07 _)).symm
  case cmp =>
    cases (decode_cmp h0).symm.trans h
    exact (cleared_b1_only h0 rfl (byte_and_3F _)).symm
  case ret =>
    cases (decode_ret h0).symm.trans h
    exact (cleared_b1_only h0 rfl (byte_and_00 _)).symm
  case int =>
    cases (decode_int h0).symm.trans h
    exact (cleared_b1_only h0 rfl (byte_and_FF _)).symm

end

/-- `PSH PC` is the only term that no slot decodes to. -/
theorem wellFormed_or_pshPc (i : Instr) : i.wellFormed = true ∨ i = .pshReg .pc := by
  cases i
  case pshReg k => cases k <;> simp [Instr.wellFormed, FileReg.pushable]
  all_goals exact .inl rfl

/-- The encoder emits 0 in every ignored bit (R87, R91). -/
theorem encode_cleared (i : Instr) : (encode i).cleared = encode i := by
  rcases wellFormed_or_pshPc i with h | rfl
  · exact (encode_decode (decode_encode h)).symm
  · decide

/-- Settles O1, from the two laws. -/
theorem encodeDecodeLaws : Obligations.EncodeDecodeLaws :=
  ⟨fun _ => decode_encode, fun _ _ => encode_decode, encode_cleared, fun _ => rfl, encode_pshReg_b1⟩

/-! ## The slots that do not decode (R86) -/

section
variable {w : Slot} {op : Opcode}

/-- Why a slot does not decode, by its opcode's format, with the fault it is refused with. -/
inductive Slot.Refused (w : Slot) : DecodeFault → Prop
  | opcode (h : Opcode.ofByte w.b0 = none) : Refused w (.illegalOpcode w.b0)
  | mode {op mk} (hf : Opcode.IsAlu op mk) (h0 : w.b0 = op.toByte) (h : 2 ≤ w.b1.toNat / 64) :
      Refused w (.reservedMode w.b1)
  | metric {op mk} (hf : Opcode.IsJump op mk) (h0 : w.b0 = op.toByte) (h : w.b1.toNat % 8 = 7) :
      Refused w (.reservedMode w.b1)
  | register (h0 : w.b0 = Opcode.psh.toByte) (hl : w.b1 ≠ pshLit)
      (h : w.b1.toNat % 16 = 10 ∨ 12 ≤ w.b1.toNat % 16) : Refused w (.illegalRegister w.b1)

theorem refused_of_alu {mk f} (hf : op.IsAlu mk) (h0 : w.b0 = op.toByte) (h : decode w = .error f) : w.Refused f := by
  rw [decode_alu hf h0] at h
  obtain hm | hm | hm : w.b1.toNat / 64 = 0 ∨ w.b1.toNat / 64 = 1 ∨ 2 ≤ w.b1.toNat / 64 := by omega
  · cases (decodeAlu_mode0 mk hm).symm.trans h
  · cases (decodeAlu_mode1 mk hm).symm.trans h
  · cases (decodeAlu_reserved mk hm).symm.trans h
    exact .mode hf h0 hm

theorem refused_of_jump {mk f} (hf : op.IsJump mk) (h0 : w.b0 = op.toByte) (h : decode w = .error f) :
    w.Refused f := by
  rw [decode_jump hf h0, decodeJump] at h
  split at h
  · cases h
  · next hc =>
    cases h
    exact .metric hf h0 ((lowField_val _).symm.trans (congrArg Fin.val (Metric.ofCode_none.mp hc)))

theorem refused_of_psh {f} (h0 : w.b0 = Opcode.psh.toByte) (h : decode w = .error f) : w.Refused f := by
  rw [decode_psh h0, decodePush] at h
  split at h
  · cases h
  · next hl =>
    split at h
    · cases h
    · next hk =>
      cases h
      exact .register h0 hl (wideField_val w.b1 ▸ FileReg.ofIndex_none.mp hk)

theorem refused_of_decode {f} (h : decode w = .error f) : w.Refused f := by
  obtain h0 | ⟨op, h0⟩ := w.opcode_cases
  · cases (decode_unassigned h0).symm.trans h
    exact .opcode h0
  cases op
  case add | sub | mul | div | and | orr | xor | shl | shr => exact refused_of_alu (by constructor) h0 h
  case jmp | cal => exact refused_of_jump (by constructor) h0 h
  case psh => exact refused_of_psh h0 h
  case lod | sto => cases (decode_mem (by constructor) h0).symm.trans h
  case ldi => cases (decode_ldi h0).symm.trans h
  case pop => cases (decode_pop h0).symm.trans h
  case cmp => cases (decode_cmp h0).symm.trans h
  case ret => cases (decode_ret h0).symm.trans h
  case int => cases (decode_int h0).symm.trans h

theorem decode_error_iff {f} : decode w = .error f ↔ w.Refused f := by
  refine ⟨refused_of_decode, fun h => ?_⟩
  cases h with
  | opcode h => exact decode_unassigned h
  | mode hf h0 h => rw [decode_alu hf h0, decodeAlu_reserved _ h]
  | metric hf h0 h => rw [decode_jump hf h0, decodeJump_reserved _ h]
  | register h0 hl h => rw [decode_psh h0, decodePush_illegal hl h]

end

/-- The format A opcodes are the bytes `0x06` to `0x0E` (R85). -/
theorem isAlu_byte_iff {b : Byte} :
    (∃ op mk, Opcode.IsAlu op mk ∧ b = op.toByte) ↔ 0x06 ≤ b.toNat ∧ b.toNat ≤ 0x0E := by
  constructor
  · rintro ⟨op, mk, hf, rfl⟩
    cases hf <;> decide
  · rintro ⟨hlo, hhi⟩
    have hb : b = BitVec.ofNat 8 b.toNat := by simp
    generalize b.toNat = n at hlo hhi hb
    subst hb
    interval_cases n
    · exact ⟨_, _, .add, rfl⟩
    · exact ⟨_, _, .sub, rfl⟩
    · exact ⟨_, _, .mul, rfl⟩
    · exact ⟨_, _, .div, rfl⟩
    · exact ⟨_, _, .and, rfl⟩
    · exact ⟨_, _, .orr, rfl⟩
    · exact ⟨_, _, .xor, rfl⟩
    · exact ⟨_, _, .shl, rfl⟩
    · exact ⟨_, _, .shr, rfl⟩

/-- The format J opcodes are the bytes `0x10` and `0x11` (R85). -/
theorem isJump_byte_iff {b : Byte} : (∃ op mk, Opcode.IsJump op mk ∧ b = op.toByte) ↔ b = 0x10 ∨ b = 0x11 := by
  constructor
  · rintro ⟨op, mk, hf, rfl⟩
    cases hf <;> decide
  · rintro (rfl | rfl)
    · exact ⟨_, _, .jmp, rfl⟩
    · exact ⟨_, _, .cal, rfl⟩

/-- Settles O2: each reason to refuse a slot, with its opcodes written as bytes. -/
theorem slotsThatDoNotDecode : Obligations.SlotsThatDoNotDecode := by
  intro w f
  rw [decode_error_iff]
  constructor
  · rintro (h | ⟨hf, h0, h⟩ | ⟨hf, h0, h⟩ | ⟨h0, hl, h⟩)
    · exact .inl ⟨rfl, Opcode.ofByte_none.mp h⟩
    · obtain ⟨hlo, hhi⟩ := isAlu_byte_iff.mp ⟨_, _, hf, h0⟩
      exact .inr (.inl ⟨rfl, hlo, hhi, h⟩)
    · exact .inr (.inr (.inl ⟨rfl, isJump_byte_iff.mp ⟨_, _, hf, h0⟩, h⟩))
    · exact .inr (.inr (.inr ⟨rfl, h0, hl, h⟩))
  · rintro (⟨rfl, h⟩ | ⟨rfl, hlo, hhi, h⟩ | ⟨rfl, h0, h⟩ | ⟨rfl, h0, hl, h⟩)
    · exact .opcode (Opcode.ofByte_none.mpr h)
    · obtain ⟨_, _, hf, h0⟩ := isAlu_byte_iff.mpr ⟨hlo, hhi⟩
      exact .mode hf h0 h
    · obtain ⟨_, _, hf, h0⟩ := isJump_byte_iff.mpr h0
      exact .metric hf h0 h
    · exact .register h0 hl h

/-! ## The ignored bits (R87) -/

theorem Slot.cleared_b0 (w : Slot) : w.cleared.b0 = w.b0 := by
  obtain h0 | ⟨op, h0⟩ := w.opcode_cases
  · rw [cleared_unassigned h0]
  · rw [cleared_of_opcode h0]

/-- Clearing the ignored bits of a refused slot keeps the reason to refuse it. -/
theorem Slot.refused_cleared {w : Slot} {f} (h : w.Refused f) : ∃ g, w.cleared.Refused g := by
  have hb0 := w.cleared_b0
  cases h with
  | opcode h => exact ⟨_, .opcode (by rwa [hb0])⟩
  | mode hf h0 h =>
    refine ⟨_, .mode hf (hb0.trans h0) ?_⟩
    rw [← modeField_toNat] at h ⊢
    rw [cleared_of_opcode h0, usedBits_alu_mode w _ h (by cases hf <;> rfl)]
    exact h
  | metric hf h0 h =>
    refine ⟨_, .metric hf (hb0.trans h0) ?_⟩
    rw [cleared_jump hf h0, slotOf, ← lowField_val, lowField_pack, lowField_val]
    exact h
  | register h0 hl h =>
    have hb1 : w.cleared.b1.toNat = w.b1.toNat % 16 := by
      rw [cleared_pshReg h0 hl, slotOf, BitVec.toNat_ofNat, wideField_val]
      omega
    refine ⟨_, .register (hb0.trans h0) (fun hc => ?_) (by omega)⟩
    rw [hc, show pshLit.toNat = 128 from rfl] at hb1
    omega

/-- A slot decodes exactly to what it decodes to once its ignored bits are cleared. -/
theorem decode_cleared_ok {w : Slot} {i : Instr} : decode w.cleared = .ok i ↔ decode w = .ok i := by
  cases hw : decode w with
  | ok j => rw [← encode_decode hw, decode_encode (decode_wellFormed w j hw)]
  | error f =>
    obtain ⟨g, hg⟩ := Slot.refused_cleared (decode_error_iff.mp hw)
    simp [decode_error_iff.mpr hg]

/-- Settles O3: both slots decode as the one with their ignored bits cleared. -/
theorem ignoredBitsChangeNothing : Obligations.IgnoredBitsChangeNothing := by
  refine ⟨fun w v i hc hw => ?_, encode_cleared⟩
  rwa [← decode_cleared_ok, ← hc, decode_cleared_ok]

/-! ## The fields by bit position (R73 to R82) -/

theorem eq_midField {d : Gpr} {b : Byte} (h : d.val = b.toNat / 8 % 8) : d = midField b :=
  Fin.ext (h.trans (midField_val b).symm)

theorem eq_lowField {d : Gpr} {b : Byte} (h : d.val = b.toNat % 8) : d = lowField b :=
  Fin.ext (h.trans (lowField_val b).symm)

theorem eq_imm16 {w : Slot} {v : Half} (h : v.toNat = w.b2.toNat * 256 + w.b3.toNat) : v = w.imm16 :=
  BitVec.eq_of_toNat_eq (h.trans (imm16_toNat w).symm)

/-- Settles O4: the literal form, and the register form for each file index. -/
theorem pushTestsTheWholeByte : Obligations.PushTestsTheWholeByte := by
  intro w h0
  rw [decode_psh h0]
  refine ⟨fun hl => ⟨_, decodePush_lit hl, imm16_toNat w⟩, fun hl => ⟨?gpr, ?sp, ?fp, ?sr, ?illegal⟩⟩
  case gpr => exact fun k hk => decodePush_reg hl (k := .gpr k) rfl hk
  case sp | fp | sr => exact fun h => decodePush_reg hl rfl h.symm
  case illegal => exact decodePush_illegal hl

/-- Settles O6: the operand that each mode decodes to, and its address. -/
theorem memoryOperandForms : Obligations.MemoryOperandForms := by
  intro mk op hop w s d b o imm h0 hd hb ho himm
  obtain ⟨oc, hf, rfl⟩ : ∃ oc : Opcode, oc.IsMem mk ∧ op = oc.toByte := by
    rcases hop with ⟨rfl, rfl⟩ | ⟨rfl, rfl⟩
    · exact ⟨_, .lod, rfl⟩
    · exact ⟨_, .sto, rfl⟩
  obtain rfl := eq_midField hd
  obtain rfl := eq_lowField hb
  obtain rfl := eq_lowField ho
  have hz : (Machine.zext32 w.imm16).toNat = imm := by rw [Machine.zext32_toNat, imm16_toNat, himm]
  refine ⟨_, decode_mem hf h0, fun h => ?_, fun h => ?_, fun h => ?_, fun h => ?_⟩
  · rw [decodeMem_mode0 h, Machine.effAddr]
  · rw [decodeMem_mode1 h, Machine.effAddr, BitVec.toNat_add]
  · rw [decodeMem_mode2 h, Machine.effAddr, BitVec.toNat_add, hz]
  · rw [decodeMem_mode3 h, Machine.effAddr, hz]

/-- Settles O7: the operand that each mode decodes to, and its value. -/
theorem aluOperandForms : Obligations.AluOperandForms := by
  intro p hp w s d r h0 hd hr
  obtain ⟨op, hf, hop⟩ : ∃ op : Opcode, op.IsAlu p.2 ∧ p.1 = op.toByte := by
    simp only [List.mem_cons, List.not_mem_nil, or_false] at hp
    rcases hp with rfl | rfl | rfl | rfl | rfl | rfl | rfl | rfl | rfl <;> exact ⟨_, by constructor, rfl⟩
  rw [decode_alu hf (h0.trans hop)]
  obtain rfl := eq_midField hd
  obtain rfl := eq_lowField hr
  refine ⟨fun h => ⟨_, decodeAlu_mode0 p.2 h, rfl⟩, fun h => ⟨_, decodeAlu_mode1 p.2 h, ?_⟩, decodeAlu_reserved p.2⟩
  rw [Machine.aluOperand, Machine.zext32_toNat, imm16_toNat]

/-- Settles O8, from the decoder's equation for each format. -/
theorem otherFormatsByBitPosition : Obligations.OtherFormatsByBitPosition := by
  intro w d b v hv
  obtain rfl := eq_imm16 hv
  refine ⟨fun h0 hd => ?_, fun h0 hd hb => ?_, fun h0 hd => ?_, decode_ret, decode_int, fun p hp => ?_⟩
  · rw [decode_ldi h0, eq_midField hd]
  · rw [decode_cmp h0, eq_midField hd, eq_lowField hb]
  · rw [decode_pop h0, eq_lowField hd]
  · have hcode : p.2.code.val = p.1 := by
      revert p
      decide
    exact fun hc => ⟨fun h0 => (decode_jump .jmp h0).trans (decodeJump_metric _ (hcode.trans hc.symm)),
      fun h0 => (decode_jump .cal h0).trans (decodeJump_metric _ (hcode.trans hc.symm))⟩

/-- Settles O5: the examples are well-formed, so that their bytes decode back is the first law of R91. -/
theorem encodingExamples : Obligations.EncodingExamples := by
  intro p hp
  have h : p.1.wellFormed = true ∧ encode p.1 = p.2 := by
    revert p
    decide
  obtain ⟨hwf, he⟩ := h
  exact ⟨he, he ▸ decode_encode hwf⟩

end Sys2Proof

/-! PROOFS. The statements of spec/40_load_store.md: what `LOD`, `LDI` and `STO` leave, and the faults of the accesses. -/

namespace Sys2Proof.Machine

/-! ## Load and store by the outcome of their access (R101, R103) -/

theorem exec_lod_ok {d : Gpr} {m : MemOperand} {s : State} (h : (effAddr s m).toNat + 4 ≤ s.cfg.memSize) :
    exec (.lod d m) s = .next (s.setX d (s.wordAt (effAddr s m).toNat)).advance := by
  rw [exec, execLod, memRead4_ok h, bind_ok, finish_ok]

theorem exec_lod_error {d : Gpr} {m : MemOperand} {s : State} {e : Raised}
    (h : memRead4 s (effAddr s m) = .error e) : exec (.lod d m) s = .next (s.afterFault e) := by
  rw [exec, execLod, h, bind_error, finish_error]

theorem exec_sto_error {r : Gpr} {m : MemOperand} {s : State} {e : Raised}
    (h : memWrite s (effAddr s m) (wordBytes (s.getX r)) = .error e) :
    exec (.sto r m) s = .next (s.afterFault e) := by
  rw [exec, execSto, memWrite4, h, bind_error, finish_error]

/-- A stored word leaves every byte outside its four addresses as it was (R103). -/
theorem byteAt_putBytes_wordBytes_outside (s : State) {a b : Nat} (v : Word) (h : b < a ∨ a + 4 ≤ b) :
    (s.putBytes a (wordBytes v)).byteAt b = s.byteAt b := by
  rw [State.byteAt_putBytes, dif_neg (by rw [wordBytes_length]; omega)]

/-! ## The obligations -/

/-- Settles O17: the read is in bounds and gives the word at the effective address, or it raises the fault. -/
theorem lodLoadsTheWord : Obligations.LodLoadsTheWord := by
  refine fun d m s => ⟨fun h => ?_, fun h => ?_⟩
  · exact ⟨_, exec_lod_ok h, wordAt_byte s _⟩
  · exact exec_lod_error (memRead4_error h)

/-- Settles O18: the literal written is zero-extended, so it keeps its value as a number. -/
theorem ldiLoadsTheLiteral : Obligations.LdiLoadsTheLiteral :=
  fun _ imm _ => ⟨zext32 imm, rfl, zext32_toNat imm⟩

/-- Settles O19: a store that passes both tests puts the word's bytes; otherwise the first test that fails raises, the
bounds before the descriptor table. -/
theorem stoStoresTheWord : Obligations.StoStoresTheWord := by
  refine fun r m s => ⟨fun h hd => ?_, fun h => ?_, fun h d had hdn hd hmin => ?_⟩
  · exact ⟨_, exec_sto_ok h hd, fun i hi => byteAt_putBytes_wordBytes s _ _ hi,
      fun a ha => byteAt_putBytes_wordBytes_outside s _ ha⟩
  · exact exec_sto_error (memWrite_outOfBounds h)
  · exact exec_sto_error (memWrite_descriptor h (firstInDdt_eq_some had hdn hd hmin))

end Sys2Proof.Machine

/-! PROOFS. The statements of spec/41_alu.md: the results of the wrapping and the bitwise instructions, and `CMP`. -/

namespace Sys2Proof.Machine

/-- The difference of two words, as an integer, is that of their unsigned values modulo `2^32` (R113). -/
theorem sub_toNat_intCast (a b : Word) : ((a - b).toNat : Int) = ((a.toNat : Int) - b.toNat) % 2 ^ 32 := by
  rw [BitVec.toNat_sub]
  have := b.isLt
  omega

/-- Settles O23: the operation never raises, so each instruction leaves its result; `BitVec` arithmetic is arithmetic
modulo `2^32`. -/
theorem addSubMulWrap : Obligations.AddSubMulWrap := by
  refine fun d o s => ⟨?_, ?_, ?_⟩
  · exact exec_add d o s ▸ execAlu_leaves rfl (BitVec.toNat_add _ _)
  · exact exec_sub d o s ▸ execAlu_leaves rfl (sub_toNat_intCast _ _)
  · exact exec_mul d o s ▸ execAlu_leaves rfl (BitVec.toNat_mul _ _)

/-- Settles O24: as for O23, with the result read bit by bit. -/
theorem logicalBitwise : Obligations.LogicalBitwise := by
  refine fun d o s => ⟨?_, ?_, ?_⟩
  · exact exec_and d o s ▸ execAlu_leaves rfl fun _ => BitVec.getLsbD_and
  · exact exec_orr d o s ▸ execAlu_leaves rfl fun _ => BitVec.getLsbD_or
  · exact exec_xor d o s ▸ execAlu_leaves rfl fun _ => BitVec.getLsbD_xor

/-- Settles O27: `CMP` is `SetFlagsCmp` of its two registers (R21) and the advance of `pc`. -/
theorem cmpSetsTheFlags : Obligations.CmpSetsTheFlags := by
  intro a b s
  obtain ⟨-, hz, hgt, hhigh⟩ := setFlagsCmpRule s (s.getX a) (s.getX b)
  exact ⟨(setFlagsCmp s (s.getX a) (s.getX b)).advance, rfl, rfl, hz, hgt, hhigh⟩

end Sys2Proof.Machine

/-! PROOFS. The statements of spec/42_stack.md: what `PSH` and `POP` leave, their faults, and the move that the two make. -/

namespace Sys2Proof.Machine

/-! ## Push and pop by the outcome of their stack primitive (R131, R132) -/

theorem pushValue_ok {s : State} (v : Word) (h : s.canPush 4) :
    pushValue v s =
      .next { s with mem := s.mem.writeDown s.sp (pushOrder v), sp := s.sp - 4, pc := s.pc + 4 } := by
  rw [pushValue, push32_ok h, bind_ok, finish_ok]
  rfl

theorem pushValue_error {s : State} {e : Raised} (v : Word) (h : firstPushFault s 4 = some e) :
    pushValue v s = .next (s.afterFault e) := by
  rw [pushValue, push32_error h, bind_error, finish_error]

theorem exec_pop_ok {d : Gpr} {s t : State} {v : Word} (h : pop32 s = .ok (v, t)) :
    exec (.pop d) s = .next (t.setX d v).advance := by
  rw [exec, execPop, h, bind_ok, finish_ok]

theorem exec_pop_error {d : Gpr} {s : State} {e : Raised} (h : pop32 s = .error e) :
    exec (.pop d) s = .next (s.afterFault e) := by
  rw [exec, execPop, h, bind_error, finish_error]

/-- Every form of `PSH` that pushes a value does what R131 says of that value. -/
theorem pushesWord_of_exec {i : Instr} {s : State} {v : Word} (h : exec i s = pushValue v s) : PushesWord i s v := by
  refine ⟨fun hp => ?_, fun e he => ?_⟩
  · exact ⟨_, h.trans (pushValue_ok v hp), holdsPushed_writeDown s (by simp)⟩
  · exact h.trans (pushValue_error v he)

theorem exec_pshReg {k : FileReg} (s : State) (hk : k.pushable = true) :
    exec (.pshReg k) s = pushValue (fileReg s k) s := if_pos hk

/-- The literal form pushes the one word with the literal's value as a number. -/
theorem eq_zext32 {v : Word} {imm : Half} (h : v.toNat = imm.toNat) : v = zext32 imm :=
  BitVec.eq_of_toNat_eq (h.trans (zext32_toNat imm).symm)

/-! ## The obligations -/

/-- Settles O20: each accepted form pushes its value, and `PSH PC` is the one form that is refused. -/
theorem pshPushesTheValue : Obligations.PshPushesTheValue := by
  refine ⟨fun imm s v hv => ?literal, fun k s => ?gpr, fun s => ?sp, fun s => ?fp, fun s => ?sr, fun s => ?pc⟩
  case literal => exact pushesWord_of_exec (eq_zext32 hv ▸ rfl)
  case gpr | sp | fp | sr => exact pushesWord_of_exec (exec_pshReg s rfl)
  case pc => rfl

/-- Settles O21: the popped word goes to `Rd`, or the first fault is the pop's. -/
theorem popLoadsTheTopWord : Obligations.PopLoadsTheTopWord := by
  refine fun d s => ⟨fun h => ?_, fun e he => ?_⟩
  · exact ⟨_, exec_pop_ok (pop32_ok h), popWord_byte s s.sp⟩
  · exact exec_pop_error (pop32_error he)

/-- Settles O22: `PSH` leaves what a push from the advanced state leaves, and R49 gives its word back to `POP`. -/
theorem pushPopMovesARegister : Obligations.PushPopMovesARegister := by
  intro k j s h
  have hpush := exec_pshReg (k := .gpr k) s rfl
  rw [pushValue_ok _ h] at hpush
  have hpop := popAfterPush s.advance _ _ (push32_ok (s := s.advance) h (s.getX k))
  have hstate := exec_pop_ok (d := j) hpop
  refine ⟨_, _, hpush, hstate.trans ?_, (holdsPushed_writeDown s (bs := pushOrder (s.getX k)) (by simp)).2⟩
  rw [← add4_add4]
  rfl

end Sys2Proof.Machine

/-! PROOFS. The statements of spec/43_control.md: the metrics, `JMP`, the frame that `CAL` builds and `RET` unwinds, and
the round trip of the two. -/

namespace Sys2Proof.Machine

/-! ## The metrics and the jump (R140, R142) -/

/-- Settles O16: each code's metric is a test of the two flag bits or of the whole register, and format J refuses the
slot whose code has no metric. -/
theorem metricRule : Obligations.MetricRule := by
  refine ⟨fun sr => ?values, fun k => ?codes, fun w h0 h7 => ?refused⟩
  case values =>
    refine ⟨?al, ?eq, ?ne, ?lt, ?gt, ?le, ?ge⟩
    all_goals
      rintro _ ⟨⟩
      simp [metricHolds, flagZ, flagGT]
  case codes => rw [Option.isSome_iff_ne_none, Ne, Metric.ofCode_none]
  case refused =>
    obtain ⟨op, mk, hf, hb⟩ := isJump_byte_iff.mpr h0
    exact (decode_jump hf hb).trans (decodeJump_reserved mk h7)

theorem exec_jmp_taken {c : Metric} {s : State} (target : Half) (h : metricHolds c s.sr = true) :
    exec (.jmp c target) s = .next { s with pc := zext32 target } := by
  rw [exec, execJmp, if_pos h]

theorem exec_jmp_notTaken {c : Metric} {s : State} (target : Half) (h : metricHolds c s.sr = false) :
    exec (.jmp c target) s = .next s.advance := by
  rw [exec, execJmp, h, if_neg Bool.false_ne_true]

/-- Settles O28: the one branch on the metric; the target is zero-extended, so it keeps its value as a number. -/
theorem jmpTransfersControl : Obligations.JmpTransfersControl := by
  refine fun c target s => ⟨fun h => ?taken, fun h => exec_jmp_notTaken target h⟩
  case taken => exact ⟨_, exec_jmp_taken target h, zext32_toNat target⟩

/-! ## The call (R143) -/

theorem exec_cal_taken {c : Metric} {s : State} (target : Half) (h : metricHolds c s.sr = true) :
    exec (.cal c target) s = finish s (takeCall target s) := by
  rw [exec, execCal, if_pos h]

theorem exec_cal_notTaken {c : Metric} {s : State} (target : Half) (h : metricHolds c s.sr = false) :
    exec (.cal c target) s = .next s.advance := by
  rw [exec, execCal, h, if_neg Bool.false_ne_true, finish_ok]

/-- The state after the taken call (R143). -/
def called (target : Half) (s : State) : State :=
  { s with
    mem := s.mem.writeDown s.sp (pushOrder s.fp ++ pushOrder (s.pc + 4)), sp := s.sp - 8, fp := s.sp - 8
    pc := zext32 target }

theorem exec_cal_ok {c : Metric} {s : State} (target : Half) (h : metricHolds c s.sr = true) (hp : s.canPush 8) :
    exec (.cal c target) s = .next (called target s) := by
  rw [exec_cal_taken target h, takeCall_ok hp, finish_ok, called]

/-- Settles O29: the two pushes of a taken call are one push of eight bytes, with one first fault. -/
theorem calBuildsTheFrame : Obligations.CalBuildsTheFrame := by
  refine fun c target s => ⟨fun h hp => ?room, fun h e he => ?noRoom, fun h => exec_cal_notTaken target h⟩
  case room => exact ⟨_, _, exec_cal_ok target h hp, zext32_toNat target, holdsPushed_writeDown s (by simp)⟩
  case noRoom => rw [exec_cal_taken target h, takeCall_error he, finish_error]

/-! ## The return (R144) -/

/-- Once the result is popped, the two pops of the frame are one pop of eight bytes, and what is left is the push. -/
theorem takeReturn_of_popped {s : State} (h : s.canPopFrom s.sp 4) :
    takeReturn s = match firstPopFault s s.fp 8 with
      | some e => .error e
      | none => push32 { s with sp := s.fp + 8, pc := popWord s s.fp, fp := popWord s (s.fp + 4) } (popWord s s.sp) := by
  have hsplit : firstPopFault s s.fp 8 = (firstPopFault s s.fp 4).or (firstPopFault s (s.fp + 4) 4) :=
    firstPopFault_split (m := 4) (n := 4)
  have hra : pop32 { s with sp := s.fp } = match firstPopFault s s.fp 4 with
      | some e => .error e
      | none => .ok (popWord s s.fp, { s with sp := s.fp + 4 }) := pop32_eq _
  have hfp (ra : Word) : pop32 { s with sp := s.fp + 4, pc := ra } = match firstPopFault s (s.fp + 4) 4 with
      | some e => .error e
      | none => .ok (popWord s (s.fp + 4), { s with sp := s.fp + 4 + 4, pc := ra }) := pop32_eq _
  rw [takeReturn, pop32_ok h, bind_ok, hsplit]
  dsimp only
  rw [hra]
  cases firstPopFault s s.fp 4 with
  | some e => rfl
  | none =>
    rw [bind_ok, Option.none_or]
    dsimp only
    rw [hfp]
    cases firstPopFault s (s.fp + 4) 4 with
    | some e => rfl
    | none => rw [bind_ok, add4_add4]

theorem exec_ret_error {s : State} {e : Raised} (h : takeReturn s = .error e) :
    exec .ret s = .next (s.afterFault e) := by
  rw [exec, execRet, h, finish_error]

theorem exec_ret_ok {s : State} (hres : s.canPopFrom s.sp 4) (hframe : s.canPopFrom s.fp 8)
    (hpush : { s with sp := s.fp + 8 }.canPush 4) :
    exec .ret s = .next { s with
      mem := s.mem.writeDown (s.fp + 8) (pushOrder (popWord s s.sp)), sp := s.fp + 4, pc := popWord s s.fp,
      fp := popWord s (s.fp + 4) } := by
  rw [exec, execRet, takeReturn_ok hres hframe hpush, finish_ok]

/-- Settles O30: the accesses in the order pop, pop of the frame, push; the first that fails decides. -/
theorem retUnwindsTheFrame : Obligations.RetUnwindsTheFrame := by
  refine fun s => ⟨fun hres hframe hpush => ?returns, fun e he => ?result, fun hres e he => ?frame,
    fun hres hframe e he => ?push⟩
  case returns =>
    exact ⟨_, exec_ret_ok hres hframe hpush, holdsPushed_writeDown { s with sp := s.fp + 8 } (by simp)⟩
  case result =>
    refine exec_ret_error ?_
    rw [takeReturn, pop32_error he, bind_error]
  case frame =>
    refine exec_ret_error ?_
    rw [takeReturn_of_popped hres, he]
  case push =>
    refine exec_ret_error ?_
    rw [takeReturn_of_popped hres, firstPopFault_none.mpr hframe]
    exact push32_error he

/-! ## The round trip (R145) -/

/-- A word pushed after `k` other bytes, popped from where its push left `sp`. -/
theorem popWord_of_holdsPushed {s u : State} {bs cs : List Byte} {v : Word} {k : Nat} (hk : bs.length = k)
    (h : HoldsPushed s (bs ++ (pushOrder v ++ cs)) u.mem) : popWord u (s.sp - BitVec.ofNat 32 (k + 4)) = v := by
  obtain ⟨hbytes, -⟩ := h
  refine popWord_pushed fun i hi => ?_
  refine (hbytes (k + i) (by simp; omega)).trans ?_
  rw [List.getElem_append_right (by omega), List.getElem_append_left (by simp; omega)]
  simp only [hk, Nat.add_sub_cancel_left]
  match i, hi with
  | 0, _ | 1, _ | 2, _ | 3, _ => rfl

/-- The state after the taken call and the push of its callee's result `v` (R131, R143). -/
def answered (target : Half) (v : Word) (s : State) : State :=
  { called target s with
    mem := (called target s).mem.writeDown (s.sp - 8) (pushOrder v), sp := s.sp - 8 - 4, pc := zext32 target + 4 }

theorem exec_pshLit_called {target : Half} {s : State} (imm : Half) (hp : s.canPush 12) :
    exec (.pshLit imm) (called target s) = .next (answered target (zext32 imm) s) :=
  pushValue_ok (zext32 imm) (canPush_sub (t := called target s) (m := 8) (n := 4) hp rfl rfl)

/-- The frame and the result are twelve bytes pushed in a row. -/
theorem answered_holdsPushed (target : Half) (v : Word) (s : State) :
    HoldsPushed s (pushOrder s.fp ++ (pushOrder (s.pc + 4) ++ pushOrder v)) (answered target v s).mem := by
  have happend : (answered target v s).mem =
      s.mem.writeDown s.sp (pushOrder s.fp ++ pushOrder (s.pc + 4) ++ pushOrder v) :=
    (Memory.writeDown_append s.mem s.sp (pushOrder s.fp ++ pushOrder (s.pc + 4)) (pushOrder v)).symm
  rw [happend, List.append_assoc]
  exact holdsPushed_writeDown s (by simp)

/-- The callee's `RET` pops the three words that were pushed, and leaves the result where the frame began. -/
theorem exec_ret_answered {target : Half} {v : Word} {s : State} (hp : s.canPush 12) :
    exec .ret (answered target v s) = .next { s with
      mem := (answered target v s).mem.writeDown s.sp (pushOrder v), sp := s.sp - 4, pc := s.pc + 4 } := by
  have hm := answered_holdsPushed target v s
  have hsp : (answered target v s).sp = s.sp - 12 := sub8_sub4 s.sp
  have hfp : (answered target v s).fp = s.sp - 8 := rfl
  have hres : (answered target v s).canPopFrom (answered target v s).sp 4 := by
    rw [hsp]
    exact canPopFrom_mono (canPopFrom_of_canPush (n := 12) hp) (by omega)
  have hframe : (answered target v s).canPopFrom (answered target v s).fp 8 :=
    canPopFrom_of_canPush (n := 8) (canPush_mono hp (by omega))
  have hroom : s.canPush 4 := canPush_mono hp (by omega)
  have hpush : { answered target v s with sp := (answered target v s).fp + 8 }.canPush 4 := by
    rw [hfp, sub8_add8]
    exact hroom
  have hv : popWord (answered target v s) (s.sp - 12) = v :=
    popWord_of_holdsPushed (k := 8) (bs := pushOrder s.fp ++ pushOrder (s.pc + 4)) (cs := []) rfl (by simpa using hm)
  have hra : popWord (answered target v s) (s.sp - 8) = s.pc + 4 := popWord_of_holdsPushed (k := 4) rfl hm
  have hold : popWord (answered target v s) (s.sp - 4) = s.fp := popWord_of_holdsPushed (k := 0) (bs := []) rfl hm
  rw [exec_ret_ok hres hframe hpush, hsp, hfp, sub8_add8, sub8_add4, hv, hra, hold]
  rfl

/-- `POP` of the word just pushed (R49). -/
theorem exec_pop_pushed {s : State} (d : Gpr) (v : Word) (h : s.canPush 4) :
    exec (.pop d) { s with mem := s.mem.writeDown s.sp (pushOrder v), sp := s.sp - 4 } =
      .next { s with mem := s.mem.writeDown s.sp (pushOrder v), x := s.x.set d v, pc := s.pc + 4 } :=
  exec_pop_ok (popAfterPush s _ v (push32_ok h v))

/-- Settles O31: `RET` leaves what a push of the result leaves after the caller's frame is gone, and R49 gives the result
back to `POP`. -/
theorem callReturnRoundTrip : Obligations.CallReturnRoundTrip := by
  intro c target imm d s h hp
  have hroom : s.canPush 4 := canPush_mono hp (by omega)
  refine ⟨_, _, _, (answered target (zext32 imm) s).mem.writeDown s.sp (pushOrder (zext32 imm)), zext32 imm,
    exec_cal_ok target h (canPush_mono hp (by omega)), exec_pshLit_called imm hp, exec_ret_answered hp, rfl, ?pop,
    zext32_toNat imm, fun a ha => ?frame⟩
  case pop =>
    rw [← add4_add4]
    exact exec_pop_pushed (s := { s with mem := (answered target (zext32 imm) s).mem, pc := s.pc + 4 }) d _ hroom
  case frame =>
    obtain ⟨-, hframe⟩ := answered_holdsPushed target (zext32 imm) s
    rw [Memory.read_writeDown_other fun i hi => ha i (Nat.lt_trans hi (by simp))]
    exact hframe a ha

end Sys2Proof.Machine

/-! PROOFS. The statements of spec/44_interrupt.md: the entry that every `INT` shares, halt, the numbers with no action,
character output and keyboard. -/

namespace Sys2Proof.Machine

/-! ## Entry (R150, R151) -/

theorem exec_int_ok {n : Byte} {s t : State} (h : interrupt n s = .ok t) : exec (.int n) s = .next t := by
  rw [exec, execInt, h, finish_ok]

theorem exec_int_error {n : Byte} {s : State} {e : Raised} (h : interrupt n s = .error e) :
    exec (.int n) s = .next (s.afterFault e) := by
  rw [exec, execInt, h, finish_error]

/-- An entry that does not fit decides the fault, whatever the number (R151). -/
theorem interrupt_noRoom {s : State} {e : Raised} (n : Byte) (h : firstPushFault s 8 = some e) :
    interrupt n s = .error e := by
  rw [interrupt, interruptEntry_error h, bind_error]

theorem entered_holdsPushed (s : State) :
    HoldsPushed s (pushOrder (s.pc + 2) ++ pushOrder s.sr) (entered s).mem := holdsPushed_writeDown s (by simp)

/-! ## Halt (R153) -/

theorem haltAction_ok {s : State} (h : s.canPush 4) :
    haltAction s = .ok { s with
      mem := s.mem.writeDown s.sp (pushOrder (s.getX 0)), sp := s.sp - 4, pc := BitVec.ofNat 32 s.cfg.progEnd
      status := .halted (some (s.getX 0)) } := by
  rw [haltAction, push32_ok (s := { s with pc := BitVec.ofNat 32 s.cfg.progEnd }) h, bind_ok]

theorem haltAction_error {s : State} {e : Raised} (h : firstPushFault s 4 = some e) : haltAction s = .error e := by
  rw [haltAction, push32_error (s := { s with pc := BitVec.ofNat 32 s.cfg.progEnd }) h, bind_error]

theorem interrupt_halt {s : State} (hp : s.canPush 8) : interrupt 0 s = haltAction (entered s) := by
  rw [interrupt, interruptEntry_ok hp, bind_ok]
  rfl

/-- The two words of entry and the exit code are twelve bytes pushed in a row. -/
theorem interrupt_halt_ok {s : State} (hp : s.canPush 12) :
    interrupt 0 s = .ok { s with
      mem := s.mem.writeDown s.sp (pushOrder (s.pc + 2) ++ pushOrder s.sr ++ pushOrder (s.getX 0)), sp := s.sp - 12
      pc := BitVec.ofNat 32 s.cfg.progEnd, status := .halted (some (s.getX 0)) } := by
  have hroom : (entered s).canPush 4 := canPush_sub (m := 8) (n := 4) hp rfl rfl
  rw [interrupt_halt (canPush_mono hp (by omega)), haltAction_ok hroom, Memory.writeDown_append, ← sub8_sub4]
  rfl

/-- The fault of halt is that of entry, else that of the push of the exit code. -/
theorem interrupt_halt_error {s : State} {e : Raised} (h : firstPushFault s 12 = some e) :
    interrupt 0 s = .error e := by
  have hsplit : firstPushFault s 12 = (firstPushFault s 8).or (firstPushFault (entered s) 4) :=
    firstPushFault_split (m := 8) (n := 4) rfl rfl
  rw [hsplit] at h
  cases hentry : firstPushFault s 8 with
  | some e' =>
    rw [hentry, Option.some_or] at h
    obtain rfl := Option.some.inj h
    exact interrupt_noRoom 0 hentry
  | none =>
    rw [hentry, Option.none_or] at h
    rw [interrupt_halt (firstPushFault_none.mp hentry), haltAction_error h]

/-- Settles O32: with room, halt leaves its three words in a row; else the first byte that does not fit decides. -/
theorem haltInterruptEndsTheRun : Obligations.HaltInterruptEndsTheRun := by
  refine fun s hcfg => ⟨fun hp => ?room, fun e he => exec_int_error (interrupt_halt_error he)⟩
  case room =>
    exact ⟨_, _, exec_int_ok (interrupt_halt_ok hp), progEnd_toNat hcfg, holdsPushed_writeDown s (by simp)⟩

/-! ## The numbers with no action (R152) -/

theorem interrupt_noAction {n : Byte} {s : State} (hn : 3 ≤ n.toNat) (hp : s.canPush 8) :
    interrupt n s = .ok { s with mem := (entered s).mem, pc := s.pc + 4 } := by
  obtain ⟨k, hk⟩ := Nat.exists_eq_add_of_le' hn
  rw [interrupt, interruptEntry_ok hp, bind_ok, hk]
  exact interruptExit_entered (entered s) hp

/-- Settles O33: exit restores the registers that entry saved, so only the saved words and `pc` differ. -/
theorem interruptsWithoutAction : Obligations.InterruptsWithoutAction := by
  refine fun n s hn => ⟨fun hp => ?room, fun e he => exec_int_error (interrupt_noRoom n he)⟩
  case room => exact ⟨_, exec_int_ok (interrupt_noAction hn hp), entered_holdsPushed s⟩

/-! ## Character output (R155) -/

theorem interrupt_output {s : State} (hp : s.canPush 8) :
    interrupt 2 s = outputAction (entered s) >>= interruptExit (entered s) := by
  rw [interrupt, interruptEntry_ok hp, bind_ok]
  rfl

theorem interrupt_output_ok {s : State} (hp : s.canPush 8)
    (h : (s.getX 1).toNat = 0 ∨ (s.getX 0).toNat + (s.getX 1).toNat ≤ s.cfg.memSize) :
    interrupt 2 s = .ok { s with
      mem := (entered s).mem, out := s.out ++ (entered s).bytesAt (s.getX 0).toNat (s.getX 1).toNat
      pc := s.pc + 4 } := by
  rw [interrupt_output hp, outputAction_ok (s := entered s) h, bind_ok, interruptExit_entered _ hp]
  rfl

theorem interrupt_output_error {s : State} (hp : s.canPush 8) (h0 : (s.getX 1).toNat ≠ 0)
    (h : s.cfg.memSize < (s.getX 0).toNat + (s.getX 1).toNat) :
    interrupt 2 s = .error ⟨.outOfBounds, max (s.getX 0).toNat s.cfg.memSize⟩ := by
  rw [interrupt_output hp, outputAction_error (s := entered s) h0 h, bind_error]
  rfl

/-- Settles O34: the range is checked, and read, in the memory that entry left; exit follows if the check passes. -/
theorem outputInterruptAppends : Obligations.OutputInterruptAppends := by
  refine fun s => ⟨fun hp hrange => ?inRange, fun hp h0 hrange => ?outOfRange,
    fun e he => exec_int_error (interrupt_noRoom 2 he)⟩
  case inRange =>
    exact ⟨_, _, exec_int_ok (interrupt_output_ok hp hrange), entered_holdsPushed s, bytesAt_length _ _ _,
      fun i hi => bytesAt_get _ _ _ i hi⟩
  case outOfRange => exact exec_int_error (interrupt_output_error hp h0 hrange)

/-! ## Keyboard (R154) -/

/-- Settles O35: the device acts on the memory that entry left, and exit takes the registers from what entry saved. -/
theorem keyboardInterruptCounts : Obligations.KeyboardInterruptCounts := by
  refine fun s => ⟨fun hp => ?room, fun e he => exec_int_error (interrupt_noRoom 1 he)⟩
  case room =>
    exact ⟨_, entered_holdsPushed s, exec_int_ok (interrupt_keyboard hp), fun a ha => read_deviceWrite s.cfg _ _ ha⟩

end Sys2Proof.Machine

/-! PROOFS. The statements of spec/45_assembler.md: the literal form of `LOD`, the definition of a label and the
reference to it, the label table's invariant through an assembly, and how an assembly ends. -/

namespace Sys2Proof.Asm

/-! ## The literal form of `LOD` (R176) -/

/-- Settles O60: past the register, both parsers read the marked token as a 16-bit literal. -/
theorem loadLiteralAlias : Obligations.LoadLiteralAlias := by
  intro d imm rest h
  cases hd : gprOf d with
  | none => simp [parseLod, parseLdi, needGpr, needToken, hd]
  | some i => simp [parseLod, parseLdi, needGpr, needToken, hd, h]

/-! ## Waiting sites -/

/-- Site `k` waits for the definition of `name` (R181). -/
def AsmState.Waits (st : AsmState) (name : Token) (k : Nat) : Prop :=
  ∃ sites, st.entry name = some (.unresolved sites) ∧ k ∈ sites

theorem settled_iff {st : AsmState} {k : Nat} : st.Settled k ↔ ∀ name m, st.Waits name m → k ≠ m ∧ k ≠ m + 1 := by
  constructor
  · rintro h name m ⟨sites, he, hm⟩
    exact ⟨fun hk => (h name sites he).1 (hk ▸ hm), (h name sites he).2 m hm⟩
  · exact fun h name sites he =>
      ⟨fun hk => (h name k ⟨sites, he, hk⟩).1 rfl, fun m hm => (h name m ⟨sites, he, hm⟩).2⟩

/-- The invariant of the label table, said of the waiting sites. -/
theorem ok_iff {st : AsmState} : st.Ok ↔
    st.off % 4 = 0 ∧ (st.labels.map Prod.fst).Nodup ∧ (∀ name, st.entry name ≠ some (.unresolved [])) ∧
    (∀ name k, st.Waits name k → k % 4 = 2 ∧ k + 1 < st.off) ∧
    ∀ name other k, st.Waits name k → st.Waits other k → name = other := by
  constructor
  · rintro ⟨hlen, hnodup, hsites, huniq⟩
    refine ⟨hlen, hnodup, fun name he => (hsites name [] he).1 rfl, ?_, ?_⟩
    · rintro name k ⟨sites, he, hk⟩
      exact (hsites name sites he).2 k hk
    · rintro name other k ⟨sites, he, hk⟩ ⟨others, he', hk'⟩
      exact huniq name other sites others k he he' hk hk'
  · rintro ⟨hlen, hnodup, hne, hsites, huniq⟩
    refine ⟨hlen, hnodup, fun name sites he => ⟨?_, fun k hk => hsites name k ⟨sites, he, hk⟩⟩,
      fun name other sites others k he he' hk hk' => huniq name other k ⟨sites, he, hk⟩ ⟨others, he', hk'⟩⟩
    rintro rfl
    exact hne name he

theorem init_not_waits (name : Token) (k : Nat) : ¬ AsmState.init.Waits name k := by
  rintro ⟨sites, he, -⟩
  cases he

theorem init_ok : AsmState.init.Ok :=
  ok_iff.mpr ⟨rfl, List.nodup_nil, fun _ he => (by cases he), fun name k h => absurd h (init_not_waits name k),
    fun name _ k h => absurd h (init_not_waits name k)⟩

/-! ## Definition (R182) -/

section
variable {name : Token} {st u : AsmState} {sites : List Nat}

theorem half_offset_toNat (h : st.off ≤ 0xFFFF) : (BitVec.ofNat 16 st.off).toNat = st.off := by
  rw [BitVec.toNat_ofNat]
  omega

theorem defineLabel_range (h : 0xFFFF < st.off) : defineLabel name st = .error .addressRange := if_pos h

theorem defineLabel_resolved {a : Half} (h : st.off ≤ 0xFFFF) (he : st.entry name = some (.resolved a)) :
    defineLabel name st = .error .duplicateLabel := by
  rw [defineLabel, if_neg (by omega), he]

theorem defineLabel_absent (h : st.off ≤ 0xFFFF) (he : st.entry name = none) :
    defineLabel name st = .ok
      { st with labels := setEntry name (.resolved (BitVec.ofNat 16 st.off)) st.labels } := by
  rw [defineLabel, if_neg (by omega), he]

theorem defineLabel_pending (h : st.off ≤ 0xFFFF) (he : st.entry name = some (.unresolved sites)) :
    defineLabel name st = .ok
      { buf := sites.foldl (patchSite (BitVec.ofNat 16 st.off)) st.buf
        labels := setEntry name (.resolved (BitVec.ofNat 16 st.off)) st.labels } := by
  rw [defineLabel, if_neg (by omega), he]

theorem defineLabel_entry (h : defineLabel name st = .ok u) (n : Token) :
    u.entry n = if n = name then some (.resolved (BitVec.ofNat 16 st.off)) else st.entry n := by
  obtain ⟨-, hl, -⟩ := defineLabel_cases h
  rw [AsmState.entry, hl, lookup_setEntry]
  rfl

theorem defineLabel_entry_same (h : defineLabel name st = .ok u) :
    u.entry name = some (.resolved (BitVec.ofNat 16 st.off)) := by
  rw [defineLabel_entry h, if_pos rfl]

theorem defineLabel_entry_other (h : defineLabel name st = .ok u) {n : Token} (hn : n ≠ name) :
    u.entry n = st.entry n := by
  rw [defineLabel_entry h, if_neg hn]

/-- A definition ends the waiting for its name, and for no other. -/
theorem defineLabel_waits (h : defineLabel name st = .ok u) {n : Token} {k : Nat} :
    u.Waits n k ↔ n ≠ name ∧ st.Waits n k := by
  unfold AsmState.Waits
  by_cases hn : n = name
  · simp [hn, defineLabel_entry_same h]
  · simp [hn, defineLabel_entry_other h hn]

theorem defineLabel_not_resolved (h : defineLabel name st = .ok u) (a : Half) : st.entry name ≠ some (.resolved a) := by
  intro he
  obtain ⟨hoff, -⟩ := defineLabel_cases h
  rw [defineLabel_resolved hoff he] at h
  cases h

theorem defineLabel_off (h : defineLabel name st = .ok u) : u.off = st.off := by
  obtain ⟨-, -, ⟨-, hb⟩ | ⟨sites, -, hb⟩⟩ := defineLabel_cases h
  · rw [AsmState.off, hb, AsmState.off]
  · rw [AsmState.off, hb, patchAll_length, AsmState.off]

/-- Each site of the defined name ends holding the offset, high byte first. -/
theorem defineLabel_patched (h : defineLabel name st = .ok u) (he : st.entry name = some (.unresolved sites))
    (hs : ∀ k ∈ sites, k % 4 = 2 ∧ k + 1 < st.off) {k : Nat} (hk : k ∈ sites) :
    u.buf[k]? = some (BitVec.ofNat 8 (st.off / 256)) ∧ u.buf[k + 1]? = some (BitVec.ofNat 8 (st.off % 256)) := by
  obtain ⟨hoff, -⟩ := defineLabel_cases h
  rw [defineLabel_pending hoff he] at h
  obtain rfl := Except.ok.inj h
  have hmod := (hs k hk).1
  simp only [getElem?_patchAll _ _ _ hs, half_hi, half_lo, half_offset_toNat hoff]
  simp [hk, hmod, show (k + 1) % 4 = 3 by omega]

/-- A byte of no site of the defined name keeps its value. -/
theorem defineLabel_kept (h : defineLabel name st = .ok u) {k : Nat}
    (hs : ∀ m, st.Waits name m → m % 4 = 2 ∧ m + 1 < st.off) (hk : ∀ m, st.Waits name m → k ≠ m ∧ k ≠ m + 1) :
    u.buf[k]? = st.buf[k]? := by
  obtain ⟨-, -, ⟨-, hb⟩ | ⟨sites, he, hb⟩⟩ := defineLabel_cases h
  · rw [hb]
  · have hw : ∀ m ∈ sites, st.Waits name m := fun m hm => ⟨sites, he, hm⟩
    rw [hb, getElem?_patchAll _ _ _ fun m hm => hs m (hw m hm), if_neg fun hc => (hk k (hw k hc.2)).1 rfl,
      if_neg fun hc => (hk (k - 1) (hw _ hc.2)).2 (by omega)]

end

/-- Settles O55: the three kinds of entry; every site of the name is patched and no other byte. -/
theorem definitionPatchesPendingSites : Obligations.DefinitionPatchesPendingSites := by
  intro name st hok
  obtain ⟨-, -, -, hsites, -⟩ := ok_iff.mp hok
  refine ⟨defineLabel_range, fun hoff => ⟨fun a => defineLabel_resolved hoff, ?absent, ?pending, ?entries⟩⟩
  case absent => exact fun he => ⟨_, defineLabel_absent hoff he, rfl⟩
  case pending =>
    intro sites he
    have h := defineLabel_pending hoff he
    refine ⟨_, h, defineLabel_off h,
      fun k hk => defineLabel_patched h he (fun m hm => hsites name m ⟨sites, he, hm⟩) hk,
      fun k hk hk1 => defineLabel_kept h (hsites name) ?_⟩
    rintro m ⟨others, he', hm⟩
    obtain rfl : sites = others := by simpa [he] using he'
    exact ⟨fun hkm => hk (hkm ▸ hm), hk1 m hm⟩
  case entries => exact fun u h => ⟨defineLabel_entry_same h, fun other => defineLabel_entry_other h⟩

/-! ## Reference (R183) -/

section
variable {i : AsmInstr} {op : Byte} {c : Metric} {name : Token} {st : AsmState}

theorem referLabel_resolved {a : Half} (he : st.entry name = some (.resolved a)) :
    referLabel name st = (a, st.labels) := by
  rw [referLabel, he]

theorem referLabel_pending {sites : List Nat} (he : st.entry name = some (.unresolved sites)) :
    referLabel name st = (0, setEntry name (.unresolved (sites ++ [st.off + 2])) st.labels) := by
  rw [referLabel, he]

theorem referLabel_absent (he : st.entry name = none) :
    referLabel name st = (0, setEntry name (.unresolved [st.off + 2]) st.labels) := by
  rw [referLabel, he]

variable (hi : (i = .jmpLabel c name ∧ op = 0x10) ∨ (i = .calLabel c name ∧ op = 0x11))
include hi

/-- A reference is emitted as its opcode, its metric, and the field that the table gives it, high byte first. -/
theorem emit_reference : emit i st =
    { buf := st.buf ++ [op, BitVec.ofNat 8 c.code.val, BitVec.ofNat 8 ((referLabel name st).1.toNat / 256),
        BitVec.ofNat 8 ((referLabel name st).1.toNat % 256)]
      labels := (referLabel name st).2 } := by
  rw [← metric_byte, ← half_hi, ← half_lo]
  rcases hi with ⟨rfl, rfl⟩ | ⟨rfl, rfl⟩ <;> rfl

theorem emit_reference_resolved {a : Half} (he : st.entry name = some (.resolved a)) :
    emit i st = { st with buf := st.buf ++
      [op, BitVec.ofNat 8 c.code.val, BitVec.ofNat 8 (a.toNat / 256), BitVec.ofNat 8 (a.toNat % 256)] } := by
  rw [emit_reference hi, referLabel_resolved he]

theorem emit_reference_pending {sites : List Nat} (he : st.entry name = some (.unresolved sites)) :
    (emit i st).buf = st.buf ++ [op, BitVec.ofNat 8 c.code.val, 0, 0] ∧
      (emit i st).entry name = some (.unresolved (sites ++ [st.off + 2])) := by
  rw [emit_reference hi, referLabel_pending he]
  exact ⟨by simp, (lookup_setEntry ..).trans (if_pos rfl)⟩

theorem emit_reference_absent (he : st.entry name = none) :
    (emit i st).buf = st.buf ++ [op, BitVec.ofNat 8 c.code.val, 0, 0] ∧
      (emit i st).entry name = some (.unresolved [st.off + 2]) := by
  rw [emit_reference hi, referLabel_absent he]
  exact ⟨by simp, (lookup_setEntry ..).trans (if_pos rfl)⟩

theorem emit_reference_other {other : Token} (hne : other ≠ name) : (emit i st).entry other = st.entry other := by
  rw [emit_reference hi]
  exact (referLabel_entry name st other).resolve_right fun h => hne h.1

end

/-- Settles O56: the field and the table that each kind of entry gives a reference. -/
theorem referenceEmitsOrQueues : Obligations.ReferenceEmitsOrQueues :=
  fun _ _ _ _ _ hi => ⟨fun _ => emit_reference_resolved hi, fun _ => emit_reference_pending hi,
    emit_reference_absent hi, fun _ => emit_reference_other hi⟩

/-! ## Forward and backward references (R185) -/

/-- Instructions that refer to no label only append their slots. -/
theorem emit_plain_foldl (body : List Instr) (st : AsmState) :
    body.foldl (fun u i => emit (.plain i) u) st =
      { st with buf := st.buf ++ body.flatMap fun i => (encode i).bytes } := by
  induction body generalizing st with
  | nil => simp
  | cons i body ih =>
    rw [List.foldl_cons, ih, emit]
    simp

/-- Settles O58: the definition patches the forward reference, and the backward one is emitted with the same offset. -/
theorem forwardAndBackwardReferencesAgree : Obligations.ForwardAndBackwardReferencesAgree := by
  rintro c e name st st1 st2 st3 st4 body hok habsent rfl hst2 hdef rfl
  obtain ⟨hlen, -⟩ := ok_iff.mp hok
  obtain ⟨hoff, -⟩ := defineLabel_cases hdef
  obtain ⟨hbuf1, hentry1⟩ := emit_reference_absent (i := .jmpLabel c name) (.inl ⟨rfl, rfl⟩) habsent
  rw [emit_plain_foldl] at hst2
  have hlong : st.off + 4 ≤ st2.off := by simp [hst2, hbuf1, AsmState.off]
  have hentry2 : st2.entry name = some (.unresolved [st.off + 2]) := by rw [hst2, ← hentry1]; rfl
  obtain ⟨hhi, hlo⟩ := defineLabel_patched hdef hentry2
    (fun k hk => by obtain rfl := List.mem_singleton.mp hk; omega) (List.mem_singleton_self _)
  have hlen3 := defineLabel_off hdef
  rw [emit_reference_resolved (.inl ⟨rfl, rfl⟩) (defineLabel_entry_same hdef), half_offset_toNat hoff]
  simp only [AsmState.off] at *
  refine ⟨?_, ?_, ?_, ?_⟩
  · rw [List.getElem?_append_left (by omega), hhi]
  · rw [List.getElem?_append_left (by omega), hlo]
  · simp
  · simp

/-! ## The invariant through an assembly (R184) -/

/-- The address field at site `k`, which referred to `name`, holds the address of `name`, and is no waiting site's. -/
def AsmState.Holds (st : AsmState) (name : Token) (k : Nat) : Prop :=
  ∃ a, st.entry name = some (.resolved a) ∧ st.buf[k]? = some (BitVec.ofNat 8 (a.toNat / 256)) ∧
    st.buf[k + 1]? = some (BitVec.ofNat 8 (a.toNat % 256)) ∧ st.Settled k ∧ st.Settled (k + 1)

/-- How every part of an assembly leaves the output and the label table: what is settled stays as it is. -/
structure Extends (st u : AsmState) : Prop where
  off_le : st.off ≤ u.off
  resolved : ∀ {name a}, st.entry name = some (.resolved a) → u.entry name = some (.resolved a)
  present : ∀ {name}, st.entry name ≠ none → u.entry name ≠ none
  settled : ∀ {k}, k < st.off → st.Settled k → u.Settled k ∧ u.buf[k]? = st.buf[k]?
  waits : ∀ {name k}, st.Waits name k → u.Holds name k ∨ u.Waits name k

theorem AsmState.Holds.mono {st u : AsmState} {name : Token} {k : Nat} (h : st.Holds name k) (hx : Extends st u) :
    u.Holds name k := by
  obtain ⟨a, he, hhi, hlo, hk, hk1⟩ := h
  obtain ⟨huk, hbk⟩ := hx.settled (List.getElem?_eq_some_iff.mp hhi).1 hk
  obtain ⟨huk1, hbk1⟩ := hx.settled (List.getElem?_eq_some_iff.mp hlo).1 hk1
  exact ⟨a, hx.resolved he, hbk.trans hhi, hbk1.trans hlo, huk, huk1⟩

theorem Extends.refl (st : AsmState) : Extends st st := ⟨le_rfl, id, id, fun _ h => ⟨h, rfl⟩, .inr⟩

theorem Extends.trans {st u v : AsmState} (h1 : Extends st u) (h2 : Extends u v) : Extends st v where
  off_le := h1.off_le.trans h2.off_le
  resolved he := h2.resolved (h1.resolved he)
  present he := h2.present (h1.present he)
  settled hk hs :=
    have ⟨hs1, hb1⟩ := h1.settled hk hs
    have ⟨hs2, hb2⟩ := h2.settled (hk.trans_le h1.off_le) hs1
    ⟨hs2, hb2.trans hb1⟩
  waits hw := (h1.waits hw).elim (fun hh => .inl (hh.mono h2)) h2.waits

section
variable {st u : AsmState} {w : Slot}

theorem Emitted.off_eq (h : Emitted st u w) : u.off = st.off + 4 := by
  obtain ⟨hbuf, -⟩ := h
  rw [AsmState.off, hbuf, List.length_append, slot_bytes_length, AsmState.off]

theorem Emitted.kept (h : Emitted st u w) {k : Nat} (hk : k < st.off) : u.buf[k]? = st.buf[k]? := by
  obtain ⟨hbuf, -⟩ := h
  rw [hbuf, List.getElem?_append_left hk]

/-- An emission changes the entry of one name at most, and adds to it the new slot's site. -/
theorem Emitted.entry_cases (h : Emitted st u w) : ∃ name, ∀ n, u.entry n = st.entry n ∨ n = name ∧
    ∃ old, u.entry n = some (.unresolved (old ++ [st.off + 2])) ∧
      ((st.entry n = none ∧ old = []) ∨ st.entry n = some (.unresolved old)) := by
  obtain ⟨-, -, -, hsame | ⟨-, name, old, hnew, hold, hother⟩⟩ := h
  · exact ⟨[], fun n => .inl (hsame n)⟩
  · refine ⟨name, fun n => ?_⟩
    by_cases hn : n = name
    · subst hn
      exact .inr ⟨rfl, old, hnew, hold⟩
    · exact .inl (hother n hn)

theorem Emitted.waits_cases (h : Emitted st u w) :
    ∃ name, ∀ n k, u.Waits n k → st.Waits n k ∨ n = name ∧ k = st.off + 2 := by
  obtain ⟨name, hcases⟩ := h.entry_cases
  refine ⟨name, fun n k ⟨sites, he, hk⟩ => ?_⟩
  rcases hcases n with hsame | ⟨rfl, old, hnew, hold⟩
  · exact .inl ⟨sites, hsame ▸ he, hk⟩
  · obtain rfl : old ++ [st.off + 2] = sites := by simpa [hnew] using he
    rcases List.mem_append.mp hk with hk | hk
    · rcases hold with ⟨-, rfl⟩ | hold
      · cases hk
      · exact .inl ⟨old, hold, hk⟩
    · exact .inr ⟨rfl, List.mem_singleton.mp hk⟩

theorem Emitted.waits_mono (h : Emitted st u w) {n : Token} {k : Nat} : st.Waits n k → u.Waits n k := by
  rintro ⟨sites, he, hk⟩
  obtain ⟨name, hcases⟩ := h.entry_cases
  rcases hcases n with hsame | ⟨-, old, hnew, ⟨hnone, -⟩ | hold⟩
  · exact ⟨sites, hsame.trans he, hk⟩
  · cases hnone.symm.trans he
  · obtain rfl : old = sites := by simpa [hold] using he
    exact ⟨_, hnew, List.mem_append_left _ hk⟩

theorem Emitted.ok (h : Emitted st u w) (hok : st.Ok) : u.Ok := by
  obtain ⟨hlen, hnodup, hne, hsites, huniq⟩ := ok_iff.mp hok
  have hoff := h.off_eq
  obtain ⟨name, hentry⟩ := h.entry_cases
  obtain ⟨name', hwaits⟩ := h.waits_cases
  obtain ⟨-, -, hkeys, -⟩ := h
  refine ok_iff.mpr ⟨by omega, hkeys hnodup, fun n => ?nonempty, fun n k hk => ?site, fun n m k hn hm => ?unique⟩
  case nonempty =>
    rcases hentry n with hsame | ⟨-, old, hnew, -⟩
    · rw [hsame]
      exact hne n
    · simp [hnew]
  case site =>
    rcases hwaits n k hk with hk | ⟨-, rfl⟩
    · have := hsites n k hk
      omega
    · omega
  case unique =>
    rcases hwaits n k hn with hn | ⟨rfl, hk⟩
    · have := hsites n k hn
      exact huniq n m k hn ((hwaits m k hm).resolve_right fun hm => by omega)
    · rcases hwaits m k hm with hm | ⟨rfl, -⟩
      · have := hsites m k hm
        omega
      · rfl

theorem Emitted.extends (h : Emitted st u w) : Extends st u := by
  obtain ⟨name, hentry⟩ := h.entry_cases
  obtain ⟨name', hwaits⟩ := h.waits_cases
  refine ⟨by rw [h.off_eq]; omega, fun {n a} he => ?resolved, fun {n} he => ?present,
    fun {k} hk hs => ⟨?settled, h.kept hk⟩, fun hw => .inr (h.waits_mono hw)⟩
  case resolved =>
    rcases hentry n with hsame | ⟨-, old, -, ⟨hnone, -⟩ | hold⟩
    · rw [hsame, he]
    · cases hnone.symm.trans he
    · cases hold.symm.trans he
  case present =>
    rcases hentry n with hsame | ⟨-, old, hnew, -⟩
    · rwa [hsame]
    · simp [hnew]
  case settled =>
    refine settled_iff.mpr fun n m hm => ?_
    rcases hwaits n m hm with hm | ⟨-, rfl⟩
    · exact settled_iff.mp hs n m hm
    · omega

variable {name : Token}

theorem defineLabel_ok (h : defineLabel name st = .ok u) (hok : st.Ok) : u.Ok := by
  obtain ⟨hlen, hnodup, hne, hsites, huniq⟩ := ok_iff.mp hok
  obtain ⟨-, hl, -⟩ := defineLabel_cases h
  have hoff := defineLabel_off h
  have hwaits {n k} (hw : u.Waits n k) : st.Waits n k := ((defineLabel_waits h).mp hw).2
  refine ok_iff.mpr ⟨by rw [hoff, hlen], by rw [hl]; exact nodup_setEntry hnodup, fun n => ?nonempty,
    fun n k hk => by rw [hoff]; exact hsites n k (hwaits hk), fun n m k hn hm => huniq n m k (hwaits hn) (hwaits hm)⟩
  case nonempty =>
    rw [defineLabel_entry h]
    split
    · simp
    · exact hne n

/-- A site of the defined name holds its address, and no other name's site shares its bytes. -/
theorem defineLabel_holds (h : defineLabel name st = .ok u) (hok : st.Ok) {k : Nat} (hk : st.Waits name k) :
    u.Holds name k := by
  obtain ⟨-, -, -, hsites, huniq⟩ := ok_iff.mp hok
  obtain ⟨hoff, -⟩ := defineLabel_cases h
  have hmod := hsites name k hk
  have hapart : ∀ n m, u.Waits n m → m % 4 = 2 ∧ k ≠ m := by
    intro n m hm
    obtain ⟨hn, hm⟩ := (defineLabel_waits h).mp hm
    exact ⟨(hsites n m hm).1, fun hkm => hn (huniq n name m hm (hkm ▸ hk))⟩
  obtain ⟨sites, he, hmem⟩ := hk
  obtain ⟨hhi, hlo⟩ := defineLabel_patched h he (fun m hm => hsites name m ⟨sites, he, hm⟩) hmem
  refine ⟨_, defineLabel_entry_same h, by rwa [half_offset_toNat hoff], by rwa [half_offset_toNat hoff],
    settled_iff.mpr fun n m hm => ?_, settled_iff.mpr fun n m hm => ?_⟩
  all_goals
    have := hapart n m hm
    omega

theorem defineLabel_extends (h : defineLabel name st = .ok u) (hok : st.Ok) : Extends st u := by
  obtain ⟨-, -, -, hsites, -⟩ := ok_iff.mp hok
  refine ⟨(defineLabel_off h).ge, fun {n a} he => ?resolved, fun {n} he => ?present,
    fun {k} hk hs => ⟨?settled, ?kept⟩, fun {n k} hw => ?waits⟩
  case resolved =>
    rw [defineLabel_entry_other h fun hn => defineLabel_not_resolved h a (hn ▸ he), he]
  case present =>
    rw [defineLabel_entry h]
    split
    · simp
    · exact he
  case settled =>
    exact settled_iff.mpr fun n m hm => settled_iff.mp hs n m ((defineLabel_waits h).mp hm).2
  case kept => exact defineLabel_kept h (hsites name) (settled_iff.mp hs name)
  case waits =>
    by_cases hn : n = name
    · subst hn
      exact .inl (defineLabel_holds h hok hw)
    · exact .inr ((defineLabel_waits h).mpr ⟨hn, hw⟩)

end

theorem assembleText_extends {cfg : AsmConfig} {files : List Char → Option (List Char)} {depth : Nat}
    {text : List Char} {st u : AsmState} (h : assembleText cfg (includeFile cfg files depth) text st = .ok u) :
    st.Ok → u.Ok ∧ Extends st u := by
  refine assembleText_induct (R := fun st u => st.Ok → u.Ok ∧ Extends st u) (fun st hok => ⟨hok, .refl st⟩)
    (fun h1 h2 hok => ?trans) (fun i st hi hok => ?emit) (fun name st u hd hok => ?define) cfg files depth text st u h
  case trans =>
    obtain ⟨hok1, hx1⟩ := h1 hok
    obtain ⟨hok2, hx2⟩ := h2 hok1
    exact ⟨hok2, hx1.trans hx2⟩
  case emit =>
    obtain ⟨w, hw⟩ := emit_cases i st (fun _ => decode_encode) hi
    exact ⟨hw.ok hok, hw.extends⟩
  case define => exact ⟨defineLabel_ok hd hok, defineLabel_extends hd hok⟩

/-- Settles O57: the empty table meets the invariant, and every emission and every definition keeps it and extends the
output and the table. -/
theorem labelTableInvariant : Obligations.LabelTableInvariant := by
  refine ⟨init_ok, fun cfg files depth text st u hok h => ?_⟩
  obtain ⟨huok, hx⟩ := assembleText_extends h hok
  refine ⟨huok, hx.off_le, fun name a => hx.resolved, fun name => hx.present, fun name sites k he hk => ?waits,
    fun k hk hs => (hx.settled hk hs).2⟩
  case waits =>
    rcases hx.waits ⟨sites, he, hk⟩ with ⟨a, hres, hhi, hlo, -⟩ | hw
    · exact .inl ⟨a, hres, hhi, hlo⟩
    · exact .inr hw

/-! ## Every slot of an image decodes (R189, R91) -/

/-- Whether a slot decodes depends on its first two bytes alone. -/
theorem decodes_congr {w v : Slot} (h0 : v.b0 = w.b0) (h1 : v.b1 = w.b1) (hw : ∃ i, decode w = .ok i) :
    ∃ i, decode v = .ok i := by
  cases hv : decode v with
  | ok i => exact ⟨i, rfl⟩
  | error f =>
    obtain ⟨i, hi⟩ := hw
    have hf : decode w = .error f := by
      rw [slotsThatDoNotDecode, h0, h1] at hv
      exact (slotsThatDoNotDecode w f).mpr hv
    cases hi.symm.trans hf

theorem slotAt_append_left {l : List Byte} (m : List Byte) {k : Nat} (h : 4 * k + 3 < l.length) :
    slotAt (l ++ m) k = slotAt l k := by
  simp only [slotAt]
  rw [List.getD_append _ _ _ _ (by omega), List.getD_append _ _ _ _ (by omega), List.getD_append _ _ _ _ (by omega),
    List.getD_append _ _ _ _ (by omega)]

theorem slotAt_append_bytes {l : List Byte} (w : Slot) {k : Nat} (h : l.length = 4 * k) :
    slotAt (l ++ w.bytes) k = w := by
  simp [slotAt, Slot.bytes, ← h]

/-- Every slot of the buffer decodes. -/
def AsmState.SlotsDecode (st : AsmState) : Prop := ∀ k, 4 * k < st.off → ∃ i, decode (slotAt st.buf k) = .ok i

theorem Emitted.slotsDecode {st u : AsmState} {w : Slot} (h : Emitted st u w) (hlen : st.off % 4 = 0)
    (hd : st.SlotsDecode) : u.SlotsDecode := by
  intro k hk
  rw [h.off_eq] at hk
  obtain ⟨hbuf, hw, -⟩ := h
  rw [hbuf]
  by_cases hlast : 4 * k = st.off
  · rwa [slotAt_append_bytes w hlast.symm]
  · rw [slotAt_append_left _ (show 4 * k + 3 < st.off by omega)]
    exact hd k (by omega)

/-- Patching writes the third and fourth byte of slots only. -/
theorem defineLabel_slotsDecode {name : Token} {st u : AsmState} (h : defineLabel name st = .ok u) (hok : st.Ok)
    (hd : st.SlotsDecode) : u.SlotsDecode := by
  obtain ⟨-, -, -, hsites, -⟩ := ok_iff.mp hok
  intro k hk
  rw [defineLabel_off h] at hk
  have hkept {j} (hj : j % 4 < 2) : u.buf.getD j 0 = st.buf.getD j 0 := by
    rw [List.getD_eq_getElem?_getD, List.getD_eq_getElem?_getD, defineLabel_kept h (hsites name) fun m hm => ?_]
    have := hsites name m hm
    omega
  have h0 : (slotAt u.buf k).b0 = (slotAt st.buf k).b0 := hkept (by omega)
  have h1 : (slotAt u.buf k).b1 = (slotAt st.buf k).b1 := hkept (by omega)
  exact decodes_congr h0 h1 (hd k hk)

theorem assembleText_slotsDecode {cfg : AsmConfig} {files : List Char → Option (List Char)} {depth : Nat}
    {text : List Char} {st u : AsmState} (h : assembleText cfg (includeFile cfg files depth) text st = .ok u) :
    st.Ok ∧ st.SlotsDecode → u.Ok ∧ u.SlotsDecode := by
  refine assembleText_induct (R := fun st u => st.Ok ∧ st.SlotsDecode → u.Ok ∧ u.SlotsDecode) (fun st => id)
    (fun h1 h2 => h2 ∘ h1) (fun i st hi ⟨hok, hd⟩ => ?emit) (fun name st u hdef ⟨hok, hd⟩ => ?define) cfg files depth
    text st u h
  case emit =>
    obtain ⟨w, hw⟩ := emit_cases i st (fun _ => decode_encode) hi
    exact ⟨hw.ok hok, hw.slotsDecode hok.1 hd⟩
  case define => exact ⟨defineLabel_ok hdef hok, defineLabel_slotsDecode hdef hok hd⟩

/-! ## The end of an assembly (R186, R190, R192) -/

section
variable {progSize : Nat} {st : AsmState}

theorem finishAssembly_undefined (hok : st.Ok) (h : ∃ name sites, st.entry name = some (.unresolved sites)) :
    ∃ name sites, st.entry name = some (.unresolved sites) ∧
      finishAssembly progSize st = .error (.undefinedLabel name) := by
  obtain ⟨-, hnodup, -⟩ := ok_iff.mp hok
  cases hp : st.firstPending with
  | none =>
    obtain ⟨name, sites, he⟩ := h
    exact absurd he (firstPending_none hp name sites)
  | some name =>
    obtain ⟨sites, he⟩ := firstPending_some hnodup hp
    exact ⟨name, sites, he, by rw [finishAssembly, hp]⟩

theorem finishAssembly_defined (hok : st.Ok) (h : ∀ name sites, st.entry name ≠ some (.unresolved sites)) :
    finishAssembly progSize st = if progSize < st.buf.length then .error .programTooLarge else .ok st.buf := by
  obtain ⟨-, hnodup, -⟩ := ok_iff.mp hok
  cases hp : st.firstPending with
  | none => rw [finishAssembly, hp]
  | some name =>
    obtain ⟨sites, he⟩ := firstPending_some hnodup hp
    exact absurd he (h name sites)

end

/-- Settles O59: the end of the input tests the table, then the capacity; and every slot that was emitted decodes, also
after its address field was patched. -/
theorem assembledImagesDecode : Obligations.AssembledImagesDecode := by
  intro cfg progSize files text
  refine ⟨fun e h => by rw [assemble, h, asm_bind_error], fun u h => ?finish, fun image h => ?image⟩
  case finish =>
    obtain ⟨hok, -⟩ := assembleText_extends h init_ok
    rw [assemble, h, asm_bind_ok]
    refine ⟨finishAssembly_undefined hok, fun hdef => ⟨fun hlarge => ?_, fun hfits => ?_⟩⟩
    · rw [finishAssembly_defined hok hdef, if_pos hlarge]
    · rw [finishAssembly_defined hok hdef, if_neg hfits.not_gt]
  case image =>
    obtain ⟨u, hu, hfin⟩ := asm_bind_eq_ok h
    obtain ⟨-, hfits, rfl⟩ := finishAssembly_cases hfin
    obtain ⟨hok, hd⟩ := assembleText_slotsDecode hu ⟨init_ok, fun k hk => by cases hk⟩
    exact ⟨hfits, hok.1, hd⟩

end Sys2Proof.Asm

/-! PROOFS. The statements of spec/60_exceptions.md: faults are precise, every instruction has a next state, the faults of
shifts and division, and which instruction raises which fault. -/

namespace Sys2Proof.Machine

/-! ## A fault leaves the rest of the state (R200, R202) -/

/-- From a running state no effect is a fault: it leaves the run running, or is the halt of `INT #0`. -/
theorem effect_not_faulted {i s t} (hs : s.status = .running) (h : Effect i s t) (r : FaultRecord) :
    t.status ≠ .faulted r := by
  rcases effect_status h with ht | ⟨-, ht⟩
  · simp [ht, hs]
  · simp [ht]

theorem afterFault_of_faulted {s : State} {e : Raised} {r : FaultRecord} (h : (s.afterFault e).status = .faulted r) :
    r = ⟨e.cause, s.pc, e.info⟩ := (RunStatus.faulted.inj h).symm

/-- Settles O40: a step that ends the run normally or completes its instruction records no fault, so the step only
recorded one. -/
theorem faultsArePrecise : Obligations.FaultsArePrecise := by
  intro s t r h hr
  obtain ⟨hs, ⟨-, rfl⟩ | ⟨e, rfl⟩ | ⟨i, u, -, -, -, he, rfl⟩⟩ := step_cases h
  · cases hr
  · obtain rfl := afterFault_of_faulted hr
    exact ⟨rfl, rfl⟩
  · rw [afterEffect_status] at hr
    exact absurd hr (effect_not_faulted hs he r)

/-! ## Every instruction has a next state (R218) -/

/-- Settles O39: `exec` always answers a next state, and that is the instruction's effect or a fault record. -/
theorem everyInstructionHasANextState : Obligations.EveryInstructionHasANextState := by
  intro i s
  obtain ⟨t, h⟩ := exec_next i s
  refine ⟨t, h, ?_⟩
  rcases exec_effect h with he | ⟨e, rfl⟩
  · refine ⟨effect_cfg he, fun hs => ?_⟩
    exact (effect_status he).imp (·.trans hs) fun ⟨hi, _⟩ => .inr hi
  · exact ⟨rfl, fun _ => .inr (.inl ⟨_, rfl⟩)⟩

/-! ## Shifts (R119, R120, R212) -/

section
variable {a n : Word}

theorem shiftLeft_ok (h : n.toNat < 32) : shiftLeft a n = .ok (a <<< n.toNat) := if_neg h.not_ge

theorem shiftRight_ok (h : n.toNat < 32) : shiftRight a n = .ok (a >>> n.toNat) := if_neg h.not_ge

theorem shiftLeft_error (h : 32 ≤ n.toNat) : shiftLeft a n = .error ⟨.shiftRange, n.toNat⟩ := if_pos h

theorem shiftRight_error (h : 32 ≤ n.toNat) : shiftRight a n = .error ⟨.shiftRange, n.toNat⟩ := if_pos h

/-- An operation with one test raises only when the test says so. -/
theorem error_of_ite {c : Prop} [Decidable c] {e e' : Raised}
    (h : (if c then .error e' else .ok a : Except Raised Word) = .error e) : c ∧ e = e' := by
  split at h
  · next hc => exact ⟨hc, (Except.error.inj h).symm⟩
  · cases h

/-- All a left shift can raise. -/
theorem shiftLeft_raises {e : Raised} (h : shiftLeft a n = .error e) : 32 ≤ n.toNat ∧ e = ⟨.shiftRange, n.toNat⟩ :=
  error_of_ite h

/-- All a right shift can raise. -/
theorem shiftRight_raises {e : Raised} (h : shiftRight a n = .error e) : 32 ≤ n.toNat ∧ e = ⟨.shiftRange, n.toNat⟩ :=
  error_of_ite h

end

/-- Settles O25: the one test on the amount; a shift of a `BitVec` is a product modulo `2^32` or a quotient. -/
theorem shiftsByTheWholeOperand : Obligations.ShiftsByTheWholeOperand := by
  refine fun d o s => ⟨fun h => ⟨?shl, ?shr⟩, fun h => ⟨?shlRange, ?shrRange⟩⟩
  case shl => exact exec_shl d o s ▸ execAlu_leaves (shiftLeft_ok h) (by rw [BitVec.toNat_shiftLeft, Nat.shiftLeft_eq])
  case shr =>
    exact exec_shr d o s ▸ execAlu_leaves (shiftRight_ok h) (by rw [BitVec.toNat_ushiftRight, Nat.shiftRight_eq_div_pow])
  case shlRange => exact exec_shl d o s ▸ execAlu_error (shiftLeft_error h)
  case shrRange => exact exec_shr d o s ▸ execAlu_error (shiftRight_error h)

/-! ## Division (R115, R210, R211) -/

section
variable {slot a b : Word}

theorem divide_zero : divide slot a 0 = .error ⟨.divideByZero, slot.toNat⟩ := if_pos rfl

theorem divide_overflow (ha : a.toInt = -2 ^ 31) (hb : b.toInt = -1) :
    divide slot a b = .error ⟨.divideOverflow, slot.toNat⟩ := by
  rw [toInt_intMin] at ha
  rw [toInt_m1] at hb
  subst ha hb
  rfl

theorem divide_ok (hb : b ≠ 0) (h : ¬(a.toInt = -2 ^ 31 ∧ b.toInt = -1)) :
    divide slot a b = .ok (BitVec.ofInt 32 (Int.tdiv a.toInt b.toInt)) := by
  rw [toInt_intMin, toInt_m1] at h
  rw [divide, if_neg hb, if_neg h]

/-- All a division can raise. -/
theorem divide_raises {e : Raised} (h : divide slot a b = .error e) :
    (b = 0 ∧ e = ⟨.divideByZero, slot.toNat⟩) ∨
    (a.toInt = -2 ^ 31 ∧ b.toInt = -1 ∧ e = ⟨.divideOverflow, slot.toNat⟩) := by
  by_cases hb : b = 0
  · subst hb
    rw [divide_zero] at h
    exact .inl ⟨rfl, (Except.error.inj h).symm⟩
  · by_cases ho : a.toInt = -2 ^ 31 ∧ b.toInt = -1
    · rw [divide_overflow ho.1 ho.2] at h
      exact .inr ⟨ho.1, ho.2, (Except.error.inj h).symm⟩
    · rw [divide_ok hb ho] at h; cases h

/-- The quotient of two words is a word, but for `-2^31` by `-1`, so none of its bits are lost (R115). -/
theorem toInt_ofInt_tdiv (h : ¬(a.toInt = -2 ^ 31 ∧ b.toInt = -1)) :
    (BitVec.ofInt 32 (Int.tdiv a.toInt b.toInt)).toInt = Int.tdiv a.toInt b.toInt := by
  obtain ⟨hlow, hhigh⟩ := tdiv_fits a.toInt b.toInt a.le_toInt a.toInt_lt h
  exact BitVec.toInt_ofInt_eq_self (by decide) hlow hhigh

end

/-- Settles O26: the two tests of `DIV`, and the quotient that fits in a word when neither holds. -/
theorem divTruncatesTowardZero : Obligations.DivTruncatesTowardZero := by
  refine fun d o s => ⟨fun hb h => ?quotient, fun hb => ?byZero, fun ha hb => ?overflow⟩
  case quotient => exact exec_div d o s ▸ execAlu_leaves (divide_ok hb h) (toInt_ofInt_tdiv h)
  case byZero => exact exec_div d o s ▸ execAlu_error (hb ▸ divide_zero)
  case overflow => exact exec_div d o s ▸ execAlu_error (divide_overflow ha hb)

/-! ## Which instruction raises which fault (R203, R204, R213) -/

/-- The instructions that read or write memory, and so can raise `OutOfBounds` (R204). -/
def AccessesMemory (i : Instr) : Prop :=
  (∃ d m, i = .lod d m ∨ i = .sto d m) ∨ (∃ v, i = .pshLit v) ∨ (∃ k, i = .pshReg k) ∨ (∃ d, i = .pop d) ∨
    (∃ c a, i = .cal c a) ∨ i = .ret ∨ ∃ n, i = .int n

/-- The instructions that write memory, and so can raise `DescriptorWrite` (R213). -/
def WritesMemory (i : Instr) : Prop :=
  (∃ d m, i = .sto d m) ∨ (∃ v, i = .pshLit v) ∨ (∃ k, i = .pshReg k) ∨ (∃ c a, i = .cal c a) ∨ i = .ret ∨
    ∃ n, i = .int n

theorem WritesMemory.accessesMemory {i : Instr} (h : WritesMemory i) : AccessesMemory i := by
  rcases h with ⟨d, m, rfl⟩ | ⟨v, rfl⟩ | ⟨k, rfl⟩ | ⟨c, a, rfl⟩ | rfl | ⟨n, rfl⟩ <;> simp [AccessesMemory]

/-- The faults that an instruction can raise in the state `s`: the table of R203, row by row. -/
inductive Raises (s : State) : Instr → Raised → Prop where
  | illegalRegister : Raises s (.pshReg .pc) ⟨.illegalRegister, 10⟩
  | divideByZero {d o} (h : aluOperand s o = 0) : Raises s (.div d o) ⟨.divideByZero, s.pc.toNat⟩
  | divideOverflow {d o} (ha : (s.getX d).toInt = -2 ^ 31) (hb : (aluOperand s o).toInt = -1) :
      Raises s (.div d o) ⟨.divideOverflow, s.pc.toNat⟩
  | shiftRange {d o i} (hi : i = .shl d o ∨ i = .shr d o) (h : 32 ≤ (aluOperand s o).toNat) :
      Raises s i ⟨.shiftRange, (aluOperand s o).toNat⟩
  | outOfBounds {i e} (hi : AccessesMemory i) (h : OobAt s e) : Raises s i e
  | descriptorWrite {i e} (hi : WritesMemory i) (h : DescAt s e) : Raises s i e

theorem pushable_eq_false {k : FileReg} : k.pushable = false ↔ k = .pc := by
  cases k <;> simp [FileReg.pushable]

theorem raises_of_write {i : Instr} {s : State} {e : Raised} (hi : WritesMemory i) (h : OobAt s e ∨ DescAt s e) :
    Raises s i e :=
  h.elim (.outOfBounds hi.accessesMemory) (.descriptorWrite hi)

theorem afterFault_inj {s : State} {e e' : Raised} (h : s.afterFault e = s.afterFault e') : e = e' := by
  have hr := RunStatus.faulted.inj (congrArg State.status h)
  exact congrArg (fun r : FaultRecord => (⟨r.cause, r.info⟩ : Raised)) hr

section
variable {s : State} {e : Raised}

/-- A recorded fault is the one the operation raised, when no success looks like it. -/
theorem error_of_finish {r : Except Raised State} (h : finish s r = .next (s.afterFault e))
    (hok : ∀ u, r = .ok u → u ≠ s.afterFault e) : r = .error e := by
  rcases finish_cases h with hr | ⟨e', rfl, he⟩
  · exact absurd rfl (hok _ hr)
  · rw [afterFault_inj he]

/-- The same of an instruction that can raise only in its first access `x`. -/
theorem error_of_finish_bind {α : Type} {x : Except Raised α} {f : α → State}
    (h : finish s (x >>= fun a => .ok (f a)) = .next (s.afterFault e))
    (hok : ∀ a, x = .ok a → f a ≠ s.afterFault e) : x = .error e := by
  cases x with
  | ok a => exact absurd (Host.Outcome.next.inj h) (hok a rfl)
  | error e' => rw [afterFault_inj (Host.Outcome.next.inj h)]

variable (hs : s.status = .running)
include hs

/-- A state that still runs is not one that recorded a fault. -/
theorem ne_afterFault {u : State} (hu : u.status = s.status) : u ≠ s.afterFault e := by
  rintro rfl
  rw [hs] at hu
  cases hu

theorem effect_ne_afterFault {i u} (h : Effect i s u) : u ≠ s.afterFault e := by
  rintro rfl
  exact effect_not_faulted hs h _ rfl

theorem execAlu_raises {op d o} (h : execAlu op d o s = .next (s.afterFault e)) :
    op (s.getX d) (aluOperand s o) = .error e :=
  error_of_finish_bind h fun _ _ => ne_afterFault hs rfl

theorem pushValue_raises {v} (h : pushValue v s = .next (s.afterFault e)) : OobAt s e ∨ DescAt s e := by
  refine push32_raises (error_of_finish_bind h fun t ht => ne_afterFault hs ?_)
  obtain ⟨-, rfl⟩ := push32_cases ht
  rfl

theorem exec_lod_raises {d m} (h : exec (.lod d m) s = .next (s.afterFault e)) : OobAt s e :=
  memRead4_raises (error_of_finish_bind h fun _ _ => ne_afterFault hs rfl)

theorem exec_sto_raises {r m} (h : exec (.sto r m) s = .next (s.afterFault e)) : OobAt s e ∨ DescAt s e := by
  refine memWrite_raises (error_of_finish_bind h fun t ht => ne_afterFault hs ?_)
  obtain ⟨rfl, -⟩ := memWrite_cases ht
  rfl

theorem exec_pop_raises {d} (h : exec (.pop d) s = .next (s.afterFault e)) : OobAt s e := by
  refine pop32_raises (error_of_finish_bind (f := fun p => (p.2.setX d p.1).advance) h fun p hp => ne_afterFault hs ?_)
  obtain ⟨-, -, hu⟩ := pop32_cases (v := p.1) (t := p.2) hp
  simp [hu]

theorem exec_cal_raises {c target} (h : exec (.cal c target) s = .next (s.afterFault e)) : OobAt s e ∨ DescAt s e := by
  cases hc : metricHolds c s.sr with
  | false =>
    rw [exec_cal_notTaken target hc] at h
    exact absurd (Host.Outcome.next.inj h) (ne_afterFault hs rfl)
  | true =>
    cases hf : firstPushFault s 8 with
    | none =>
      rw [exec_cal_ok target hc (firstPushFault_none.mp hf)] at h
      exact absurd (Host.Outcome.next.inj h) (ne_afterFault hs rfl)
    | some e' =>
      rw [exec_cal_taken target hc, takeCall_error hf, finish_error] at h
      exact afterFault_inj (Host.Outcome.next.inj h) ▸ firstPushFault_raises hf

theorem exec_ret_raises (h : exec .ret s = .next (s.afterFault e)) : OobAt s e ∨ DescAt s e := by
  refine takeReturn_raises (error_of_finish h fun u hu => ne_afterFault hs ?_)
  obtain ⟨hres, hframe, hpush⟩ := takeReturn_cases hu
  rw [takeReturn_ok hres hframe hpush] at hu
  rw [← Except.ok.inj hu]

theorem exec_int_raises {n} (h : exec (.int n) s = .next (s.afterFault e)) : OobAt s e ∨ DescAt s e :=
  interrupt_raises (error_of_finish h fun _ hu => effect_ne_afterFault hs (interrupt_cases hu))

/-- All a running instruction can raise. -/
theorem exec_raises {i} (h : exec i s = .next (s.afterFault e)) : Raises s i e := by
  cases i
  case lod d m => exact .outOfBounds (.inl ⟨d, m, .inl rfl⟩) (exec_lod_raises hs h)
  case sto r m => exact raises_of_write (by simp [WritesMemory]) (exec_sto_raises hs h)
  case pshLit v => exact raises_of_write (by simp [WritesMemory]) (pushValue_raises hs h)
  case pshReg k =>
    cases hk : k.pushable with
    | true => exact raises_of_write (by simp [WritesMemory]) (pushValue_raises hs (exec_pshReg s hk ▸ h))
    | false =>
      obtain rfl := pushable_eq_false.mp hk
      exact afterFault_inj (Host.Outcome.next.inj h) ▸ .illegalRegister
  case pop d => exact .outOfBounds (by simp [AccessesMemory]) (exec_pop_raises hs h)
  case cal c a => exact raises_of_write (by simp [WritesMemory]) (exec_cal_raises hs h)
  case ret => exact raises_of_write (by simp [WritesMemory]) (exec_ret_raises hs h)
  case int n => exact raises_of_write (by simp [WritesMemory]) (exec_int_raises hs h)
  case div d o =>
    rcases divide_raises (execAlu_raises hs (exec_div d o s ▸ h)) with ⟨hb, rfl⟩ | ⟨ha, hb, rfl⟩
    · exact .divideByZero hb
    · exact .divideOverflow ha hb
  case shl d o =>
    obtain ⟨hn, rfl⟩ := shiftLeft_raises (execAlu_raises hs (exec_shl d o s ▸ h))
    exact .shiftRange (.inl rfl) hn
  case shr d o =>
    obtain ⟨hn, rfl⟩ := shiftRight_raises (execAlu_raises hs (exec_shr d o s ▸ h))
    exact .shiftRange (.inr rfl) hn
  case add | sub | mul | and | orr | xor =>
    simp only [exec_add, exec_sub, exec_mul, exec_and, exec_orr, exec_xor] at h
    cases execAlu_raises hs h
  case ldi | cmp => exact absurd (Host.Outcome.next.inj h) (ne_afterFault hs rfl)
  case jmp =>
    refine absurd (Host.Outcome.next.inj h) (ne_afterFault hs ?_)
    split <;> rfl

end

/-- Settles O41: the fault is one the instruction raises, since its effect is none; each row of the table is one of the
causes. -/
theorem faultCausesOfInstructions : Obligations.FaultCausesOfInstructions := by
  intro i s t r hs h hr
  rcases exec_effect h with he | ⟨e, rfl⟩
  · exact absurd hr (effect_not_faulted hs he r)
  · obtain rfl := afterFault_of_faulted hr
    cases exec_raises hs h with
    | illegalRegister => exact .inl ⟨rfl, rfl⟩
    | divideByZero hb => exact .inr (.inl ⟨rfl, rfl, _, _, rfl, hb⟩)
    | divideOverflow ha hb => exact .inr (.inr (.inl ⟨rfl, rfl, _, _, rfl, ha, hb⟩))
    | shiftRange hi hn => exact .inr (.inr (.inr (.inl ⟨rfl, _, _, hi, rfl, hn⟩)))
    | outOfBounds hi ha => exact .inr (.inr (.inr (.inr (.inl ⟨ha.1, ha.2, hi⟩))))
    | descriptorWrite hi ha => exact .inr (.inr (.inr (.inr (.inr ⟨ha.1, ha.2, hi⟩))))

end Sys2Proof.Machine

/-! PROOFS. The statements of spec/70_reset_and_hazards.md: the ways to leave the running status, what the host leaves
before the first step, the body of the run loop, and the word the host places at the next fetch. -/

namespace Sys2Proof.Machine

/-! ## The ways to leave `Running` (R237) -/

/-- Settles O42: a step is the normal end, a fault record or an effect, and only the effect of `INT #0` writes the run
status, which the device's action keeps. -/
theorem threeWaysToLeaveRunning : Obligations.ThreeWaysToLeaveRunning := by
  intro s t h
  obtain ⟨hs, ⟨hpc, rfl⟩ | ⟨e, rfl⟩ | ⟨i, u, hpc, hi, -, he, rfl⟩⟩ := step_cases h
  · exact .inr (.inr (.inl ⟨rfl, hpc, rfl⟩))
  · exact .inr (.inr (.inr ⟨_, rfl⟩))
  · rw [afterEffect_status]
    rcases effect_status he with ht | ⟨rfl, ht⟩
    · exact .inl (ht.trans hs)
    · exact .inr (.inl ⟨ht, hpc, hi⟩)

/-! ## The bytes of the descriptor table (R42) -/

theorem Descriptor.bytes_length (d : Descriptor) : d.bytes.length = 8 := by simp [Descriptor.bytes]

theorem Descriptor.bytes_size (d : Descriptor) {j : Nat} (hj : j < 4) : d.bytes[j]? = some d.size[j] := by
  rw [Descriptor.bytes, List.getElem?_append_left (by simpa using hj)]
  simp [hj]

theorem Descriptor.bytes_taggedBase (d : Descriptor) {j : Nat} (hj : j < 4) :
    d.bytes[4 + j]? = some d.taggedBase[j] := by
  rw [Descriptor.bytes, List.getElem?_append_right (by simp)]
  simp [hj]

theorem descriptorBytes_cons (d : Descriptor) (ds : List Descriptor) :
    descriptorBytes (d :: ds) = d.bytes ++ descriptorBytes ds := List.flatMap_cons

theorem descriptorBytes_length (ds : List Descriptor) : (descriptorBytes ds).length = ds.length * 8 := by
  induction ds with
  | nil => rfl
  | cons d ds ih => rw [descriptorBytes_cons, List.length_append, Descriptor.bytes_length, ih, List.length_cons]; omega

/-- Byte `k` of slot `i`, counted from the start of the table. -/
theorem descriptorBytes_get (ds : List Descriptor) {i k : Nat} (hi : i < ds.length) (hk : k < 8) :
    (descriptorBytes ds)[8 * i + k]? = ds[i].bytes[k]? := by
  induction ds generalizing i with
  | nil => cases hi
  | cons d ds ih =>
    rw [descriptorBytes_cons]
    cases i with
    | zero => rw [List.getElem?_append_left (by rw [Descriptor.bytes_length]; omega), Nat.mul_zero, Nat.zero_add]; rfl
    | succ i =>
      rw [List.getElem?_append_right (by rw [Descriptor.bytes_length]; omega), Descriptor.bytes_length,
        show 8 * (i + 1) + k - 8 = 8 * i + k by omega]
      exact ih (Nat.lt_of_succ_lt_succ hi)

/-! ## Boot (R231, R32, R245) -/

/-- Memory before the first step: the image at 0, then the descriptor table (R231, R233). -/
def Launch.loaded (l : Launch) : Memory :=
  (l.mem.writeList 0 l.image).writeList l.cfg.ddtBase (descriptorBytes (l.descriptors.take l.cfg.devCount))

/-- A byte of a written list, by its place in the list. -/
theorem Memory.read_writeList_get (m : Memory) (a : Nat) {bs : List Byte} {k : Nat} {b : Byte} (h : bs[k]? = some b) :
    (m.writeList a bs).read (a + k) = b := by
  obtain ⟨hk, rfl⟩ := List.getElem?_eq_some_iff.mp h
  rw [Memory.read_writeList, dif_pos (by omega)]
  congr 1
  omega

theorem Memory.read_writeList_other (m : Memory) {a e : Nat} {bs : List Byte} (h : e < a ∨ a + bs.length ≤ e) :
    (m.writeList a bs).read e = m.read e := by
  rw [Memory.read_writeList, dif_neg (by omega)]

theorem progEnd_le_ddtEnd (c : Config) : c.progEnd ≤ c.ddtEnd := Nat.le_add_right _ _

theorem ddtEnd_le_memSize (c : Config) : c.ddtEnd ≤ c.memSize :=
  (Nat.le_add_right _ c.ramSize).trans (Nat.le_add_right _ c.devmapSize)

section
variable {l : Launch}

theorem boot_error (h : l.cfg.progSize < l.image.length) : boot l = .error .imageTooLarge := if_pos h

/-- An image that fits is loaded, and the registers get their reset values (R32). -/
theorem boot_ok (h : l.image.length ≤ l.cfg.progSize) :
    boot l = .ok { cfg := l.cfg, x := l.x, sp := l.cfg.spReset, fp := l.cfg.spReset, pc := 0, sr := 0, mem := l.loaded,
                   status := .running, out := [], kbdRequests := 0, deviceInputs := l.deviceInputs } :=
  if_neg h.not_gt

/-- A run starts only from an image that fits, and then in the loaded memory. -/
theorem boot_cases {s : State} (h : boot l = .ok s) :
    l.image.length ≤ l.cfg.progSize ∧ s.cfg = l.cfg ∧ s.mem = l.loaded := by
  rcases Nat.lt_or_ge l.cfg.progSize l.image.length with hlarge | hfit
  · rw [boot_error hlarge] at h; cases h
  · rw [boot_ok hfit] at h
    obtain rfl := Except.ok.inj h
    exact ⟨hfit, rfl, rfl⟩

variable (hd : l.descriptors.length = l.cfg.devCount)
include hd

theorem Launch.loaded_eq :
    l.loaded = (l.mem.writeList 0 l.image).writeList l.cfg.ddtBase (descriptorBytes l.descriptors) := by
  rw [Launch.loaded, ← hd, List.take_length]

/-- The table's bytes fill its zone (R42). -/
theorem ddtBase_add_descriptorBytes : l.cfg.ddtBase + (descriptorBytes l.descriptors).length = l.cfg.ddtEnd := by
  rw [descriptorBytes_length, hd]
  rfl

theorem Launch.read_loaded_outside {a : Nat} (h : a < l.cfg.ddtBase ∨ l.cfg.ddtEnd ≤ a) :
    l.loaded.read a = (l.mem.writeList 0 l.image).read a := by
  rw [Launch.loaded_eq hd, Memory.read_writeList_other _ (by rwa [ddtBase_add_descriptorBytes hd])]

theorem Launch.read_loaded_descriptor {i k : Nat} {b : Byte} (hi : i < l.descriptors.length) (hk : k < 8)
    (hb : l.descriptors[i].bytes[k]? = some b) : l.loaded.read (descriptorAddr l.cfg i + k) = b := by
  rw [Launch.loaded_eq hd, descriptorAddr, Nat.add_assoc]
  exact Memory.read_writeList_get _ _ ((descriptorBytes_get _ hi hk).trans hb)

/-- The loader lists no address beyond the table. -/
theorem Launch.mem_loaded (hfit : l.image.length ≤ l.cfg.progSize) {c : Host.Cell} (hc : c ∈ l.loaded) :
    c.1 < l.cfg.ddtEnd ∨ c ∈ l.mem := by
  rw [Launch.loaded_eq hd] at hc
  rcases Memory.mem_writeList hc with ⟨-, htable⟩ | hc
  · exact .inl (ddtBase_add_descriptorBytes hd ▸ htable)
  · refine (Memory.mem_writeList hc).imp_left fun ⟨_, himage⟩ => ?_
    rw [Nat.zero_add] at himage
    exact Nat.lt_of_lt_of_le himage (hfit.trans (progEnd_le_ddtEnd _))

end

/-- Settles O53: the image ends where the table begins, so neither writes over the other. -/
theorem bootLoadsTheImage : Obligations.BootLoadsTheImage := by
  refine fun l => ⟨boot_error, fun hfit hd => ⟨_, boot_ok hfit, rfl, rfl, rfl, rfl, rfl, rfl, rfl, rfl, rfl, rfl,
    fun i hi => ?image, fun i j hi hj => ⟨?size, ?taggedBase⟩, fun a hi ha => ?other⟩⟩
  case image =>
    refine (Launch.read_loaded_outside hd (.inl (Nat.lt_of_lt_of_le hi hfit))).trans ?_
    simpa using Memory.read_writeList_get l.mem 0 (List.getElem?_eq_getElem hi)
  case size => exact Launch.read_loaded_descriptor hd hi (by omega) (Descriptor.bytes_size _ hj)
  case taggedBase =>
    rw [Nat.add_assoc]
    exact Launch.read_loaded_descriptor hd hi (by omega) (Descriptor.bytes_taggedBase _ hj)
  case other =>
    exact (Launch.read_loaded_outside hd ha).trans (Memory.read_writeList_other _ (.inr (by omega)))

/-- Settles O54: both writes keep the canonical form, and what they list is in the program region or the table. -/
theorem bootMemoryIsCanonical : Obligations.BootMemoryIsCanonical := by
  intro l s ⟨_, hwf, hmem, hd⟩ h
  obtain ⟨hfit, hcfg, hs⟩ := boot_cases h
  rw [State.memOk, hs, hcfg]
  refine ⟨Memory.wf_writeList (Memory.wf_writeList hwf _ _) _ _, fun c hc => ?_⟩
  rcases Launch.mem_loaded hd hfit hc with hc | hc
  · exact Nat.lt_of_lt_of_le hc (ddtEnd_le_memSize _)
  · exact hmem c hc

/-! ## The body of the run loop (R236) -/

/-- The device does not act after the step that ends the run. -/
theorem betweenSteps_ended {u : State} (h : u.status ≠ .running) : betweenSteps (.next u) = .next u := by
  rw [betweenSteps, if_neg h]

section
variable {s : State}

theorem fetch_atEnd (h : s.pc.toNat = s.cfg.progEnd) : fetch s = .atEnd := if_pos h

theorem fetch_outOfProgram (h : s.cfg.progEnd < s.pc.toNat) : fetch s = .bad ⟨.fetchOutOfProgram, s.pc.toNat⟩ := by
  rw [fetch, if_neg h.ne', if_pos h]

theorem fetch_misaligned (h : s.pc.toNat < s.cfg.progEnd) (ha : s.pc.toNat % 4 ≠ 0) :
    fetch s = .bad ⟨.fetchMisaligned, s.pc.toNat⟩ := by
  rw [fetch, if_neg h.ne, if_neg h.not_gt, if_pos ha]

variable (hs : s.status = .running)
include hs

theorem step_of_fetch_atEnd (h : fetch s = .atEnd) : step s = .next { s with status := .halted none } := by
  rw [step_running hs, runningStep, h]
  exact betweenSteps_ended (by simp)

theorem step_of_fetch_bad {e : Raised} (h : fetch s = .bad e) : step s = .next (s.afterFault e) := by
  rw [step_running hs, runningStep, h]
  exact betweenSteps_ended (by simp)

theorem step_of_decode_error {f : DecodeFault} (hpc : s.pcLegal) (h : decode (slotAtPc s) = .error f) :
    step s = .next (s.afterFault (decodeRaised f)) := by
  rw [step_running hs, runningStep, fetch_slot hpc]
  simp only [h]
  exact betweenSteps_ended (by simp)

theorem step_of_decode {i : Instr} (hpc : s.pcLegal) (h : decode (slotAtPc s) = .ok i) :
    step s = betweenSteps (exec i s) := by
  obtain ⟨t, ht⟩ := exec_next i s
  rw [step_of_exec hs hpc h ht, ht, betweenSteps]

end

/-- Settles O36: the outcome of the fetch, then that of the decoder, decides the step. -/
theorem stepRunsTheDecodedInstruction : Obligations.StepRunsTheDecodedInstruction := fun _ hs =>
  ⟨fun h => step_of_fetch_atEnd hs (fetch_atEnd h),
    fun h => step_of_fetch_bad hs (fetch_outOfProgram h),
    fun h ha => step_of_fetch_bad hs (fetch_misaligned h ha),
    fun hpc _ hf => step_of_decode_error hs hpc hf,
    fun hpc _ hf => step_of_decode_error hs hpc hf,
    fun hpc _ hf => step_of_decode_error hs hpc hf,
    fun hpc _ _ hi hu => step_of_exec hs hpc hi hu⟩

/-! ## The word the host places (R71, R236) -/

theorem fetches_iff {s : State} : s.fetches = true ↔ s.status = .running ∧ s.pcLegal := decide_eq_true_iff

/-- The four bytes of a slot stored at `pc` are fetched as that slot. -/
theorem slotAtPc_putBytes (s : State) (w : Slot) : slotAtPc (s.putBytes s.pc.toNat w.bytes) = w := by
  simp [slotAtPc, State.byteAt_putBytes, Slot.bytes]

/-- Settles O37: the state made ready fetches, and what it fetches is the slot of the table word. -/
theorem fetchWordRunsNext : Obligations.FetchWordRunsNext := by
  refine fun s w i hc hi => ⟨?run, fun hf => ?frame⟩
  case run =>
    have hf : (s.withFetchWord 32 w).fetches = true := readyToFetch_fetches s hc
    obtain ⟨hs, hpc⟩ := fetches_iff.mp hf
    have hslot : slotAtPc (s.withFetchWord 32 w) = tableSlot 32 w := slotAtPc_putBytes _ _
    exact step_of_decode hs hpc (hslot ▸ tableSlot_decode hi)
  case frame =>
    rw [State.withFetchWord, State.readyToFetch, if_pos hf]
    refine ⟨rfl, fun a ha => Memory.read_writeList_other _ ?_⟩
    rwa [Asm.slot_bytes_length]

end Sys2Proof.Machine
